-- ==== Sys2Proof/Word.lean ====
section
/-! DEFINITION. The word types of the engine (30_encoding R90, R97; 20_memory R61, R64, R72). -/

namespace Sys2Proof

/-- A byte: a symbol, a literal, or one item of a stream (00_scope R4, 20_memory R72). -/
abbrev Byte := BitVec 8

/-- A command word, a response word or a query-space data word (30_encoding R90, R97; 20_memory R64). -/
abbrev Word := BitVec 32

/-- A word address of the query space (20_memory R64: 14 bits). -/
abbrev QAddr := BitVec 14

end Sys2Proof
end

