-- ==== Sys2Proof/Config.lean ====
section
/-! DEFINITION. The sizes of 00_scope R7, the weight width of R8, and the one free value of the model. -/

namespace Sys2Proof.Config

/-- Node slots: 256 leaves, 1 NYT, 256 internal nodes (00_scope R7, 90_conflicts C4). -/
abbrev nnodes : Nat := 513

/-- Alphabet size (00_scope R7). -/
abbrev nsymbols : Nat := 256

/-- Order key of the first node (00_scope R7, 10_state R41). -/
abbrev key0 : Nat := 768

/-- Most bits in a tree path (00_scope R7, 40_tree R128). -/
abbrev pathMax : Nat := 256

/-- Entries of the swap log (00_scope R7, 40_tree R136). -/
abbrev swaplogN : Nat := 512

/-- The weight width `W`: an integer from 1 to 32 (00_scope R8; log entry 4). -/
abbrev WeightWidth := { w : Nat // 1 ≤ w ∧ w ≤ 32 }

/-- A conforming engine has `W` = 32 unless its configuration states otherwise (00_scope R8). -/
def conformingWidth : WeightWidth := ⟨32, by decide⟩

/-- `WMAX` = 2^`W` − 1, the largest weight (00_scope R8). -/
def wmax (w : WeightWidth) : Nat := 2 ^ w.val - 1

/-- FREE VALUE. What a query read issued while a command is in flight returns: any value (20_memory R76,
70_reset_and_hazards R275; log entry 5). It has no body: nothing can be proved of it. The first argument
counts the draws, so that two reads need not agree. -/
opaque freeQuery : Nat → QAddr → Word

end Sys2Proof.Config
end

