-- ==== Sys2Proof/Syntax.lean ====
section
/-! DEFINITION. The nine commands (30_encoding R94) and the assembler's listing forms (30_encoding R105 to R107). -/

namespace Sys2Proof

/-- The commands of AHT-1, one constructor per row of the opcode map (30_encoding R94). -/
inductive Instr where
  /-- OPC 0x0, 45_control R230. -/
  | nop
  /-- OPC 0x1, 45_control R231. -/
  | init
  /-- OPC 0x2, 42_encoder R180. -/
  | enc (b : Byte)
  /-- OPC 0x3, 43_decoder R190. -/
  | dec
  /-- OPC 0x4, 41_bitstream R164. -/
  | close
  /-- OPC 0x5, 40_tree R143. -/
  | upd (b : Byte)
  /-- OPC 0x6, 44_query R210. -/
  | contains (b : Byte)
  /-- OPC 0x7, 44_query R211. -/
  | pathsym (b : Byte)
  /-- OPC 0x8, 44_query R212. -/
  | pathnyt
  deriving DecidableEq, Repr

/-- The mnemonics (30_encoding R94). -/
inductive Mnemonic where
  | NOP | INIT | ENC | DEC | CLOSE | UPD | CONTAINS | PATHSYM | PATHNYT
  deriving DecidableEq, Repr

/-- Only `ENC`, `UPD`, `CONTAINS` and `PATHSYM` take a symbol (30_encoding R92). -/
def Mnemonic.takesSymbol : Mnemonic → Bool
  | .ENC | .UPD | .CONTAINS | .PATHSYM => true
  | .NOP | .INIT | .DEC | .CLOSE | .PATHNYT => false

/-- The opcode number of a mnemonic (30_encoding R94). -/
def Mnemonic.opc : Mnemonic → BitVec 4
  | .NOP => 0x0#4
  | .INIT => 0x1#4
  | .ENC => 0x2#4
  | .DEC => 0x3#4
  | .CLOSE => 0x4#4
  | .UPD => 0x5#4
  | .CONTAINS => 0x6#4
  | .PATHSYM => 0x7#4
  | .PATHNYT => 0x8#4

/-- The mnemonic a command is written with. -/
def Instr.mnemonic : Instr → Mnemonic
  | .nop => .NOP
  | .init => .INIT
  | .enc _ => .ENC
  | .dec => .DEC
  | .close => .CLOSE
  | .upd _ => .UPD
  | .contains _ => .CONTAINS
  | .pathsym _ => .PATHSYM
  | .pathnyt => .PATHNYT

/-- The symbol operand of a command; 0 for a command that takes none (30_encoding R92). -/
def Instr.sym : Instr → Byte
  | .enc b | .upd b | .contains b | .pathsym b => b
  | .nop | .init | .dec | .close | .pathnyt => 0#8

/-- An operand as a listing spells it (30_encoding R105): decimal, hexadecimal, or a quoted character. -/
inductive Operand where
  | dec (n : Nat)
  | hex (n : Nat)
  | chr (c : Char)
  deriving DecidableEq, Repr

/-- The number an operand stands for; a character stands for its ASCII code (30_encoding R106). -/
def Operand.value : Operand → Nat
  | .dec n | .hex n => n
  | .chr c => c.toNat

/-- One line of a listing: a command (R105), a pseudo-command (R106), or a host line (R107). -/
inductive Line where
  /-- A mnemonic with its operand, if any. -/
  | command (m : Mnemonic) (arg : Option Operand)
  /-- `ENCB b1, b2, ..., bn`. -/
  | encb (bs : List Operand)
  /-- `ENCS "text"`. -/
  | encs (text : List Char)
  /-- `DECN n`. -/
  | decn (n : Nat)
  /-- `QRD a`: a host read of query word `a`. -/
  | qrd (a : Nat)
  /-- `SRC b1, b2, ...`: the bytes the source will deliver, followed by `End`. -/
  | src (bs : List Operand)
  deriving DecidableEq, Repr

end Sys2Proof
end

