-- ==== Sys2Proof/WellFormed.lean ====
section
/-! DEFINITION. The checks a listing must pass before it stands for commands (30_encoding R92, R105 to R107).
A command as data (`Instr`) has no check: its one operand is a byte by type (30_encoding R92). -/

namespace Sys2Proof

/-- Printable ASCII, 0x20 to 0x7E (30_encoding R105: "a quoted printable ASCII character"). -/
def printable (c : Char) : Bool := 0x20 ≤ c.toNat && c.toNat ≤ 0x7E

/-- An operand is a byte value; a quoted character is printable ASCII (30_encoding R105). -/
def Operand.wellFormed : Operand → Bool
  | .dec n | .hex n => n < 256
  | .chr c => printable c

/-- A line is well formed when each operand is a byte value, an operand stands exactly where the mnemonic
takes a symbol, an `ENCB` names at least one byte, an `ENCS` text is ASCII, and a query address has 14 bits. -/
def Line.wellFormed : Line → Bool
  | .command m none => !m.takesSymbol
  | .command m (some o) => m.takesSymbol && o.wellFormed
  | .encb bs => !bs.isEmpty && bs.all Operand.wellFormed
  | .encs text => text.all fun c => c.toNat < 128
  | .decn _ => true
  | .qrd a => a < 2 ^ 14
  | .src bs => bs.all Operand.wellFormed

end Sys2Proof
end

