-- ==== Sys2Proof/Decode.lean ====
section
/-! DEFINITION. The command word: its fields (30_encoding R90 to R93), the decoder of the opcode map (R94 to R96), the
encoder, the opcode map as a table, and the assembler (R105, R106). -/

namespace Sys2Proof

/-- `OPC` = `cmd[3:0]` (30_encoding R91). -/
def opcField (w : Word) : BitVec 4 := w.extractLsb' 0 4

/-- `SYM` = `cmd[11:4]` (30_encoding R92). -/
def symField (w : Word) : Byte := w.extractLsb' 4 8

/-- `RSV` = `cmd[31:12]` (30_encoding R93). -/
def rsvField (w : Word) : BitVec 20 := w.extractLsb' 12 20

/-- Why a command word is illegal (30_encoding R95). -/
inductive Illegal where
  /-- `RSV` is not 0 (R93). -/
  | reservedBits
  /-- `SYM` is not 0 with an opcode that takes no symbol (R92). -/
  | symbolNotTaken
  /-- `OPC` is 0x9 to 0xF. -/
  | opcodeUnassigned
  deriving DecidableEq, Repr

/-- The command of an opcode that takes no symbol: `SYM` must be 0 (30_encoding R92). -/
def withoutSymbol (sym : Byte) (i : Instr) : Except Illegal Instr :=
  if sym = 0#8 then .ok i else .error .symbolNotTaken

/-- The opcode map of 30_encoding R94 on the fields `OPC` and `SYM`. -/
def decodeFields (opc : BitVec 4) (sym : Byte) : Except Illegal Instr :=
  match opc.toNat with
  | 0 => withoutSymbol sym .nop
  | 1 => withoutSymbol sym .init
  | 2 => .ok (.enc sym)
  | 3 => withoutSymbol sym .dec
  | 4 => withoutSymbol sym .close
  | 5 => .ok (.upd sym)
  | 6 => .ok (.contains sym)
  | 7 => .ok (.pathsym sym)
  | 8 => withoutSymbol sym .pathnyt
  | _ => .error .opcodeUnassigned

/-- The decoder of command words, total: a row of R94, or illegal by R95, by name (30_encoding R96). -/
def decode (w : Word) : Except Illegal Instr :=
  if rsvField w = 0#20 then decodeFields (opcField w) (symField w) else .error .reservedBits

/-- The word of a command: {20'b0, SYM, OPC} (30_encoding R90, R94, R105). -/
def encode (i : Instr) : Word := 0#20 ++ i.sym ++ i.mnemonic.opc

/-- The instruction the decoder reads from an instruction word numbered as the opcode table numbers its bits:
bit 0 is bit 0 of the command word, which has no byte order (log entry 13). -/
def decodeTableWord (nbits w : Nat) : Option Instr :=
  (decode (BitVec.ofNat 32 (w % 2 ^ nbits))).toOption

/-- A row of the opcode map: mnemonic, match and mask (30_encoding R94). -/
structure OpcodeRow where
  mnemonic : Mnemonic
  matchBits : Word
  maskBits : Word
  deriving DecidableEq, Repr

/-- The table of 30_encoding R94, match and mask as the table writes them. -/
def opcodeTable : List OpcodeRow :=
  [ ⟨.NOP, 0x00000000#32, 0xFFFFFFFF#32⟩, ⟨.INIT, 0x00000001#32, 0xFFFFFFFF#32⟩,
    ⟨.ENC, 0x00000002#32, 0xFFFFF00F#32⟩, ⟨.DEC, 0x00000003#32, 0xFFFFFFFF#32⟩,
    ⟨.CLOSE, 0x00000004#32, 0xFFFFFFFF#32⟩, ⟨.UPD, 0x00000005#32, 0xFFFFF00F#32⟩,
    ⟨.CONTAINS, 0x00000006#32, 0xFFFFF00F#32⟩, ⟨.PATHSYM, 0x00000007#32, 0xFFFFF00F#32⟩,
    ⟨.PATHNYT, 0x00000008#32, 0xFFFFFFFF#32⟩ ]

/-- A word matches a row: its masked bits are the row's match (30_encoding R94, R95). -/
def OpcodeRow.matches (r : OpcodeRow) (w : Word) : Bool := w &&& r.maskBits == r.matchBits

/-! The assembler -/

/-- The command a mnemonic and a byte stand for (the byte is not read where no symbol is taken). -/
def Mnemonic.instr (b : Byte) : Mnemonic → Instr
  | .NOP => .nop
  | .INIT => .init
  | .ENC => .enc b
  | .DEC => .dec
  | .CLOSE => .close
  | .UPD => .upd b
  | .CONTAINS => .contains b
  | .PATHSYM => .pathsym b
  | .PATHNYT => .pathnyt

/-- The byte an operand stands for (30_encoding R105). -/
def Operand.byte (o : Operand) : Byte := BitVec.ofNat 8 o.value

/-- The commands a line of a listing stands for, in order (30_encoding R105, R106). A host line (R107) is no command. -/
def Line.commands : Line → List Instr
  | .command m none => [m.instr 0#8]
  | .command m (some o) => [m.instr o.byte]
  | .encb bs => bs.map fun o => .enc o.byte
  | .encs text => text.map fun c => .enc (BitVec.ofNat 8 c.toNat)
  | .decn n => List.replicate n .dec
  | .qrd _ => []
  | .src _ => []

/-- The words the assembler writes for a line (30_encoding R105). A line that is not well formed is refused: the spec does
not say what such a line stands for (DESIGN CHOICE, log entry 16). -/
def Line.assemble (l : Line) : Option (List Word) :=
  if l.wellFormed then some (l.commands.map encode) else none

/-- The spelling of a mnemonic: upper case (30_encoding R105). -/
def Mnemonic.spelling : Mnemonic → List Char
  | .NOP => "NOP".toList
  | .INIT => "INIT".toList
  | .ENC => "ENC".toList
  | .DEC => "DEC".toList
  | .CLOSE => "CLOSE".toList
  | .UPD => "UPD".toList
  | .CONTAINS => "CONTAINS".toList
  | .PATHSYM => "PATHSYM".toList
  | .PATHNYT => "PATHNYT".toList

/-- Every mnemonic. -/
def Mnemonic.all : List Mnemonic := [.NOP, .INIT, .ENC, .DEC, .CLOSE, .UPD, .CONTAINS, .PATHSYM, .PATHNYT]

/-- The value of a digit in a base up to 16. -/
def digitValue (base : Nat) (c : Char) : Option Nat :=
  let v :=
    if '0' ≤ c ∧ c ≤ '9' then c.toNat - 48
    else if 'a' ≤ c ∧ c ≤ 'f' then c.toNat - 87
    else if 'A' ≤ c ∧ c ≤ 'F' then c.toNat - 55
    else base
  if v < base then some v else none

/-- The number the leading digits spell, how many digits there were, and the text after them. -/
def readDigits (base : Nat) : List Char → Nat → Nat → Nat × Nat × List Char
  | [], acc, k => (acc, k, [])
  | c :: cs, acc, k =>
    match digitValue base c with
    | some d => readDigits base cs (acc * base + d) (k + 1)
    | none => (acc, k, c :: cs)

/-- An operand at the head of a text, and the text after it (30_encoding R105). -/
def readOperand : List Char → Option (Operand × List Char)
  | '\'' :: c :: '\'' :: rest => some (.chr c, rest)
  | '0' :: 'x' :: cs =>
    let (n, k, rest) := readDigits 16 cs 0 0
    if k = 0 then none else some (.hex n, rest)
  | cs =>
    let (n, k, rest) := readDigits 10 cs 0 0
    if k = 0 then none else some (.dec n, rest)

/-- Only blanks, or a comment, may follow (30_encoding R105: "Text after `;` is a comment"). -/
def restIsComment (cs : List Char) : Bool :=
  match cs.dropWhile (· == ' ') with
  | [] => true
  | c :: _ => c == ';'

/-- One command line of assembler text (30_encoding R105): a mnemonic, then one space and one operand where the
mnemonic takes a symbol, then nothing or a comment. -/
def readCommandLine (text : List Char) : Option Line :=
  let word := text.takeWhile Char.isUpper
  let rest := text.drop word.length
  match Mnemonic.all.find? (fun m => m.spelling == word) with
  | none => none
  | some m =>
    if m.takesSymbol then
      match rest with
      | ' ' :: cs =>
        match readOperand cs with
        | some (o, after) => if restIsComment after then some (.command m (some o)) else none
        | none => none
      | _ => none
    else if restIsComment rest then some (.command m none) else none

/-- Operands separated by commas, at most `k` of them, and the text after them (30_encoding R106, R107). -/
def readOperands : Nat → List Char → Option (List Operand × List Char)
  | 0, _ => none
  | k + 1, cs =>
    match readOperand cs with
    | none => none
    | some (o, ',' :: rest) => (readOperands k (rest.dropWhile (· == ' '))).map fun r => (o :: r.1, r.2)
    | some (o, rest) => some ([o], rest)

/-- The double quotation mark around the text of `ENCS` (30_encoding R106). -/
def quotationMark : Char := Char.ofNat 34

/-- A number at the head of a text, and the text after it: the count of `DECN` and the address of `QRD` are written in
decimal or in hexadecimal, never as a quoted character (30_encoding R106, R107 do not say: DESIGN CHOICE, log entry 16). -/
def readNumber (cs : List Char) : Option (Nat × List Char) :=
  match readOperand cs with
  | some (.dec n, rest) | some (.hex n, rest) => some (n, rest)
  | some (.chr _, _) | none => none

/-- What stands after the word of a pseudo-command or a host line (30_encoding R106, R107), and the text after it. -/
def readArguments (word : List Char) (cs : List Char) : Option (Line × List Char) :=
  if word = "ENCB".toList then (readOperands cs.length cs).map fun r => (.encb r.1, r.2)
  else if word = "SRC".toList then (readOperands cs.length cs).map fun r => (.src r.1, r.2)
  else if word = "DECN".toList then (readNumber cs).map fun r => (.decn r.1, r.2)
  else if word = "QRD".toList then (readNumber cs).map fun r => (.qrd r.1, r.2)
  else if word = "ENCS".toList then
    match cs with
    | q :: text =>
      let body := text.takeWhile (· != quotationMark)
      if q = quotationMark ∧ body.length < text.length then some (.encs body, text.drop (body.length + 1)) else none
    | [] => none
  else none

/-- One line of a listing (30_encoding R105 to R107): a command, a pseudo-command or a host line, then nothing or a
comment. `SRC` alone is a source that delivers nothing (DESIGN CHOICE, log entry 16). -/
def readLine (text : List Char) : Option Line :=
  match readCommandLine text with
  | some l => some l
  | none =>
    let word := text.takeWhile Char.isUpper
    match text.drop word.length with
    | ' ' :: cs =>
      match readArguments word cs with
      | some (l, after) => if restIsComment after then some l else none
      | none => if word = "SRC".toList ∧ restIsComment cs = true then some (.src []) else none
    | rest => if word = "SRC".toList ∧ restIsComment rest = true then some (.src []) else none

/-- A whole listing, line by line: blanks before a line are dropped, and an empty line or a line that is only a comment
stands for nothing (30_encoding R105 does not speak of these: DESIGN CHOICE, log entry 16). A listing with any other text,
a label for instance, is refused. -/
def readListing : List (List Char) → Option (List Line)
  | [] => some []
  | text :: rest =>
    let body := text.dropWhile (· == ' ')
    if restIsComment body then readListing rest
    else (readLine body).bind fun l => (readListing rest).map (l :: ·)

end Sys2Proof
end

