-- ==== Sys2Proof/Machine/State.lean ====
section
/-! DEFINITION. Everything the spec gives the engine to hold (10_state), the ports and the agents behind them
(20_memory R60, R61), and the state after reset (10_state R40, 70_reset_and_hazards R270). -/

namespace Sys2Proof.Machine

open Sys2Proof.Config

/-- Why the machine would stop. No meaning stops: every error of this hardware is a response word and a next
state (60_exceptions R240), and an engine that waits for ever on an agent is a next state too (20_memory R67,
R69; log entry 3). So this type has no constructor. -/
inductive Fault where
  deriving DecidableEq, Repr

/-- Why an instruction would have no meaning. -/
inductive Refusal where
  /-- An arm of `exec` whose meaning is not written yet; raised by no arm (safe). -/
  | notModelled (mnemonic : String)
  deriving DecidableEq, Repr

/-- A handle that names a slot, 0 to 512 (10_state R23). -/
abbrev Handle := Fin nnodes

/-- A handle field: `none` is `NIL` (10_state R23; log entry 8). -/
abbrev Link := Option Handle

/-- The kind of a slot with what only that kind carries (10_state R23, R24, 40_tree R120; log entry 7). -/
inductive Kind where
  /-- `FREE`: the slot is not in the tree. -/
  | free
  /-- `INTERNAL` with its `LEFT` (branch bit 0) and `RIGHT` (branch bit 1) children. -/
  | internal (left right : Handle)
  /-- `LEAF`: a leaf bound to one symbol. -/
  | leaf (sym : Byte)
  /-- `NYT`: the not-yet-transmitted leaf. -/
  | nyt
  deriving DecidableEq, Repr

/-- One slot of the node arena (10_state R23). -/
structure Node where
  kind : Kind
  /-- `WEIGHT`, at most `WMAX` (40_tree R139; log entry 9). -/
  weight : Nat
  /-- `KEY`, at most 768 (40_tree R126; log entry 9). -/
  key : Nat
  parent : Link
  deriving DecidableEq, Repr

/-- One entry of the swap log: the walked node and the node it was swapped with (10_state R32). -/
structure SwapEntry where
  n : Link
  m : Link
  deriving DecidableEq, Repr

/-- The fault codes a fault can record (30_encoding R98, 60_exceptions R245). -/
inductive FaultCode where
  | srcIo | snkIo | trunc | duplit | wovf | internal
  deriving DecidableEq, Repr

/-- The engine's registers (10_state). `ROOT` is hard-wired 0 and has no field (10_state R26; `ROOT` in Machine/Tree). -/
structure Engine where
  /-- The node arena (R23). -/
  nodes : Vector Node nnodes
  /-- `NYTH` (R27). -/
  nyth : Handle
  /-- `NSYM`, 0 to 256 (R28). -/
  nsym : Nat
  /-- `KEYLAST`, 0 to 768 (R29). -/
  keylast : Nat
  /-- `LOOKUP`: `none` is `VALID` = 0 with `HANDLE` = `NIL` (R30). -/
  lookup : Vector Link nsymbols
  /-- `PATHLEN`, 0 to 256 (R31). -/
  pathlen : Nat
  /-- `PATH` (R31). -/
  path : Vector Bool pathMax
  /-- `SWAPCNT`, 0 to 512 (R32). -/
  swapcnt : Nat
  /-- `SWAPLOG` (R32). -/
  swaplog : Vector SwapEntry swaplogN
  /-- `WBUF` (R33). -/
  wbuf : BitVec 8
  /-- `WCNT`, 0 to 7 (R33). -/
  wcnt : Nat
  /-- `CLOSED` (R33). -/
  closed : Bool
  /-- `RBUF` (R34). -/
  rbuf : BitVec 8
  /-- `RCNT`, 0 to 8 (R34). -/
  rcnt : Nat
  /-- `SRC_EOF` (R34). -/
  srcEof : Bool
  /-- `FAULT`: `none` is 0 (R35). -/
  fault : Option FaultCode
  /-- `LASTRSP` (R36). -/
  lastrsp : Word
  deriving DecidableEq, Repr

/-- What the byte source answers to one `SrcRead` (20_memory R67). -/
inductive SrcAnswer where
  | byte (v : Byte)
  | eof
  | err
  /-- The source never answers this read (R67: the engine is stuck). -/
  | never
  deriving DecidableEq, Repr

/-- What the byte sink answers to one `SnkWrite` or `SnkClose` (20_memory R69, R70). -/
inductive SnkAnswer where
  | ok
  | err
  /-- The sink never answers. `kept` says whether it took what was offered all the same
  (70_reset_and_hazards R271: that is up to the agent). -/
  | never (kept : Bool)
  deriving DecidableEq, Repr

/-- What the sink has taken (20_memory R69, R70). -/
inductive SinkEvent where
  | byte (v : Byte)
  | close
  deriving DecidableEq, Repr

/-- What the host, and the reset input, do next (20_memory R20, R60; 30_encoding R107; 70_reset_and_hazards R270, R271). -/
inductive HostAction where
  /-- Present a command word on the command port, and take its response. -/
  | command (w : Word)
  /-- Read a word of the query space. -/
  | query (a : QAddr)
  /-- Read a word of the query space while a command is in flight (20_memory R76). -/
  | queryInFlight (a : QAddr)
  /-- Assert and release `rst`. -/
  | reset
  /-- Present a command word, and assert `rst` while that command is in flight (70_reset_and_hazards R271; log entry 6). -/
  | resetDuring (w : Word)
  /-- Connect a byte source (30_encoding R107 `SRC`, 70_reset_and_hazards R273). -/
  | attachSource (answers : List SrcAnswer)
  /-- Connect a byte sink that has received nothing (70_reset_and_hazards R273). -/
  | attachSink (answers : List SnkAnswer)
  deriving DecidableEq, Repr

/-- Whether a command is held in flight by an agent that has not answered (20_memory R62, R67, R69, 60_exceptions R262). -/
inductive PortStatus where
  | idle
  | waitingSource
  | waitingSink
  deriving DecidableEq, Repr

/-- The ports and the agents behind them (20_memory R60, R61). Neither `INIT` nor reset reaches the agents
(45_control R231, 70_reset_and_hazards R272). -/
structure Ports where
  /-- The host's coming actions, next one first (log entry 2). -/
  host : List HostAction
  status : PortStatus
  /-- The source's coming answers; when none is left it answers `End` (log entry 1). -/
  source : List SrcAnswer
  /-- The sink's coming answers; when none is left it answers `Ok` (log entry 1). -/
  sinkAnswers : List SnkAnswer
  /-- The sink stream, oldest first (R61). -/
  sink : List SinkEvent
  /-- The responses the host has taken, oldest first (R60; log entry 12). -/
  responses : List Word
  /-- The words the host has read from the query space, oldest first (R60; log entry 12). -/
  queryData : List Word
  /-- How many free query values have been drawn (the model's own; log entry 5). -/
  draws : Nat
  deriving DecidableEq, Repr

/-- The machine: its configuration, its registers, and its ports. -/
structure State where
  /-- `W` (00_scope R8); no step changes it (log entry 4). -/
  width : WeightWidth
  eng : Engine
  ports : Ports
  deriving DecidableEq, Repr

/-- A slot that the tree does not use yet (10_state R40). -/
def Node.reset : Node := { kind := .free, weight := 0, key := 0, parent := none }

/-- The reset NYT, which is the root (10_state R40). -/
def Node.resetNyt : Node := { kind := .nyt, weight := 0, key := key0, parent := none }

/-- Every register at its reset value (10_state R40). -/
def Engine.reset : Engine where
  nodes := (Vector.replicate nnodes Node.reset).set 0 Node.resetNyt
  nyth := 0
  nsym := 0
  keylast := key0
  lookup := Vector.replicate nsymbols none
  pathlen := 0
  path := Vector.replicate pathMax false
  swapcnt := 0
  swaplog := Vector.replicate swaplogN { n := none, m := none }
  wbuf := 0#8
  wcnt := 0
  closed := false
  rbuf := 0#8
  rcnt := 0
  srcEof := false
  fault := none
  lastrsp := 0#32

/-- Idle ports, a host that asks nothing, an exhausted source, and an empty sink that accepts (log entries 1, 2, 12). -/
def Ports.reset : Ports where
  host := []
  status := .idle
  source := []
  sinkAnswers := []
  sink := []
  responses := []
  queryData := []
  draws := 0

/-- The machine right after reset (10_state R40, 70_reset_and_hazards R270), with the conforming `W` (00_scope R8). -/
def State.reset : State where
  width := conformingWidth
  eng := Engine.reset
  ports := Ports.reset

end Sys2Proof.Machine
end

