-- ==== Sys2Proof/Machine/Flags.lean ====
section
/-! DEFINITION. The status codes and the response word (30_encoding R97 to R99), and the status bits (10_state R37). -/

namespace Sys2Proof.Machine

/-- The status codes of 30_encoding R98. The reserved codes 0x6, 0x7, 0xE and 0xF have no constructor: they are never returned. -/
inductive Code where
  | ok | eos
  | errIllegal | errFaulted | errClosed | errNosym
  | fault (c : FaultCode)
  deriving DecidableEq, Repr

/-- The number of a fault code (30_encoding R98). -/
def FaultCode.bits : FaultCode → BitVec 4
  | .srcIo => 0x8#4
  | .snkIo => 0x9#4
  | .trunc => 0xA#4
  | .duplit => 0xB#4
  | .wovf => 0xC#4
  | .internal => 0xD#4

/-- The number of a status code (30_encoding R98). -/
def Code.bits : Code → BitVec 4
  | .ok => 0x0#4
  | .eos => 0x1#4
  | .errIllegal => 0x2#4
  | .errFaulted => 0x3#4
  | .errClosed => 0x4#4
  | .errNosym => 0x5#4
  | .fault c => c.bits

/-- The response word of 30_encoding R97: `LIT` in bit 21, `LEN` in bits 20:12, `DATA` in bits 11:4, `CODE` in bits 3:0. -/
def responseWord (code : Code) (data : Byte) (len : Nat) (lit : Bool) : Word :=
  0#10 ++ BitVec.ofBool lit ++ BitVec.ofNat 9 len ++ data ++ code.bits

/-- The `FAULT` register as 4 bits (10_state R35). -/
def faultBits : Option FaultCode → BitVec 4
  | none => 0#4
  | some c => c.bits

end Sys2Proof.Machine
end

