-- ==== Sys2Proof/Machine/Operands.lean ====
section
/-! DEFINITION. The operands of the commands: the byte of `SYM`, used as it stands (30_encoding R92, R100), its bits as the
literal escape sends them (20_memory R65), and the bits of a stream byte in the order they travel (20_memory R63). -/

namespace Sys2Proof.Machine

/-- The bits of a byte, most significant first: the literal escape (20_memory R65), and the order of the bits of a byte on
the wire (20_memory R63). -/
def msbBits (b : Byte) : List Bool :=
  [b.getLsbD 7, b.getLsbD 6, b.getLsbD 5, b.getLsbD 4, b.getLsbD 3, b.getLsbD 2, b.getLsbD 1, b.getLsbD 0]

/-- `{v[6:0], x}`: a byte shifted left with a bit put in at the bottom (41_bitstream R160, 43_decoder R190). -/
def shiftIn (v : Byte) (x : Bool) : Byte := v.extractLsb' 0 7 ++ BitVec.ofBool x

/-- The byte that bits read most significant first make (43_decoder R190, R192). -/
def byteOfBits (bits : List Bool) : Byte := bits.foldl shiftIn 0#8

end Sys2Proof.Machine
end

