-- ==== Sys2Proof/Machine/Ops.lean ====
section
/-! DEFINITION. The operations every command shares: ending a command (00_scope R14), the prologue (60_exceptions R241),
raising a fault (60_exceptions R244), the source and sink transactions (20_memory R67 to R72), and the bit writer and reader
(41_bitstream). -/

namespace Sys2Proof.Machine

open Sys2Proof.Config

/-- The outcome of a command. -/
abbrev Result := Host.Outcome State Fault Refusal

/-! Updates of the registers and of the ports -/

/-- The state with other registers. -/
def State.withEng (s : State) (e : Engine) : State := { s with eng := e }

/-- The state with other ports. -/
def State.withPorts (s : State) (p : Ports) : State := { s with ports := p }

/-! Ending a command -/

/-- Give a response word: `LASTRSP` holds it and the host takes it (10_state R36, 20_memory R77). -/
def complete (r : Word) (s : State) : State :=
  { s with
    eng := { s.eng with lastrsp := r }
    ports := { s.ports with responses := s.ports.responses ++ [r] } }

/-- `respond(code, data, len, lit)` (00_scope R14). -/
def respond (code : Code) (data : Byte) (len : Nat) (lit : Bool) (s : State) : State :=
  complete (responseWord code data len lit) s

/-- `reject(code)`: the code is returned and nothing is recorded (00_scope R14, 60_exceptions R243). -/
def reject (code : Code) (s : State) : State := respond code 0#8 0 false s

/-- `raise Fault(code)`: the code is recorded in `FAULT` and returned; effects already made stay made
(00_scope R14, 60_exceptions R244). Fault entry saves nothing and transfers control nowhere (R254). -/
def raise (c : FaultCode) (s : State) : State :=
  respond (.fault c) 0#8 0 false { s with eng := { s.eng with fault := some c } }

/-- The second line of `Prologue()`: with a fault recorded, a command other than `NOP` and `INIT` is refused
(60_exceptions R241). The first line, legality, is `runCommand`'s (Machine/Step). -/
def prologue (s : State) (body : Result) : Result :=
  if s.eng.fault.isSome then .next (reject .errFaulted s) else body

/-- How a procedure that uses the streams ends: with a value, in a fault to raise, or waiting for ever on an agent
(20_memory R67, R69). -/
inductive Res (α : Type) where
  | ok (a : α) (s : State)
  | raised (c : FaultCode) (s : State)
  | blocked (s : State)
  deriving Repr

/-- Go on after a procedure. A fault ends the command (60_exceptions R244); a wait that never ends leaves the state as the
command left it so far, with no response (93_implementation_defined item 6). -/
def Res.settle {α : Type} (r : Res α) (k : α → State → Result) : Result :=
  match r with
  | .ok a s => k a s
  | .raised c s => .next (raise c s)
  | .blocked s => .next s

/-- Run one procedure after another. -/
def Res.andThen {α β : Type} (r : Res α) (k : α → State → Res β) : Res β :=
  match r with
  | .ok a s => k a s
  | .raised c s => .raised c s
  | .blocked s => .blocked s

/-! The source and sink transactions -/

/-- What `SrcRead()` returns (00_scope R13). -/
inductive SrcResult where
  | byte (v : Byte)
  | eof
  | err
  deriving DecidableEq, Repr

/-- The ports with a command left waiting. -/
def State.wait (s : State) (st : PortStatus) : State := { s with ports := { s.ports with status := st } }

/-- `SrcRead()` takes the next item from the byte source (20_memory R67, R72). -/
def srcRead (s : State) : Res SrcResult :=
  match s.ports.source with
  | [] => .ok .eof s
  | a :: rest =>
    let t := { s with ports := { s.ports with source := rest } }
    match a with
    | .byte v => .ok (.byte v) t
    | .eof => .ok .eof t
    | .err => .ok .err t
    | .never => .blocked (t.wait .waitingSource)

/-- One transaction on the sink port: `ev` is offered, and is part of the sink stream once the sink answers `Ok`
(20_memory R69, R70, R72). `Err` is raised as `FAULT_SNK_IO` by both callers (20_memory R71, 60_exceptions R247). A byte
answered `Err` is not part of the output stream (20_memory R69); that a close notification answered `Err` is not recorded
either is the model's choice (93_implementation_defined item 8 leaves it to the agent: DESIGN CHOICE, log entry 17). -/
def sinkOffer (ev : SinkEvent) (s : State) : Res Unit :=
  match s.ports.sinkAnswers with
  | [] => .ok () { s with ports := { s.ports with sink := s.ports.sink ++ [ev] } }
  | a :: rest =>
    let t := { s with ports := { s.ports with sinkAnswers := rest } }
    match a with
    | .ok => .ok () { t with ports := { t.ports with sink := t.ports.sink ++ [ev] } }
    | .err => .raised .snkIo t
    | .never kept =>
      .blocked ({ t with ports := { t.ports with sink := if kept then t.ports.sink ++ [ev] else t.ports.sink } }.wait
        .waitingSink)

/-! The bit writer -/

/-- The registers with an empty writer buffer. -/
def Engine.clearWriter (e : Engine) : Engine := { e with wbuf := 0#8, wcnt := 0 }

/-- `WriteBit(x)` (41_bitstream R160): the eighth bit offers the byte, after the buffer has been emptied (R162). -/
def writeBit (x : Bool) (s : State) : Res Unit :=
  if s.eng.wcnt = 7 then
    sinkOffer (.byte (shiftIn s.eng.wbuf x)) (s.withEng s.eng.clearWriter)
  else
    .ok () (s.withEng { s.eng with wbuf := shiftIn s.eng.wbuf x, wcnt := s.eng.wcnt + 1 })

/-- `WriteBit` of each bit in order (42_encoder R180). -/
def writeBits : List Bool → State → Res Unit
  | [], s => .ok () s
  | x :: xs, s => (writeBit x s).andThen fun _ t => writeBits xs t

/-- `Close()` (41_bitstream R163): returns the bytes emitted and the padding bits. -/
def closeWriter (s : State) : Res (Nat × Nat) :=
  if 0 < s.eng.wcnt then
    let pad := 8 - s.eng.wcnt
    (sinkOffer (.byte (s.eng.wbuf <<< pad)) (s.withEng s.eng.clearWriter)).andThen fun _ t =>
      (sinkOffer .close t).andThen fun _ u => .ok (1, pad) (u.withEng { u.eng with closed := true })
  else
    (sinkOffer .close s).andThen fun _ u => .ok (0, 0) (u.withEng { u.eng with closed := true })

/-! The bit reader -/

/-- The last two lines of `ReadBit()`: serve the next buffered bit (41_bitstream R165). -/
def serveBit (s : State) : Res (Option Bool) :=
  .ok (some (s.eng.rbuf.getLsbD (s.eng.rcnt - 1))) (s.withEng { s.eng with rcnt := s.eng.rcnt - 1 })

/-- `ReadBit()` (41_bitstream R165 to R167): a bit, or `none` at the end of input. -/
def readBit (s : State) : Res (Option Bool) :=
  if s.eng.rcnt = 0 then
    if s.eng.srcEof then .ok none s
    else
      (srcRead s).andThen fun r t =>
        match r with
        | .err => .raised .srcIo t
        | .eof => .ok none (t.withEng { t.eng with srcEof := true })
        | .byte v => serveBit (t.withEng { t.eng with rbuf := v, rcnt := 8 })
  else serveBit s

end Sys2Proof.Machine
end

