-- ==== Sys2Proof/Machine/Control.lean ====
section
/-! DEFINITION. The control commands `NOP` and `INIT` (45_control), and the reset input (70_reset_and_hazards R270, R271). -/

namespace Sys2Proof.Machine

/-- `NOP` (45_control R230): runs even when a fault is recorded. -/
def execNop (s : State) : Result := .next (respond .ok 0#8 0 false s)

/-- `ResetState()`: every register to its reset value (45_control R231). -/
def resetState (s : State) : State := s.withEng Engine.reset

/-- `INIT` (45_control R231): runs even when a fault is recorded; the agents are not reached. -/
def execInit (s : State) : Result := .next (respond .ok 0#8 0 false (resetState s))

/-- The reset input `rst`: every register to its reset value, a command in flight abandoned, and the engine idle; the agents
are not reached and no response is given (70_reset_and_hazards R270, R271, R272). -/
def resetInput (s : State) : State := (resetState s).wait .idle

end Sys2Proof.Machine
end

