-- ==== Sys2Proof/Machine/Tree.lean ====
section
/-! DEFINITION. The adaptive tree and the FGK update (40_tree): relations of a node, paths, membership, `Split`, `Candidate`,
`Swap`, `Walk`, `LogSwap`, `UpdateTree` and `CheckRoom`. -/

namespace Sys2Proof.Machine

open Sys2Proof.Config

/-- `ROOT`, hard-wired 0 (10_state R26). -/
def ROOT : Handle := 0

/-! Reading and writing the arena -/

/-- The slot of a handle (00_scope R12). -/
def Engine.node (e : Engine) (h : Handle) : Node := e.nodes.get h

/-- The registers with another slot `h` (00_scope R12). -/
def Engine.setNode (e : Engine) (h : Handle) (nd : Node) : Engine := { e with nodes := e.nodes.set h.val nd h.isLt }

/-- `node[h].SYM`: the symbol of a leaf, 0 for every other kind (10_state R23). -/
def Node.sym (nd : Node) : Byte :=
  match nd.kind with
  | .leaf b => b
  | .free | .internal _ _ | .nyt => 0#8

/-- `node[h].LEFT`: `NIL` unless the kind is `INTERNAL` (10_state R23). -/
def Node.left (nd : Node) : Link :=
  match nd.kind with
  | .internal l _ => some l
  | .free | .leaf _ | .nyt => none

/-- `node[h].RIGHT`: `NIL` unless the kind is `INTERNAL` (10_state R23). -/
def Node.right (nd : Node) : Link :=
  match nd.kind with
  | .internal _ r => some r
  | .free | .leaf _ | .nyt => none

/-- A slot is in the tree iff its kind is not `FREE` (40_tree R122). -/
def Node.inTree (nd : Node) : Bool := nd.kind != .free

/-- The slots with their handles, in handle order: `for each handle x, 0 ≤ x ≤ 512` (40_tree R133). -/
def Engine.slots (e : Engine) : List (Handle × Node) := (List.finRange nnodes).zip e.nodes.toList

/-! Relations of a node (40_tree R124) -/

/-- `Parent(Parent(...))` as a list, nearest first, climbing at most `k` links. -/
def Engine.climb (e : Engine) : Nat → Handle → List Handle
  | 0, _ => []
  | k + 1, h =>
    match (e.node h).parent with
    | none => []
    | some p => p :: e.climb k p

/-- `Ancestors(n)`: a climb of as many links as there are slots meets every ancestor (40_tree R124). -/
def Engine.ancestors (e : Engine) (n : Handle) : List Handle := e.climb nnodes n

/-- `Sibling(n)`: the other child of `Parent(n)`, `NIL` for the root (40_tree R124). -/
def Engine.sibling (e : Engine) (n : Handle) : Link :=
  match (e.node n).parent with
  | none => none
  | some p => if (e.node p).left = some n then (e.node p).right else (e.node p).left

/-! Paths and membership -/

/-- The loop of `PathTo` (40_tree R127), climbing at most `k` links; `acc` is the path below `h`. -/
def Engine.pathUp (e : Engine) : Nat → Handle → List Bool → List Bool
  | 0, _, acc => acc
  | k + 1, h, acc =>
    match (e.node h).parent with
    | none => acc
    | some p => e.pathUp k p (((e.node p).right == some h) :: acc)

/-- `PathTo(h)`, root first, `true` for "descend right" (40_tree R127). No path is longer than `PATHMAX` (R128), so the
climb stops there (log entry 10). -/
def Engine.pathTo (e : Engine) (h : Handle) : List Bool := e.pathUp pathMax h []

/-- `LOOKUP[b]` (10_state R30). -/
def Engine.leafOf (e : Engine) (b : Byte) : Link := e.lookup.get b.toFin

/-- `Contains(b)` (40_tree R129). -/
def Engine.contains (e : Engine) (b : Byte) : Bool := (e.leafOf b).isSome

/-- The node whose path codes `b`: its leaf, else the NYT (30_encoding R102, 42_encoder R180). -/
def Engine.codeNode (e : Engine) (b : Byte) : Handle := (e.leafOf b).getD e.nyth

/-- The literal part of `b`'s codeword: its bits when `b` has no leaf, else nothing (30_encoding R102). -/
def Engine.escape (e : Engine) (b : Byte) : List Bool := if e.contains b then [] else msbBits b

/-- `Codeword_T(b)` (30_encoding R102). -/
def Engine.codeword (e : Engine) (b : Byte) : List Bool := e.pathTo (e.codeNode b) ++ e.escape b

/-- `PATH[i] <- p[i]` for each `i`; the cells from `|p|` on keep their values (10_state R31). -/
def overlay (p : List Bool) (cells : Vector Bool pathMax) : Vector Bool pathMax :=
  Vector.mk (Array.mk ((p ++ cells.toList.drop p.length).take pathMax)) (by simp; omega)

/-- `PATHLEN <- |p|` and `PATH[i] <- p[i]` (42_encoder R180, 43_decoder R190, 44_query R211, R212). -/
def Engine.recordPath (e : Engine) (p : List Bool) : Engine :=
  { e with pathlen := p.length, path := overlay p e.path }

/-! The update -/

/-- A slot number computed by `Split`, as a handle (40_tree R131). With at most 255 symbols before the split it is at most 512. -/
def slot (k : Nat) : Handle := Fin.ofNat nnodes k

/-- `Split(b)` (40_tree R131, R132): the registers after it, and the new leaf. -/
def Engine.split (e : Engine) (b : Byte) : Engine × Handle :=
  let i := e.nyth
  let y := slot (2 * e.nsym + 1)
  let l := slot (2 * e.nsym + 2)
  let internal := { e.node i with kind := .internal y l, key := e.keylast - 1 }
  let nyt : Node := { kind := .nyt, weight := 0, key := e.keylast - 2, parent := some i }
  let leaf : Node := { kind := .leaf b, weight := 0, key := e.keylast - 3, parent := some i }
  ({ ((e.setNode i internal).setNode y nyt).setNode l leaf with
      keylast := e.keylast - 3
      nsym := e.nsym + 1
      nyth := y
      lookup := e.lookup.set b.toNat (some l) b.isLt }, l)

/-- The tests of `Candidate`'s loop that do not look at keys: `x` is in the tree, has the weight of `n`, and is none of `n`,
the root, the sibling and an ancestor of `n` (40_tree R133). -/
def Engine.eligible (e : Engine) (n x : Handle) (nd : Node) : Bool :=
  nd.inTree && nd.weight == (e.node n).weight && x != n && x != ROOT && some x != e.sibling n && !(e.ancestors n).contains x

/-- The loop of `Candidate` over slots, carrying `best` and `node[best].KEY` (40_tree R133). -/
def Engine.bestOf (e : Engine) (n : Handle) : List (Handle × Node) → Handle × Nat → Handle × Nat
  | [], best => best
  | (x, nd) :: rest, best =>
    if e.eligible n x nd && decide (best.2 < nd.key) then e.bestOf n rest (x, nd.key) else e.bestOf n rest best

/-- `Candidate(n)` (40_tree R133). -/
def Engine.candidate (e : Engine) (n : Handle) : Link :=
  let best := e.bestOf n e.slots (n, (e.node n).key)
  if best.1 = n then none else some best.1

/-- The node with the child `n` replaced by `m`: `if LEFT = n then LEFT <- m else RIGHT <- m` (40_tree R134). -/
def Node.replaceChild (nd : Node) (n m : Handle) : Node :=
  match nd.kind with
  | .internal l r => { nd with kind := if l = n then .internal m r else .internal l m }
  | .free | .leaf _ | .nyt => nd

/-- The precondition of `Swap` (40_tree R134): neither node is the root, neither is an ancestor of the other, and they are
not siblings. -/
def Engine.swappable (e : Engine) (n m : Handle) : Bool :=
  n != ROOT && m != ROOT && !(e.ancestors n).contains m && !(e.ancestors m).contains n
    && (e.node n).parent != (e.node m).parent

/-- `Swap(n, m)` (40_tree R134): `none` when the precondition fails. Only the root has no parent (R124), so a node without
one fails it as the root does (log entry 11). -/
def Engine.swap (e : Engine) (n m : Handle) : Option Engine :=
  match (e.node n).parent, (e.node m).parent with
  | some pn, some pm =>
    if e.swappable n m then
      let e1 := e.setNode pn ((e.node pn).replaceChild n m)
      let e2 := e1.setNode pm ((e1.node pm).replaceChild m n)
      let nn := e2.node n
      let nm := e2.node m
      let e3 := e2.setNode n { nn with parent := some pm, key := nm.key }
      some (e3.setNode m { nm with parent := some pn, key := nn.key })
    else none
  | _, _ => none

/-- How a tree procedure ends: done, or in `FAULT_INTERNAL` with the tree as it is then (60_exceptions R251). -/
inductive TreeRes where
  | done (e : Engine)
  | internal (e : Engine)
  deriving Repr

/-- `LogSwap(n, m)` (40_tree R136). -/
def Engine.logSwap (e : Engine) (n m : Handle) : TreeRes :=
  if h : e.swapcnt < swaplogN then
    .done { e with swaplog := e.swaplog.set e.swapcnt { n := some n, m := some m } h, swapcnt := e.swapcnt + 1 }
  else .internal e

/-- The first lines of the loop of `Walk`: swap with the candidate, if there is one, and log it (40_tree R135). -/
def Engine.rebalance (e : Engine) (n : Handle) : TreeRes :=
  match e.candidate n with
  | none => .done e
  | some m =>
    match e.swap n m with
    | none => .internal e
    | some e1 => e1.logSwap n m

/-- `node[n].WEIGHT <- node[n].WEIGHT + 1` (40_tree R135). -/
def Engine.increment (e : Engine) (n : Handle) : Engine :=
  e.setNode n { e.node n with weight := (e.node n).weight + 1 }

/-- Go on after a tree procedure, unless it ended in `FAULT_INTERNAL`. -/
def TreeRes.andThen (r : TreeRes) (k : Engine → TreeRes) : TreeRes :=
  match r with
  | .done e => k e
  | .internal e => .internal e

/-- `Walk(n)` (40_tree R135), at most `k` nodes. It ends after the root ("root has no parent"). -/
def Engine.walk : Nat → Engine → Handle → TreeRes
  | 0, e, _ => .internal e
  | k + 1, e, n =>
    (e.rebalance n).andThen fun e1 =>
      let e2 := e1.increment n
      if n = ROOT then .done e2
      else
        match (e2.node n).parent with
        | none => .done e2
        | some p => Engine.walk k e2 p

/-- More nodes than any walk of a tree visits: between two of the at most 512 swaps (40_tree R136) a walk climbs through
distinct slots (log entry 11). -/
def walkBound : Nat := nnodes * (nnodes + 1)

/-- The first line and the split-or-lookup branch of `UpdateTree(b)`: where the walk starts (40_tree R130). -/
def Engine.walkStart (e : Engine) (b : Byte) : Engine × Handle :=
  let e0 := { e with swapcnt := 0 }
  match e0.leafOf b with
  | none => e0.split b
  | some n => (e0, n)

/-- `UpdateTree(b)` (40_tree R130). -/
def Engine.updateTree (e : Engine) (b : Byte) : TreeRes :=
  let start := e.walkStart b
  start.1.walk walkBound start.2

/-- `UpdateTree(b)` inside a command: `FAULT_INTERNAL` ends the command (60_exceptions R251). -/
def updateTree (b : Byte) (s : State) : Res Unit :=
  match s.eng.updateTree b with
  | .done e => .ok () (s.withEng e)
  | .internal e => .raised .internal (s.withEng e)

/-- `CheckRoom()` before the body of a command (40_tree R139): with the root at `WMAX` nothing is changed but `FAULT` and
`LASTRSP` (60_exceptions R250). -/
def checkRoom (s : State) (body : Result) : Result :=
  if (s.eng.node ROOT).weight = wmax s.width then .next (raise .wovf s) else body

end Sys2Proof.Machine
end

