-- ==== Sys2Proof/Machine/Decoder.lean ====
section
/-! DEFINITION. The decoder command `DEC` (43_decoder). -/

namespace Sys2Proof.Machine

open Sys2Proof.Config

/-- How the descent of one `DEC` ends: at a leaf with the bits read, or at the end of input (43_decoder R190). -/
inductive Descent where
  | reached (n : Handle) (q : List Bool)
  | ended (q : List Bool)
  deriving DecidableEq, Repr

/-- The descent (43_decoder R190, R191), at most `k` levels below `n`; `q` is the path part read so far. -/
def descend : Nat → Handle → List Bool → State → Res Descent
  | 0, n, q, s => .ok (.reached n q) s
  | k + 1, n, q, s =>
    match (s.eng.node n).kind with
    | .internal l r =>
      (readBit s).andThen fun t u =>
        match t with
        | none => .ok (.ended q) u
        | some x => descend k (if x then r else l) (q ++ [x]) u
    | .free | .leaf _ | .nyt => .ok (.reached n q) s

/-- The bits of a literal as far as they were read, and whether all were (43_decoder R192). -/
structure LiteralBits where
  bits : List Bool
  complete : Bool
  deriving DecidableEq, Repr

/-- Read `k` more bits; `v` are those read so far (43_decoder R190, R192). -/
def readLiteral : Nat → List Bool → State → Res LiteralBits
  | 0, v, s => .ok { bits := v, complete := true } s
  | k + 1, v, s =>
    (readBit s).andThen fun t u =>
      match t with
      | none => .ok { bits := v, complete := false } u
      | some x => readLiteral k (v ++ [x]) u

/-- `ENDED`: the end of input (43_decoder R196). `r0` are the bits buffered at the start of the attempt, `consumed` the bits
it has consumed, so that `c` is their number and `ones` whether one of them is 1 (R195). -/
def endOfInput (r0 : Nat) (consumed : List Bool) (s : State) : Result :=
  if consumed.length = r0 ∧ consumed.all (!·) then .next (respond .eos 0#8 consumed.length false s)
  else .next (raise .trunc s)

/-- The last lines of `DEC`: record the path, update the tree, respond (43_decoder R190, R194). -/
def finishDecode (sym : Byte) (q : List Bool) (len : Nat) (lit : Bool) (s : State) : Result :=
  (updateTree sym (s.withEng (s.eng.recordPath q))).settle fun _ u => .next (respond .ok sym len lit u)

/-- After the descent has reached a leaf: the literal at the NYT (43_decoder R192, R193), else the leaf's symbol. -/
def decodeAt (r0 : Nat) (n : Handle) (q : List Bool) (s : State) : Result :=
  if (s.eng.node n).kind = .nyt then
    (readLiteral 8 [] s).settle fun v t =>
      if v.complete then
        if t.eng.contains (byteOfBits v.bits) then .next (raise .duplit t)
        else finishDecode (byteOfBits v.bits) q (q.length + v.bits.length) true t
      else endOfInput r0 (q ++ v.bits) t
  else finishDecode (s.eng.node n).sym q q.length false s

/-- `DEC` (43_decoder R190). `CLOSED` is not read (R201). -/
def execDec (s : State) : Result :=
  prologue s <| checkRoom s <|
    (descend pathMax ROOT [] s).settle fun d t =>
      match d with
      | .ended q => endOfInput s.eng.rcnt q t
      | .reached n q => decodeAt s.eng.rcnt n q t

end Sys2Proof.Machine
end

