-- ==== Sys2Proof/Machine/Encoder.lean ====
section
/-! DEFINITION. The encoder command `ENC` (42_encoder). -/

namespace Sys2Proof.Machine

/-- `ENC b` (42_encoder R180). The one existence check (R185) is `Engine.contains`, read before any tree change: it chooses
the codeword's form and `LIT`. -/
def execEnc (b : Byte) (s : State) : Result :=
  prologue s <|
    if s.eng.closed then .next (reject .errClosed s)
    else checkRoom s <|
      let p := s.eng.pathTo (s.eng.codeNode b)
      let literal := s.eng.escape b
      (writeBits (p ++ literal) (s.withEng (s.eng.recordPath p))).settle fun _ t =>
        (updateTree b t).settle fun _ u =>
          .next (respond .ok b (p.length + literal.length) (!s.eng.contains b) u)

end Sys2Proof.Machine
end

