-- ==== Sys2Proof/Machine/Query.lean ====
section
/-! DEFINITION. The query commands `CONTAINS`, `PATHSYM` and `PATHNYT`, and the query space (44_query). -/

namespace Sys2Proof.Machine

open Sys2Proof.Config

/-- `CONTAINS b` (44_query R210). -/
def execContains (b : Byte) (s : State) : Result :=
  prologue s <| .next (respond .ok (BitVec.setWidth 8 (BitVec.ofBool (s.eng.contains b))) 0 false s)

/-- The end of a path command: record the path and return its length (44_query R211, R212). -/
def answerPath (p : List Bool) (s : State) : State :=
  respond .ok 0#8 p.length false (s.withEng (s.eng.recordPath p))

/-- `PATHSYM b` (44_query R211). -/
def execPathsym (b : Byte) (s : State) : Result :=
  prologue s <|
    match s.eng.leafOf b with
    | none => .next (reject .errNosym s)
    | some h => .next (answerPath (s.eng.pathTo h) s)

/-- `PATHNYT` (44_query R212). -/
def execPathnyt (s : State) : Result :=
  prologue s <| .next (answerPath (s.eng.pathTo s.eng.nyth) s)

/-! The query space -/

/-- A handle field as 10 bits: `NIL` reads 0x3FF (10_state R23, 44_query R217). -/
def linkBits : Link → BitVec 10
  | none => 0x3FF#10
  | some h => BitVec.ofNat 10 h.val

/-- The `KIND` field as 2 bits (10_state R23). -/
def kindBits : Kind → BitVec 2
  | .free => 0#2
  | .internal _ _ => 1#2
  | .leaf _ => 2#2
  | .nyt => 3#2

/-- Word `f` of a slot (44_query R215 to R218). -/
def nodeWord (nd : Node) (f : Nat) : Word :=
  match f with
  | 0 => BitVec.ofNat 32 nd.weight
  | 1 => kindBits nd.kind ++ 0#12 ++ nd.sym ++ BitVec.ofNat 10 nd.key
  | 2 => 0#2 ++ linkBits nd.parent ++ linkBits nd.left ++ linkBits nd.right
  | _ => 0#32

/-- A symbol lookup entry (44_query R219). -/
def lookupWord (l : Link) : Word := BitVec.ofBool l.isSome ++ 0#21 ++ linkBits l

/-- `PATHj`: bit 31 − k is `PATH[32·j + k]` (44_query R220). -/
def pathWord (cells : Vector Bool pathMax) (j : Nat) : Word :=
  BitVec.ofBoolListBE ((cells.toList.drop (32 * j)).take 32) |>.setWidth 32

/-- A swap log entry (44_query R221). -/
def swapWord (x : SwapEntry) : Word := 0#6 ++ linkBits x.n ++ 0#6 ++ linkBits x.m

/-- `STATUS` (44_query R222). -/
def statusWord (e : Engine) : Word :=
  0#26 ++ BitVec.ofBool e.srcEof ++ BitVec.ofBool e.closed ++ faultBits e.fault

/-- `TREE` (44_query R223). -/
def treeWord (e : Engine) : Word :=
  0#3 ++ BitVec.ofNat 9 e.nsym ++ linkBits (some e.nyth) ++ linkBits (some ROOT)

/-- `WRITER` (44_query R225). -/
def writerWord (e : Engine) : Word := 0#21 ++ BitVec.ofNat 3 e.wcnt ++ e.wbuf

/-- `READER` (44_query R225). -/
def readerWord (e : Engine) : Word := 0#20 ++ BitVec.ofNat 4 e.rcnt ++ e.rbuf

/-- `ID`: "AHC", revision 1 (44_query R226). -/
def idWord : Word := 0x41484301#32

/-- The register words from 0x1400 on (44_query R222 to R226); 0x1409 is `PARAM` (log entry 14). -/
def registerWord (s : State) (k : Nat) : Word :=
  match k with
  | 0 => statusWord s.eng
  | 1 => treeWord s.eng
  | 2 => BitVec.ofNat 32 s.eng.keylast
  | 3 => BitVec.ofNat 32 s.eng.pathlen
  | 4 => BitVec.ofNat 32 s.eng.swapcnt
  | 5 => writerWord s.eng
  | 6 => readerWord s.eng
  | 7 => s.eng.lastrsp
  | 8 => idWord
  | 9 => BitVec.ofNat 32 s.width.val
  | _ => 0#32

/-- `QRead(a)` (20_memory R64, 44_query R214): the regions of the query space; every other address reads 0 (R227). -/
def qread (s : State) (a : QAddr) : Word :=
  let k := a.toNat
  if h : k < 0x0804 then nodeWord (s.eng.node ⟨k / 4, by show k / 4 < 513; omega⟩) (k % 4)
  else if h : 0x1000 ≤ k ∧ k < 0x1100 then lookupWord (s.eng.lookup[k - 0x1000]'(by show k - 0x1000 < 256; omega))
  else if 0x1100 ≤ k ∧ k < 0x1108 then pathWord s.eng.path (k - 0x1100)
  else if h : 0x1200 ≤ k ∧ k < 0x1400 then swapWord (s.eng.swaplog[k - 0x1200]'(by show k - 0x1200 < 512; omega))
  else if 0x1400 ≤ k then registerWord s (k - 0x1400)
  else 0#32

/-! The host's own path computation (44_query R213) -/

/-- The address of the `LINKS` word of a node (44_query R217). -/
def linksAddr (h : BitVec 10) : QAddr := (4#14 * BitVec.setWidth 14 h) + 2#14

/-- The host computes `path_to(node)` from `LINKS` words alone: it climbs from the node to the root, at most `k` links, and
at each step the bit is 1 iff the node is its parent's `RIGHT` (44_query R213, 40_tree R127). -/
def hostPathUp (s : State) : Nat → BitVec 10 → List Bool → List Bool
  | 0, _, acc => acc
  | k + 1, h, acc =>
    let p := (qread s (linksAddr h)).extractLsb' 20 10
    if p = 0x3FF#10 then acc
    else hostPathUp s k p (((qread s (linksAddr p)).extractLsb' 0 10 == h) :: acc)

/-- The path to a node, as the host computes it (44_query R213). -/
def hostPath (s : State) (h : Handle) : List Bool := hostPathUp s pathMax (linkBits (some h)) []

end Sys2Proof.Machine
end

