-- ==== Sys2Proof/Machine/Stream.lean ====
section
/-! DEFINITION. The stream command `CLOSE` (41_bitstream R164). -/

namespace Sys2Proof.Machine

/-- `CLOSE` (41_bitstream R164). -/
def execClose (s : State) : Result :=
  prologue s <|
    if s.eng.closed then .next (reject .errClosed s)
    else (closeWriter s).settle fun r t => .next (respond .ok (BitVec.ofNat 8 r.1) r.2 false t)

end Sys2Proof.Machine
end

