-- ==== Sys2Proof/Machine/Update.lean ====
section
/-! DEFINITION. The tree command `UPD` (40_tree R143). -/

namespace Sys2Proof.Machine

/-- `UPD b` (40_tree R143). -/
def execUpd (b : Byte) (s : State) : Result :=
  prologue s <| checkRoom s <|
    (updateTree b s).settle fun _ t => .next (respond .ok b 0 (!s.eng.contains b) t)

end Sys2Proof.Machine
end

