-- ==== Sys2Proof/Machine/Dispatch.lean ====
section
/-! DEFINITION. One arm per command (30_encoding R94). -/

namespace Sys2Proof.Machine

/-- What each command does. -/
def exec (i : Instr) (s : State) : Host.Outcome State Fault Refusal :=
  match i with
  | .nop => Sys2Proof.Machine.execNop s
  | .init => Sys2Proof.Machine.execInit s
  | .enc b => Sys2Proof.Machine.execEnc b s
  | .dec => Sys2Proof.Machine.execDec s
  | .close => Sys2Proof.Machine.execClose s
  | .upd b => Sys2Proof.Machine.execUpd b s
  | .contains b => Sys2Proof.Machine.execContains b s
  | .pathsym b => Sys2Proof.Machine.execPathsym b s
  | .pathnyt => Sys2Proof.Machine.execPathnyt s

end Sys2Proof.Machine
end

