-- ==== Sys2Proof/Machine/HostPort.lean ====
section
/-! DEFINITION. What the engine does with one action of the host (20_memory R60, R76, 30_encoding R107, 70_reset_and_hazards
R270, R271): a command word, a query read, the reset input, and the connection of the agents. -/

namespace Sys2Proof.Machine

open Sys2Proof.Config

/-- A command accepted on the command port: the first line of `Prologue()`, legality, and then the command
(60_exceptions R241, 30_encoding R95). -/
def runCommand (w : Word) (s : State) : Result :=
  match decode w with
  | .ok i => exec i s
  | .error _ => .next (reject .errIllegal s)

/-- Give a word to the host on the query port (20_memory R60). -/
def deliverQuery (v : Word) (s : State) : State :=
  { s with ports := { s.ports with queryData := s.ports.queryData ++ [v] } }

/-- A query read while a command is in flight: any value (20_memory R76; log entry 5). -/
def freeQueryRead (a : QAddr) (s : State) : State :=
  { s with
    ports := { s.ports with
      queryData := s.ports.queryData ++ [freeQuery s.ports.draws a]
      draws := s.ports.draws + 1 } }

/-- A query read of the host: the value the state holds when no command is in flight (20_memory R76). -/
def hostQuery (a : QAddr) (s : State) : State :=
  if s.ports.status = .idle then deliverQuery (qread s a) s else freeQueryRead a s

/-- The reset input asserted while the command of a word is in flight (70_reset_and_hazards R271): what the agents gave and
took for it stays given and taken, the registers are the reset ones, and its response is never delivered. -/
def resetInFlight (w : Word) (s : State) : Result :=
  match runCommand w s with
  | .next t => .next (resetInput { t with ports := { t.ports with responses := s.ports.responses } })
  | .fault r => .fault r
  | .refused r => .refused r

/-- Take the first action off the host's list. -/
def State.takeAction (s : State) (rest : List HostAction) : State := { s with ports := { s.ports with host := rest } }

/-- One action of the host, which has been taken off its list in `t`; `s` is the state before. While a command is in flight
`cmd_ready` is 0 and an offered word waits (20_memory R62, R76). -/
def hostAction (act : HostAction) (s t : State) : Result :=
  match act with
  | .command w => if s.ports.status = .idle then runCommand w t else .next s
  | .query a => .next (hostQuery a t)
  | .queryInFlight a => .next (freeQueryRead a t)
  | .reset => .next (resetInput t)
  | .resetDuring w => if s.ports.status = .idle then resetInFlight w t else .next (resetInput t)
  | .attachSource answers => .next { t with ports := { t.ports with source := answers } }
  | .attachSink answers => .next { t with ports := { t.ports with sinkAnswers := answers, sink := [] } }

/-- The bytes the sink holds, in order (20_memory R61). -/
def Ports.sinkBytes (p : Ports) : List Byte :=
  p.sink.filterMap fun
    | .byte v => some v
    | .close => none

/-- The actions a well-formed line of a listing stands for (30_encoding R105 to R107): its commands, or the host's own
action. A line that is not well formed stands for no action and is refused, as the assembler refuses it (DESIGN CHOICE, log
entry 16). -/
def lineActions (l : Line) : Option (List HostAction) :=
  if l.wellFormed then
    match l with
    | .command _ _ | .encb _ | .encs _ | .decn _ => some (l.commands.map fun i => .command (encode i))
    | .qrd a => some [.query (BitVec.ofNat 14 a)]
    | .src bs => some [.attachSource ((bs.map fun o => .byte o.byte) ++ [.eof])]
  else none

end Sys2Proof.Machine
end

