-- ==== Sys2Proof/Machine/Step.lean ====
section
/-! DEFINITION. One step of the machine: the next action of the host (10_state R22: the host is the sequencer). -/

namespace Sys2Proof.Machine

/-- One step: the host's next action; with none, the engine stays idle with all state kept (60_exceptions R262). -/
def step (s : State) : Host.Outcome State Fault Refusal :=
  match s.ports.host with
  | [] => .next s
  | act :: rest => hostAction act s (s.takeAction rest)

/-- The machine about to run a command word: the word stands first in the host's list and the command port is idle
(log entry 2). The bits of the word above `nbits` are 0. -/
def State.withFetchWord (s : State) (nbits w : Nat) : State :=
  { s with
    ports := { s.ports with
      host := .command (BitVec.ofNat 32 (w % 2 ^ nbits)) :: s.ports.host
      status := .idle } }

end Sys2Proof.Machine
end

