-- ==== Sys2Proof/Safety.lean ====
section
/-! DEFINITION. What a safe state is, in the terms the claims use: the ranges of the registers (10_state R31 to R34), the
shape of the tree (10_state R24, R25, R28 to R30, 40_tree R121 to R129), the weights and the sibling property (40_tree R137
to R139), and the words the claims need to speak of streams and frames. -/

namespace Sys2Proof.Machine

open Sys2Proof.Config

/-! The bits in the buffers and on the streams -/

/-- The low `k` bits of a byte, the most significant of them first. -/
def lowBits (v : Byte) (k : Nat) : List Bool := (List.range k).reverse.map v.getLsbD

/-- The bits written and not yet emitted, oldest first: `WBUF[WCNT−1:0]` (10_state R33). -/
def Engine.pending (e : Engine) : List Bool := lowBits e.wbuf e.wcnt

/-- The bits fetched and not yet consumed, next one first: `RBUF[RCNT−1:0]` (10_state R34). -/
def Engine.buffered (e : Engine) : List Bool := lowBits e.rbuf e.rcnt

/-- The bits of a byte sequence on the wire (20_memory R63). -/
def wireBits (bytes : List Byte) : List Bool := bytes.flatMap msbBits

/-- Everything written since the sink was connected: what the sink holds, then what is pending. -/
def State.written (s : State) : List Bool := wireBits s.ports.sinkBytes ++ s.eng.pending

/-- The sink answers `Ok` to whatever it is offered from now on. -/
def State.SinkAccepts (s : State) : Prop := ∀ a ∈ s.ports.sinkAnswers, a = SnkAnswer.ok

/-- The next `SrcRead` answers `End` (20_memory R67). -/
def State.SourceAtEnd (s : State) : Prop := s.ports.source.head? = none ∨ s.ports.source.head? = some .eof

/-- The bits a `DEC` reads when the source does not run out: the path to a symbol leaf, or the path to the NYT and a literal
(43_decoder R190 to R192). -/
def Engine.Attempt (e : Engine) (bits : List Bool) : Prop :=
  (∃ (b : Byte) (h : Handle), e.leafOf b = some h ∧ bits = e.pathTo h) ∨ ∃ v : Byte, bits = e.pathTo e.nyth ++ msbBits v

/-! Frames: groups of registers that an operation leaves alone -/

/-- The tree registers are the same (10_state R23, R27 to R30). -/
structure SameTree (e f : Engine) : Prop where
  nodes : f.nodes = e.nodes
  nyth : f.nyth = e.nyth
  nsym : f.nsym = e.nsym
  keylast : f.keylast = e.keylast
  lookup : f.lookup = e.lookup

/-- The swap log is the same (10_state R32). -/
structure SameSwapLog (e f : Engine) : Prop where
  swapcnt : f.swapcnt = e.swapcnt
  swaplog : f.swaplog = e.swaplog

/-- The path registers are the same (10_state R31). -/
structure SamePath (e f : Engine) : Prop where
  pathlen : f.pathlen = e.pathlen
  path : f.path = e.path

/-- The writer is the same (10_state R33). -/
structure SameWriter (e f : Engine) : Prop where
  wbuf : f.wbuf = e.wbuf
  wcnt : f.wcnt = e.wcnt
  closed : f.closed = e.closed

/-- The reader is the same (10_state R34). -/
structure SameReader (e f : Engine) : Prop where
  rbuf : f.rbuf = e.rbuf
  rcnt : f.rcnt = e.rcnt
  srcEof : f.srcEof = e.srcEof

/-- The path registers hold the path `p` (10_state R31): its length, its bits, and the old cells from `|p|` on. -/
structure HoldsPath (p : List Bool) (e f : Engine) : Prop where
  pathlen : f.pathlen = p.length
  cells : ∀ i : Fin pathMax, f.path.get i = if h : i.val < p.length then p[i.val] else e.path.get i

/-- The status code of the last response (30_encoding R97). -/
def State.code (s : State) : BitVec 4 := s.eng.lastrsp.extractLsb' 0 4

/-- A command that started in `s` and ended in `t` gave its response (20_memory R77). -/
def Answered (s t : State) : Prop := t.ports.responses = s.ports.responses ++ [t.eng.lastrsp]

/-! The ranges of the stream, path and log registers -/

/-- The values the registers take between commands (10_state R31 to R34). -/
structure RegsInRange (e : Engine) : Prop where
  /-- R33. -/
  wcnt : e.wcnt ≤ 7
  /-- R33: bits of `WBUF` at `WCNT` and above are 0. -/
  wbuf : e.wbuf.toNat < 2 ^ e.wcnt
  /-- R34: between commands `RCNT` is 0 to 7. -/
  rcnt : e.rcnt ≤ 7
  /-- R31. -/
  pathlen : e.pathlen ≤ pathMax
  /-- R32. -/
  swapcnt : e.swapcnt ≤ swaplogN

/-! The shape of the tree -/

/-- A slot in the tree (40_tree R122). -/
def Engine.InTree (e : Engine) (h : Handle) : Prop := (e.node h).kind ≠ .free

/-- Reachable from `ROOT` through parent links (40_tree R122). -/
inductive Engine.UnderRoot (e : Engine) : Handle → Prop where
  | root : e.UnderRoot ROOT
  | child {h p : Handle} (link : (e.node h).parent = some p) (above : e.UnderRoot p) : e.UnderRoot h

/-- The tree is a tree, and its registers agree with it (10_state R24, R25, R27 to R30, 40_tree R121, R122, R125, R126, R129). -/
structure TreeShape (e : Engine) : Prop where
  /-- R28: `NSYM` counts the symbol leaves. -/
  symbols : (e.lookup.toList.filter Option.isSome).length = e.nsym
  /-- R25: the slots in the tree are 0 to 2·`NSYM`. -/
  slots : ∀ h : Handle, e.InTree h ↔ h.val ≤ 2 * e.nsym
  /-- R25: the current NYT is in slot 2·`NSYM` − 1 (slot 0 while `NSYM` = 0). -/
  nytSlot : e.nyth.val = 2 * e.nsym - 1
  /-- R40: a slot the tree does not use yet is as reset left it. -/
  freeSlots : ∀ h : Handle, ¬ e.InTree h → e.node h = Node.reset
  /-- R124: the root has no parent. -/
  rootTop : (e.node ROOT).parent = none
  /-- R124: every other node has one. -/
  parented : ∀ h : Handle, e.InTree h → h ≠ ROOT → ∃ p, (e.node h).parent = some p
  /-- R24: an internal node has two children, which name it as their parent. -/
  children : ∀ p l r : Handle, (e.node p).kind = .internal l r →
    l ≠ r ∧ e.InTree l ∧ e.InTree r ∧ (e.node l).parent = some p ∧ (e.node r).parent = some p
  /-- A parent is an internal node with that child. -/
  childOf : ∀ h p : Handle, (e.node h).parent = some p → ∃ l r, (e.node p).kind = .internal l r ∧ (h = l ∨ h = r)
  /-- R122: every slot in the tree is reachable from the root. -/
  rooted : ∀ h : Handle, e.InTree h → e.UnderRoot h
  /-- R121: the NYT is the node `NYTH`, and no other. -/
  nyt : ∀ h : Handle, (e.node h).kind = .nyt ↔ h = e.nyth
  /-- R129, R30: `LOOKUP` names the leaf of each symbol that has one, and no other. -/
  leaves : ∀ (b : Byte) (h : Handle), e.leafOf b = some h ↔ (e.node h).kind = .leaf b
  /-- R29: `KEYLAST` = 768 − 3·`NSYM`. -/
  keylast : e.keylast + 3 * e.nsym = key0
  /-- R125, R126: keys lie between the last one assigned and 768. -/
  keyRange : ∀ h : Handle, e.InTree h → e.keylast ≤ (e.node h).key ∧ (e.node h).key ≤ key0
  /-- R138 (a): keys are distinct. -/
  keysDistinct : ∀ a b : Handle, e.InTree a → e.InTree b → (e.node a).key = (e.node b).key → a = b

/-! The weights and the sibling property -/

/-- Children of one parent (40_tree R124). -/
def Engine.Siblings (e : Engine) (a b : Handle) : Prop :=
  a ≠ b ∧ ∃ p, (e.node a).parent = some p ∧ (e.node b).parent = some p

/-- The weights between commands, with the sibling property in the form that holds (40_tree R137, R138). The last two
fields are not the spec's: they say where the NYT's pair and the NYT's parent stand in key order, which is what makes the
property inductive (DEDUCED, log entry 15). -/
structure WeightOrder (e : Engine) : Prop where
  /-- R137. -/
  sums : ∀ p l r : Handle, (e.node p).kind = .internal l r → (e.node p).weight = (e.node l).weight + (e.node r).weight
  /-- R121: the NYT's weight is 0. -/
  nytZero : (e.node e.nyth).weight = 0
  /-- R138 (d), for leaves. -/
  leafPositive : ∀ (h : Handle) (b : Byte), (e.node h).kind = .leaf b → 0 < (e.node h).weight
  /-- R138 (c). -/
  order : ∀ a b : Handle, e.InTree a → e.InTree b → ¬ e.Siblings a b →
    (e.node b).key < (e.node a).key → (e.node b).weight ≤ (e.node a).weight
  /-- R138 (e), in key order: no key lies between two siblings' keys. -/
  adjacent : ∀ a b x : Handle, e.Siblings a b → e.InTree x →
    ¬ ((e.node a).key < (e.node x).key ∧ (e.node x).key < (e.node b).key)
  /-- The NYT and its sibling have the two smallest keys. -/
  nytPairLowest : ∀ a x : Handle, (a = e.nyth ∨ e.Siblings a e.nyth) → e.InTree x → x ≠ e.nyth → ¬ e.Siblings x e.nyth →
    (e.node a).key < (e.node x).key
  /-- The NYT's parent has the smallest key but for those. -/
  nytParentNext : ∀ p x : Handle, (e.node e.nyth).parent = some p → e.InTree x → x ≠ e.nyth → ¬ e.Siblings x e.nyth →
    x ≠ p → (e.node p).key < (e.node x).key

/-- The state between commands: registers in range, a tree, the sibling property, and no weight above `WMAX`. -/
structure Inv (s : State) : Prop where
  regs : RegsInRange s.eng
  shape : TreeShape s.eng
  weights : WeightOrder s.eng
  /-- R139. -/
  room : (s.eng.node ROOT).weight ≤ wmax s.width

end Sys2Proof.Machine
end

