-- ==== Sys2Proof/Certificates/Slice0/Obligations.lean ====
section
/-! DEFINITION. The statements for the provers. -/

open Sys2Proof Sys2Proof.Machine Sys2Proof.Config

/-! ## Encoding -/

/-- 30_encoding R95, R96: the decoder and the encoder agree, on every word and every command. -/
def Obligations.DecodeExactlyInvertsEncode : Prop :=
  ∀ (w : Word) (i : Instr), decode w = .ok i ↔ encode i = w

/-- 30_encoding R94, R95: a word is a command exactly when it matches a row of the opcode map, and then it is that row's
command with `SYM` as its operand. -/
def Obligations.DecodeReadsTheOpcodeMap : Prop :=
  ∀ (w : Word) (i : Instr),
    decode w = .ok i ↔ ∃ r ∈ opcodeTable, r.matches w = true ∧ i = r.mnemonic.instr (symField w)

/-- 30_encoding R94: words of the opcode map, written out, and what they stand for. -/
def Obligations.SampleWordsDecode : Prop :=
  decode 0x00000000#32 = .ok .nop ∧ decode 0x00000001#32 = .ok .init ∧ decode 0x00000412#32 = .ok (.enc 0x41#8) ∧
  decode 0x00000003#32 = .ok .dec ∧ decode 0x00000004#32 = .ok .close ∧ decode 0x00000FF5#32 = .ok (.upd 0xFF#8) ∧
  decode 0x000005A6#32 = .ok (.contains 0x5A#8) ∧ decode 0x00000447#32 = .ok (.pathsym 0x44#8) ∧
  decode 0x00000008#32 = .ok .pathnyt ∧ decode 0x00000009#32 = .error .opcodeUnassigned ∧
  decode 0x00000013#32 = .error .symbolNotTaken ∧ decode 0x80000002#32 = .error .reservedBits

/-- 30_encoding R97: where the fields of a response word stand. -/
def Obligations.ResponseWordFields : Prop :=
  ∀ (code : Code) (data : Byte) (len : Nat) (lit : Bool), len < 512 →
    (responseWord code data len lit).extractLsb' 0 4 = code.bits ∧
    (responseWord code data len lit).extractLsb' 4 8 = data ∧
    ((responseWord code data len lit).extractLsb' 12 9).toNat = len ∧
    (responseWord code data len lit).getLsbD 21 = lit ∧
    (responseWord code data len lit).extractLsb' 22 10 = 0#10

/-- 30_encoding R105, R106: what the assembler writes for the commands and the pseudo-commands. -/
def Obligations.AssemblerWritesCommandWords : Prop :=
  (∀ (m : Mnemonic) (o : Operand), (Line.command m (some o)).wellFormed = true →
    (Line.command m (some o)).assemble = some [0#20 ++ BitVec.ofNat 8 o.value ++ m.opc]) ∧
  (∀ m : Mnemonic, (Line.command m none).wellFormed = true → (Line.command m none).assemble = some [0#28 ++ m.opc]) ∧
  (∀ bs : List Operand, (Line.encb bs).wellFormed = true →
    (Line.encb bs).assemble = some (bs.map fun o => 0#20 ++ BitVec.ofNat 8 o.value ++ 2#4)) ∧
  (∀ text : List Char, (Line.encs text).wellFormed = true →
    (Line.encs text).assemble = some (text.map fun c => 0#20 ++ BitVec.ofNat 8 c.toNat ++ 2#4)) ∧
  (∀ n : Nat, (Line.decn n).assemble = some (List.replicate n 3#32))

/-! ## Reset -/

/-- 10_state R40: every register after reset. -/
def Obligations.ResetRegisters : Prop :=
  Engine.reset.node 0 = { kind := .nyt, weight := 0, key := 768, parent := none } ∧
  (∀ h : Handle, h ≠ 0 → Engine.reset.node h = { kind := .free, weight := 0, key := 0, parent := none }) ∧
  ROOT = 0 ∧ Engine.reset.nyth = 0 ∧ Engine.reset.nsym = 0 ∧ Engine.reset.keylast = 768 ∧
  (∀ b : Byte, Engine.reset.leafOf b = none) ∧
  Engine.reset.pathlen = 0 ∧ (∀ i : Fin pathMax, Engine.reset.path.get i = false) ∧
  Engine.reset.swapcnt = 0 ∧ (∀ i : Fin swaplogN, Engine.reset.swaplog.get i = { n := none, m := none }) ∧
  Engine.reset.wbuf = 0#8 ∧ Engine.reset.wcnt = 0 ∧ Engine.reset.closed = false ∧
  Engine.reset.rbuf = 0#8 ∧ Engine.reset.rcnt = 0 ∧ Engine.reset.srcEof = false ∧
  Engine.reset.fault = none ∧ Engine.reset.lastrsp = 0#32

/-- 70_reset_and_hazards R270, R272: the reset input puts every register at its reset value and leaves the engine idle; the
source, the sink and what the host has taken are as before. -/
def Obligations.ResetInputRestoresRegisters : Prop :=
  ∀ (s : State) (rest : List HostAction), s.ports.host = .reset :: rest →
    ∃ t, step s = .next t ∧ t.eng = Engine.reset ∧
      t.ports = { s.ports with host := rest, status := .idle } ∧ t.width = s.width

/-- 70_reset_and_hazards R271: a reset while a command is in flight abandons it. Its response is never delivered, the
registers are the reset ones, and what the agents gave and took for it stays given and taken (the model's choice where the spec
leaves it to the agent, log entry 6). -/
def Obligations.ResetInFlightAbandonsCommand : Prop :=
  ∀ (s : State) (w : Word) (rest : List HostAction), s.ports.status = .idle → s.ports.host = .resetDuring w :: rest →
    ∃ t u, runCommand w (s.takeAction rest) = .next u ∧ step s = .next t ∧ t.eng = Engine.reset ∧
      t.ports.status = .idle ∧ t.ports.responses = s.ports.responses ∧ t.ports.source = u.ports.source ∧
      t.ports.sink = u.ports.sink ∧ t.ports.sinkAnswers = u.ports.sinkAnswers

/-! ## One step -/

/-- 60_exceptions R241: a legal command word on an idle command port runs its command; the word is taken off the host's
list (the list is the model's form of the host, log entry 2). -/
def Obligations.StepRunsTheDecodedCommand : Prop :=
  ∀ (s : State) (w : Word) (i : Instr) (rest : List HostAction), s.ports.status = .idle →
    s.ports.host = .command w :: rest → decode w = .ok i →
    step s = exec i { s with ports := { s.ports with host := rest } }

/-- 30_encoding R95: an illegal word is refused with ERR_ILLEGAL and changes no state except LASTRSP, also on a faulted
engine (60_exceptions R242). -/
def Obligations.StepRefusesIllegalWords : Prop :=
  ∀ (s : State) (w : Word) (rest : List HostAction), s.ports.status = .idle → s.ports.host = .command w :: rest →
    (∀ r ∈ opcodeTable, r.matches w = false) →
    step s = .next
      { s with
        eng := { s.eng with lastrsp := 2#32 }
        ports := { s.ports with host := rest, responses := s.ports.responses ++ [2#32] } }

/-- 60_exceptions R262, 20_memory R62: with nothing to do the engine is idle with all state kept; and while a command waits on
an agent that never answers (20_memory R67, R69), a further command word is not accepted and all state is kept. That an empty
list means an idle host, and the form of the blocked state, are the model's choices (log entries 2 and 3). -/
def Obligations.IdleAndWaitingEnginesKeepAllState : Prop :=
  (∀ s : State, s.ports.host = [] → step s = .next s) ∧
  (∀ (s : State) (w : Word) (rest : List HostAction), s.ports.status ≠ .idle → s.ports.host = .command w :: rest →
    step s = .next s)

/-- 20_memory R67, R69: an agent that never answers leaves the engine in the command: no response is given, the engine waits, and
the registers stay as the command left them so far. A source silent at the first bit of DEC, and at any later bit of the attempt;
a sink silent at the padded byte of CLOSE (41_bitstream R163: the buffer is already empty) and at SnkClose, with and without a
padded byte before it; a sink silent at a byte of ENC, after `k` accepted ones (the tree is not updated; the sink holds the bytes
completed before). Whether a silent sink took what it was offered is up to the sink, and the blocked status is the model's form
of the wait (log entries 3 and 6). -/
def Obligations.SilentAgentsHoldTheCommand : Prop :=
  (∀ (s : State) (rest : List SrcAnswer) (l r : Handle), s.eng.fault = none →
    (s.eng.node ROOT).weight ≠ wmax s.width → (s.eng.node ROOT).kind = .internal l r ∨ (s.eng.node ROOT).kind = .nyt →
    s.eng.rcnt = 0 → s.eng.srcEof = false → s.ports.source = .never :: rest →
    exec .dec s = .next { s with ports := { s.ports with source := rest, status := .waitingSource } }) ∧
  (∀ (s : State) (bytes : List Byte) (rest : List SrcAnswer) (done missing : List Bool),
    TreeShape s.eng → s.eng.fault = none → (s.eng.node ROOT).weight ≠ wmax s.width → s.eng.rcnt ≤ 7 →
    s.eng.srcEof = false → s.ports.source = bytes.map .byte ++ .never :: rest →
    s.eng.buffered ++ wireBits bytes = done → s.eng.Attempt (done ++ missing) → missing ≠ [] →
    exec .dec s = .next
      { s with
        eng := { s.eng with rbuf := bytes.getLast?.getD s.eng.rbuf, rcnt := 0 }
        ports := { s.ports with source := rest, status := .waitingSource } }) ∧
  (∀ (s : State) (kept : Bool) (rest : List SnkAnswer), s.eng.fault = none → s.eng.closed = false → 0 < s.eng.wcnt →
    s.ports.sinkAnswers = .never kept :: rest →
    exec .close s = .next
      { s with
        eng := { s.eng with wbuf := 0#8, wcnt := 0 }
        ports := { s.ports with
          sinkAnswers := rest
          status := .waitingSink
          sink := s.ports.sink ++ (if kept then [.byte (s.eng.wbuf <<< (8 - s.eng.wcnt))] else []) } }) ∧
  (∀ (s : State) (kept : Bool) (rest : List SnkAnswer), s.eng.fault = none → s.eng.closed = false → 0 < s.eng.wcnt →
    s.ports.sinkAnswers = .ok :: .never kept :: rest →
    exec .close s = .next
      { s with
        eng := { s.eng with wbuf := 0#8, wcnt := 0 }
        ports := { s.ports with
          sinkAnswers := rest
          status := .waitingSink
          sink := s.ports.sink ++ [.byte (s.eng.wbuf <<< (8 - s.eng.wcnt))] ++ (if kept then [.close] else []) } }) ∧
  (∀ (s : State) (kept : Bool) (rest : List SnkAnswer), s.eng.fault = none → s.eng.closed = false → s.eng.wcnt = 0 →
    s.ports.sinkAnswers = .never kept :: rest →
    exec .close s = .next
      { s with
        ports := { s.ports with
          sinkAnswers := rest
          status := .waitingSink
          sink := s.ports.sink ++ (if kept then [.close] else []) } }) ∧
  (∀ (b : Byte) (s : State) (k : Nat) (kept : Bool) (rest : List SnkAnswer), s.eng.fault = none → s.eng.closed = false →
    (s.eng.node ROOT).weight ≠ wmax s.width → s.eng.wcnt ≤ 7 →
    s.ports.sinkAnswers = List.replicate k .ok ++ .never kept :: rest →
    8 * (k + 1) ≤ s.eng.wcnt + (s.eng.codeword b).length →
    ∃ t, exec (.enc b) s = .next t ∧
      t.eng = { s.eng with wbuf := 0#8, wcnt := 0, pathlen := t.eng.pathlen, path := t.eng.path } ∧
      HoldsPath (s.eng.pathTo (s.eng.codeNode b)) s.eng t.eng ∧
      t.ports = { s.ports with sinkAnswers := rest, sink := t.ports.sink, status := .waitingSink } ∧
      wireBits t.ports.sinkBytes =
        (s.written ++ s.eng.codeword b).take (8 * (s.ports.sinkBytes.length + k + if kept then 1 else 0)))

/-! ## Responses -/

/-- 30_encoding R97, R98: every command either waits on an agent, with no response, or gives one response word, which
LASTRSP holds: its bits 31:22 are 0 and its code is none of the reserved 0x6, 0x7, 0xE and 0xF. -/
def Obligations.EveryCommandAnswersOrWaits : Prop :=
  ∀ (i : Instr) (s : State), s.ports.status = .idle →
    ∃ t, exec i s = .next t ∧
      ((t.ports.status ≠ .idle ∧ t.ports.responses = s.ports.responses ∧ t.eng.lastrsp = s.eng.lastrsp) ∨
       (t.ports.status = .idle ∧ Answered s t ∧ t.eng.lastrsp.extractLsb' 22 10 = 0#10 ∧
        t.code ≠ 0x6#4 ∧ t.code ≠ 0x7#4 ∧ t.code ≠ 0xE#4 ∧ t.code ≠ 0xF#4))

/-- 60_exceptions R243: an error response to a command word changes no register but LASTRSP, makes no transaction, and has
DATA = LEN = LIT = 0. -/
def Obligations.ErrorResponsesChangeNothing : Prop :=
  ∀ (w : Word) (s t : State), runCommand w s = .next t → Answered s t →
    t.code = 0x2#4 ∨ t.code = 0x3#4 ∨ t.code = 0x4#4 ∨ t.code = 0x5#4 →
    t.eng = { s.eng with lastrsp := BitVec.setWidth 32 t.code } ∧
    t.ports = { s.ports with responses := s.ports.responses ++ [BitVec.setWidth 32 t.code] } ∧ t.width = s.width

/-- 60_exceptions R244: a fault's code is set in FAULT and returned with DATA = LEN = LIT = 0. -/
def Obligations.FaultResponsesAreRecorded : Prop :=
  ∀ (i : Instr) (s t : State), exec i s = .next t → Answered s t → 0x8#4 ≤ t.code →
    ∃ c : FaultCode, t.eng.fault = some c ∧ t.eng.lastrsp = BitVec.setWidth 32 c.bits

/-- 60_exceptions R241: with a fault recorded every command but NOP and INIT is refused with ERR_FAULTED. -/
def Obligations.FaultedEngineRefusesCommands : Prop :=
  ∀ (i : Instr) (s : State) (c : FaultCode), s.eng.fault = some c → i ≠ .nop → i ≠ .init →
    exec i s = .next
      { s with
        eng := { s.eng with lastrsp := 3#32 }
        ports := { s.ports with responses := s.ports.responses ++ [3#32] } }

/-- 60_exceptions R255: the only ways out of a fault are INIT and a hardware reset; whatever else happens leaves every register
but LASTRSP as the fault left it, so that no partial effect is undone and no second fault overwrites the first. An INIT the engine
accepts, a reset, and a reset while a command is in flight each clear FAULT and all other state. -/
def Obligations.FaultIsStickyUntilInitOrReset : Prop :=
  (∀ (i : Instr) (s t : State) (c : FaultCode), i ≠ .init → s.eng.fault = some c → exec i s = .next t →
    t.eng = { s.eng with lastrsp := t.eng.lastrsp }) ∧
  (∀ (s t : State) (c : FaultCode) (act : HostAction) (rest : List HostAction), s.ports.host = act :: rest →
    s.eng.fault = some c → act ≠ .reset → (∀ w, act ≠ .resetDuring w) →
    ¬ (act = .command (encode .init) ∧ s.ports.status = .idle) → step s = .next t →
    t.eng = { s.eng with lastrsp := t.eng.lastrsp }) ∧
  (∀ (s : State) (act : HostAction) (rest : List HostAction), s.ports.host = act :: rest →
    act = .reset ∨ (∃ w, act = .resetDuring w) ∨ (act = .command (encode .init) ∧ s.ports.status = .idle) →
    ∃ t, step s = .next t ∧ t.eng = Engine.reset)

/-- 40_tree R139, 60_exceptions R250: with the root at WMAX, ENC, DEC and UPD raise FAULT_WOVF before they change anything. -/
def Obligations.FullRootRaisesOverflow : Prop :=
  ∀ (s : State) (i : Instr), s.eng.fault = none → (s.eng.node ROOT).weight = wmax s.width →
    (∃ b, i = .upd b) ∨ i = .dec ∨ (s.eng.closed = false ∧ ∃ b, i = .enc b) →
    exec i s = .next
      { s with
        eng := { s.eng with fault := some .wovf, lastrsp := 0xC#32 }
        ports := { s.ports with responses := s.ports.responses ++ [0xC#32] } }

/-- 42_encoder R184, 41_bitstream R164, 60_exceptions R242: after a close, ENC and CLOSE are refused with ERR_CLOSED and change
nothing but LASTRSP, also with the root at WMAX. -/
def Obligations.ClosedWriterRefuses : Prop :=
  ∀ (s : State) (i : Instr), s.eng.fault = none → s.eng.closed = true → i = .close ∨ (∃ b, i = .enc b) →
    exec i s = .next
      { s with
        eng := { s.eng with lastrsp := 4#32 }
        ports := { s.ports with responses := s.ports.responses ++ [4#32] } }

/-! ## Control -/

/-- 45_control R230: NOP does nothing and responds OK, also when a fault is recorded. -/
def Obligations.NopOnlyResponds : Prop :=
  ∀ s : State, exec .nop s = .next
    { s with
      eng := { s.eng with lastrsp := 0#32 }
      ports := { s.ports with responses := s.ports.responses ++ [0#32] } }

/-- 45_control R231: INIT puts every register into its reset value, also when a fault is recorded, and responds OK; it reaches
neither the source nor the sink. -/
def Obligations.InitRestoresRegisters : Prop :=
  ∀ s : State, exec .init s = .next
    { s with
      eng := Engine.reset
      ports := { s.ports with responses := s.ports.responses ++ [0#32] } }

/-! ## Queries -/

/-- 44_query R210: CONTAINS reports whether the byte has a leaf, and writes nothing but LASTRSP. -/
def Obligations.ContainsReportsMembership : Prop :=
  ∀ (b : Byte) (s : State), s.eng.fault = none →
    exec (.contains b) s = .next
      { s with
        eng := { s.eng with lastrsp := if (s.eng.leafOf b).isSome then 0x10#32 else 0#32 }
        ports := { s.ports with
          responses := s.ports.responses ++ [if (s.eng.leafOf b).isSome then 0x10#32 else 0#32] } }

/-- 44_query R211, R212: the path commands store the path in PATH and PATHLEN, return its length in LEN, and write nothing
else; PATHSYM of a byte with no leaf is refused with ERR_NOSYM and changes nothing but LASTRSP. -/
def Obligations.PathCommandsRecordThePath : Prop :=
  ∀ (s : State), s.eng.fault = none →
    (∀ (b : Byte) (h : Handle), s.eng.leafOf b = some h →
      ∃ t, exec (.pathsym b) s = .next t ∧ HoldsPath (s.eng.pathTo h) s.eng t.eng ∧
        t.eng.lastrsp.toNat = (s.eng.pathTo h).length * 4096 ∧ Answered s t ∧
        t.eng = { s.eng with pathlen := t.eng.pathlen, path := t.eng.path, lastrsp := t.eng.lastrsp } ∧
        t.ports = { s.ports with responses := t.ports.responses }) ∧
    (∃ t, exec .pathnyt s = .next t ∧ HoldsPath (s.eng.pathTo s.eng.nyth) s.eng t.eng ∧
        t.eng.lastrsp.toNat = (s.eng.pathTo s.eng.nyth).length * 4096 ∧ Answered s t ∧
        t.eng = { s.eng with pathlen := t.eng.pathlen, path := t.eng.path, lastrsp := t.eng.lastrsp } ∧
        t.ports = { s.ports with responses := t.ports.responses }) ∧
    (∀ b : Byte, s.eng.leafOf b = none →
      exec (.pathsym b) s = .next
        { s with
          eng := { s.eng with lastrsp := 5#32 }
          ports := { s.ports with responses := s.ports.responses ++ [5#32] } })

/-- 44_query R215 to R218: the four words of a slot. -/
def Obligations.QueryReadsNodeWords : Prop :=
  ∀ (s : State) (h : Handle),
    qread s (BitVec.ofNat 14 (4 * h.val)) = BitVec.ofNat 32 (s.eng.node h).weight ∧
    (let w := qread s (BitVec.ofNat 14 (4 * h.val + 1))
     w.extractLsb' 30 2 = kindBits (s.eng.node h).kind ∧ w.extractLsb' 18 12 = 0#12 ∧
     w.extractLsb' 10 8 = (s.eng.node h).sym ∧ w.extractLsb' 0 10 = BitVec.ofNat 10 (s.eng.node h).key) ∧
    (let w := qread s (BitVec.ofNat 14 (4 * h.val + 2))
     w.extractLsb' 30 2 = 0#2 ∧ w.extractLsb' 20 10 = linkBits (s.eng.node h).parent ∧
     w.extractLsb' 10 10 = linkBits (s.eng.node h).left ∧ w.extractLsb' 0 10 = linkBits (s.eng.node h).right) ∧
    qread s (BitVec.ofNat 14 (4 * h.val + 3)) = 0#32

/-- 44_query R219, R220, R221: the lookup words, the path words and the swap log words. -/
def Obligations.QueryReadsLookupPathAndSwapLog : Prop :=
  (∀ (s : State) (b : Byte),
    let w := qread s (BitVec.ofNat 14 (0x1000 + b.toNat))
    w.getLsbD 31 = (s.eng.leafOf b).isSome ∧ w.extractLsb' 10 21 = 0#21 ∧
      w.extractLsb' 0 10 = (match s.eng.leafOf b with | none => 0x3FF#10 | some h => BitVec.ofNat 10 h.val)) ∧
  (∀ (s : State) (j : Fin 8) (k : Fin 32),
    (qread s (BitVec.ofNat 14 (0x1100 + j.val))).getLsbD (31 - k.val) =
      s.eng.path.get ⟨32 * j.val + k.val, by have := j.isLt; have := k.isLt; show 32 * j.val + k.val < 256; omega⟩) ∧
  (∀ (s : State) (i : Fin swaplogN),
    let w := qread s (BitVec.ofNat 14 (0x1200 + i.val))
    w.extractLsb' 26 6 = 0#6 ∧ w.extractLsb' 16 10 = linkBits (s.eng.swaplog.get i).n ∧
      w.extractLsb' 10 6 = 0#6 ∧ w.extractLsb' 0 10 = linkBits (s.eng.swaplog.get i).m)

/-- 44_query R222 to R227: the register words; every address outside the regions reads 0. That 0x1409 reads W, as 44_query R226
says, although 20_memory R73 ends the registers at 0x1408, is the model's reading (DEDUCED, log entry 14). -/
def Obligations.QueryReadsRegisterWords : Prop :=
  ∀ s : State,
    (∀ a : QAddr, (0x0804 ≤ a.toNat ∧ a.toNat ≤ 0x0FFF) ∨ (0x1108 ≤ a.toNat ∧ a.toNat ≤ 0x11FF) ∨ 0x140A ≤ a.toNat →
      qread s a = 0#32) ∧
    (let w := qread s 0x1400#14
     w.extractLsb' 0 4 = faultBits s.eng.fault ∧ w.getLsbD 4 = s.eng.closed ∧ w.getLsbD 5 = s.eng.srcEof ∧
     w.extractLsb' 6 26 = 0#26) ∧
    (let w := qread s 0x1401#14
     w.extractLsb' 0 10 = 0#10 ∧ w.extractLsb' 10 10 = BitVec.ofNat 10 s.eng.nyth.val ∧
     w.extractLsb' 20 9 = BitVec.ofNat 9 s.eng.nsym ∧ w.extractLsb' 29 3 = 0#3) ∧
    qread s 0x1402#14 = BitVec.ofNat 32 s.eng.keylast ∧ qread s 0x1403#14 = BitVec.ofNat 32 s.eng.pathlen ∧
    qread s 0x1404#14 = BitVec.ofNat 32 s.eng.swapcnt ∧
    (let w := qread s 0x1405#14
     w.extractLsb' 0 8 = s.eng.wbuf ∧ w.extractLsb' 8 3 = BitVec.ofNat 3 s.eng.wcnt ∧ w.extractLsb' 11 21 = 0#21) ∧
    (let w := qread s 0x1406#14
     w.extractLsb' 0 8 = s.eng.rbuf ∧ w.extractLsb' 8 4 = BitVec.ofNat 4 s.eng.rcnt ∧ w.extractLsb' 12 20 = 0#20) ∧
    qread s 0x1407#14 = s.eng.lastrsp ∧ qread s 0x1408#14 = 0x41484301#32 ∧
    qread s 0x1409#14 = BitVec.ofNat 32 s.width.val

/-- 20_memory R64, R76: a query read on an idle engine gives the host the word of the present state and has no side effect;
while a command is in flight it gives a value that nothing constrains (the model's Config.freeQuery), and still no side effect. -/
def Obligations.QueryReadHasNoSideEffect : Prop :=
  ∀ (s : State) (a : QAddr) (rest : List HostAction),
    (s.ports.host = .query a :: rest → s.ports.status = .idle →
      step s = .next { s with ports := { s.ports with host := rest, queryData := s.ports.queryData ++ [qread s a] } }) ∧
    (s.ports.host = .queryInFlight a :: rest ∨ (s.ports.host = .query a :: rest ∧ s.ports.status ≠ .idle) →
      step s = .next
        { s with
          ports := { s.ports with
            host := rest
            queryData := s.ports.queryData ++ [freeQuery s.ports.draws a]
            draws := s.ports.draws + 1 } })

/-- 44_query R213: the path to any node, a leaf or not, is what the host computes from LINKS words alone. -/
def Obligations.HostComputesPaths : Prop :=
  ∀ (s : State) (h : Handle), hostPath s h = s.eng.pathTo h

/-! ## The bit streams -/

/-- 41_bitstream R160, R162: one bit goes below the pending ones; the eighth bit offers the full byte after the buffer has been
emptied, and a byte the sink answers Err to is lost. -/
def Obligations.WriteBitPacksAndOffers : Prop :=
  ∀ (x : Bool) (s : State),
    (s.eng.wcnt ≠ 7 → writeBit x s = .ok ()
      { s with eng := { s.eng with wbuf := s.eng.wbuf.extractLsb' 0 7 ++ BitVec.ofBool x, wcnt := s.eng.wcnt + 1 } }) ∧
    (∀ rest, s.eng.wcnt = 7 → s.ports.sinkAnswers = .ok :: rest → writeBit x s = .ok ()
      { s with
        eng := { s.eng with wbuf := 0#8, wcnt := 0 }
        ports := { s.ports with
          sinkAnswers := rest
          sink := s.ports.sink ++ [.byte (s.eng.wbuf.extractLsb' 0 7 ++ BitVec.ofBool x)] } }) ∧
    (∀ rest, s.eng.wcnt = 7 → s.ports.sinkAnswers = .err :: rest → writeBit x s = .raised .snkIo
      { s with
        eng := { s.eng with wbuf := 0#8, wcnt := 0 }
        ports := { s.ports with sinkAnswers := rest } })

/-- 41_bitstream R161: writing bits appends them to the stream; whole bytes are in the sink and the last bits are pending. -/
def Obligations.WriterKeepsTheBitStream : Prop :=
  ∀ (xs : List Bool) (s : State), RegsInRange s.eng → s.SinkAccepts →
    ∃ t, writeBits xs s = .ok () t ∧ t.written = s.written ++ xs ∧ t.eng.wcnt ≤ 7 ∧ t.SinkAccepts ∧
      t.eng.wcnt = (s.eng.wcnt + xs.length) % 8 ∧
      t.ports.sinkBytes.length = s.ports.sinkBytes.length + (s.eng.wcnt + xs.length) / 8

/-- 41_bitstream R165 to R167: a buffered bit is served from position RCNT − 1; an empty buffer fetches a byte and serves its
bit 7; End is latched in SRC_EOF and reported without asking again; Err is a fault. -/
def Obligations.ReadBitServesAndFetches : Prop :=
  ∀ s : State,
    (s.eng.rcnt ≠ 0 → readBit s = .ok (some (s.eng.rbuf.getLsbD (s.eng.rcnt - 1)))
      { s with eng := { s.eng with rcnt := s.eng.rcnt - 1 } }) ∧
    (s.eng.rcnt = 0 → s.eng.srcEof = true → readBit s = .ok none s) ∧
    (∀ (v : Byte) (rest : List SrcAnswer), s.eng.rcnt = 0 → s.eng.srcEof = false → s.ports.source = .byte v :: rest →
      readBit s = .ok (some (v.getLsbD 7))
        { s with eng := { s.eng with rbuf := v, rcnt := 7 }, ports := { s.ports with source := rest } }) ∧
    (∀ rest : List SrcAnswer, s.eng.rcnt = 0 → s.eng.srcEof = false → s.ports.source = .eof :: rest →
      readBit s = .ok none
        { s with eng := { s.eng with srcEof := true }, ports := { s.ports with source := rest } }) ∧
    (∀ rest : List SrcAnswer, s.eng.rcnt = 0 → s.eng.srcEof = false → s.ports.source = .err :: rest →
      readBit s = .raised .srcIo { s with ports := { s.ports with source := rest } })

/-- 41_bitstream R168: a bit sequence written by WriteBit and flushed by Close is returned by ReadBit in the same order,
followed by the padding bits, then End. -/
def Obligations.ReaderReturnsWhatTheWriterWrote : Prop :=
  ∀ (xs : List Bool) (s u v d : State) (r : Nat × Nat), s.eng.wcnt = 0 → s.ports.sink = [] → s.SinkAccepts →
    writeBits xs s = .ok () u → closeWriter u = .ok r v →
    d.eng.rcnt = 0 → d.eng.srcEof = false → d.ports.source = v.ports.sinkBytes.map .byte ++ [.eof] →
    ∃ d1 d2, readLiteral (xs.length + r.2) [] d = .ok { bits := xs ++ List.replicate r.2 false, complete := true } d1 ∧
      readBit d1 = .ok none d2 ∧ r.2 = (8 - xs.length % 8) % 8

/-- 41_bitstream R163, R164, 30_encoding R104: CLOSE pads the pending bits with 0 bits to a full byte, offers it, notifies the
sink, sets CLOSED, and leaves the tree, the path, the swap log, the reader and the source alone. -/
def Obligations.CloseFlushesAndCloses : Prop :=
  ∀ s : State, s.eng.fault = none → s.eng.closed = false → RegsInRange s.eng → s.SinkAccepts →
    ∃ t, exec .close s = .next t ∧ Answered s t ∧
      t.eng.lastrsp = responseWord .ok (if s.eng.wcnt = 0 then 0#8 else 1#8) ((8 - s.eng.wcnt) % 8) false ∧
      wireBits t.ports.sinkBytes = s.written ++ List.replicate ((8 - s.eng.wcnt) % 8) false ∧
      t.ports.sink.getLast? = some .close ∧
      t.eng = { s.eng with wbuf := 0#8, wcnt := 0, closed := true, lastrsp := t.eng.lastrsp } ∧
      t.ports.source = s.ports.source ∧ t.ports.status = s.ports.status

/-- 41_bitstream R163, R164, 60_exceptions R247: a sink that answers Err to the padded byte, or to the close, makes CLOSE raise
FAULT_SNK_IO; CLOSED stays 0 and the buffer is empty. -/
def Obligations.CloseReportsSinkFailure : Prop :=
  ∀ (s : State) (rest : List SnkAnswer), s.eng.fault = none → s.eng.closed = false →
    s.ports.sinkAnswers = .err :: rest ∨ (0 < s.eng.wcnt ∧ s.ports.sinkAnswers = .ok :: .err :: rest) →
    ∃ t, exec .close s = .next t ∧ Answered s t ∧ t.eng.closed = false ∧ t.eng.fault = some .snkIo ∧
      t.eng.lastrsp = 9#32 ∧ (0 < s.eng.wcnt → t.eng.wbuf = 0#8) ∧ t.eng.wcnt = 0 ∧
      SameTree s.eng t.eng ∧ SameReader s.eng t.eng ∧ SamePath s.eng t.eng

/-- 41_bitstream R169, 42_encoder R180, 43_decoder R190, 40_tree R143, 20_memory R61: whatever its outcome, DEC leaves the writer,
CLOSED and the sink alone; ENC, CLOSE and UPD leave the reader and the source alone; UPD leaves the writer, the sink and the path
alone too, and CLOSE the tree, the path and the swap log. -/
def Obligations.StreamsAreIndependent : Prop :=
  ∀ s t : State,
    (exec .dec s = .next t → SameWriter s.eng t.eng ∧ t.ports.sink = s.ports.sink ∧
      t.ports.sinkAnswers = s.ports.sinkAnswers) ∧
    (∀ b, exec (.enc b) s = .next t → SameReader s.eng t.eng ∧ t.eng.closed = s.eng.closed ∧
      t.ports.source = s.ports.source) ∧
    (∀ b, exec (.upd b) s = .next t → SameReader s.eng t.eng ∧ SameWriter s.eng t.eng ∧ SamePath s.eng t.eng ∧
      t.ports.source = s.ports.source ∧ t.ports.sink = s.ports.sink) ∧
    (exec .close s = .next t → SameReader s.eng t.eng ∧ SameTree s.eng t.eng ∧ SamePath s.eng t.eng ∧
      SameSwapLog s.eng t.eng ∧ t.ports.source = s.ports.source)

/-! ## The tree -/

/-- 40_tree R131, R132: what Split writes, and that it writes nothing else. -/
def Obligations.SplitBuildsInternalNytAndLeaf : Prop :=
  ∀ (e : Engine) (b : Byte), e.nsym < 256 → e.nyth.val < 2 * e.nsym + 1 →
    (e.split b).2.val = 2 * e.nsym + 2 ∧
    (∀ y l : Handle, y.val = 2 * e.nsym + 1 → l.val = 2 * e.nsym + 2 →
      (e.split b).1.node e.nyth = { e.node e.nyth with kind := .internal y l, key := e.keylast - 1 } ∧
      (e.split b).1.node y = { kind := .nyt, weight := 0, key := e.keylast - 2, parent := some e.nyth } ∧
      (e.split b).1.node l = { kind := .leaf b, weight := 0, key := e.keylast - 3, parent := some e.nyth } ∧
      (∀ h, h ≠ e.nyth → h ≠ y → h ≠ l → (e.split b).1.node h = e.node h) ∧
      (e.split b).1.nyth = y ∧ (e.split b).1.leafOf b = some l) ∧
    (e.split b).1.keylast = e.keylast - 3 ∧ (e.split b).1.nsym = e.nsym + 1 ∧
    (∀ c, c ≠ b → (e.split b).1.leafOf c = e.leafOf c) ∧
    SameSwapLog e (e.split b).1 ∧ SamePath e (e.split b).1 ∧ SameWriter e (e.split b).1 ∧ SameReader e (e.split b).1 ∧
    (e.split b).1.fault = e.fault ∧ (e.split b).1.lastrsp = e.lastrsp

/-- 40_tree R133: the candidate is the node of largest key among the nodes in the tree with the weight of `n` and a larger key
than `n`, excluding the root, the sibling and the ancestors of `n`; there is none exactly when no node qualifies. -/
def Obligations.CandidateHasLargestKey : Prop :=
  ∀ (e : Engine) (n : Handle),
    let qualifies := fun x : Handle => e.InTree x ∧ (e.node x).weight = (e.node n).weight ∧
      (e.node n).key < (e.node x).key ∧ x ≠ ROOT ∧ some x ≠ e.sibling n ∧ x ∉ e.ancestors n
    (∀ m, e.candidate n = some m → qualifies m ∧ ∀ x, qualifies x → (e.node x).key ≤ (e.node m).key) ∧
    (e.candidate n = none → ∀ x, ¬ qualifies x)

/-- 40_tree R134: Swap exchanges the positions and the keys of the two nodes and nothing else; its precondition failing, it
changes nothing (none: the caller raises FAULT_INTERNAL). -/
def Obligations.SwapExchangesPositionsAndKeys : Prop :=
  ∀ (e : Engine) (n m pn pm : Handle), TreeShape e → (e.node n).parent = some pn → (e.node m).parent = some pm →
    (n ≠ ROOT ∧ m ≠ ROOT ∧ m ∉ e.ancestors n ∧ n ∉ e.ancestors m ∧ pn ≠ pm →
      ∃ f, e.swap n m = some f ∧
        f.node n = { e.node n with parent := some pm, key := (e.node m).key } ∧
        f.node m = { e.node m with parent := some pn, key := (e.node n).key } ∧
        f.node pn = (e.node pn).replaceChild n m ∧ f.node pm = (e.node pm).replaceChild m n ∧
        (∀ h, h ≠ n → h ≠ m → h ≠ pn → h ≠ pm → f.node h = e.node h) ∧
        f = { e with nodes := f.nodes }) ∧
    (¬ (n ≠ ROOT ∧ m ≠ ROOT ∧ m ∉ e.ancestors n ∧ n ∉ e.ancestors m ∧ pn ≠ pm) → e.swap n m = none)

/-- 40_tree R136: LogSwap appends an entry, or ends in FAULT_INTERNAL when the log is full. -/
def Obligations.SwapLogAppends : Prop :=
  ∀ (e : Engine) (n m : Handle),
    (∀ i : Fin swaplogN, i.val = e.swapcnt →
      ∃ f, e.logSwap n m = .done f ∧ f.swapcnt = e.swapcnt + 1 ∧ f.swaplog.get i = { n := some n, m := some m } ∧
        (∀ j : Fin swaplogN, j ≠ i → f.swaplog.get j = e.swaplog.get j) ∧
        f = { e with swapcnt := f.swapcnt, swaplog := f.swaplog }) ∧
    (e.swapcnt = 512 → e.logSwap n m = .internal e)

/-- 40_tree R128: every path of a tree has at most 256 bits, so PathTo's climb always reaches the root. -/
def Obligations.PathsFitThePathBuffer : Prop :=
  ∀ (e : Engine) (h : Handle), TreeShape e → e.InTree h →
    (e.pathTo h).length ≤ 256 ∧ (e.pathTo h).length = (e.ancestors h).length ∧ (h ≠ ROOT → ROOT ∈ e.ancestors h)

/-- 40_tree R139, R141: an update counts its byte: the root gains exactly 1, the byte's leaf gains exactly 1 (a new leaf
starts from 0), and every other leaf keeps its weight. -/
def Obligations.UpdateCountsTheByte : Prop :=
  ∀ (e f : Engine) (b : Byte), TreeShape e → e.updateTree b = .done f →
    (f.node ROOT).weight = (e.node ROOT).weight + 1 ∧
    (∃ h, f.leafOf b = some h ∧ (f.node h).kind = .leaf b ∧
      (f.node h).weight = (match e.leafOf b with | none => 0 | some h' => (e.node h').weight) + 1) ∧
    (∀ (c : Byte) (h : Handle), c ≠ b → e.leafOf c = some h →
      f.leafOf c = some h ∧ (f.node h).kind = .leaf c ∧ (f.node h).weight = (e.node h).weight)

/-- 40_tree R140: UpdateTree depends only on the tree before it and on the byte; the swap log it leaves is the same up to
SWAPCNT. -/
def Obligations.UpdateDependsOnlyOnTheTree : Prop :=
  ∀ (e f e' : Engine) (b : Byte), SameTree e f → e.updateTree b = .done e' →
    ∃ f', f.updateTree b = .done f' ∧ SameTree e' f' ∧ f'.swapcnt = e'.swapcnt ∧
      (∀ i : Fin swaplogN, i.val < e'.swapcnt → f'.swaplog.get i = e'.swaplog.get i) ∧
      SamePath f f' ∧ SameWriter f f' ∧ SameReader f f' ∧ f'.fault = f.fault ∧ f'.lastrsp = f.lastrsp

/-- 40_tree R143: UPD runs UpdateTree and nothing else, and responds OK with the byte, and with LIT = 1 exactly for a new byte; a
FAULT_INTERNAL of UpdateTree is recorded with the tree part-way through the walk (60_exceptions R251). -/
def Obligations.UpdUpdatesTheTree : Prop :=
  ∀ (b : Byte) (s : State) (e : Engine), s.eng.fault = none → (s.eng.node ROOT).weight ≠ wmax s.width →
    (s.eng.updateTree b = .done e →
      ∃ t, exec (.upd b) s = .next t ∧ Answered s t ∧
        t.eng = { e with lastrsp := responseWord .ok b 0 (s.eng.leafOf b).isNone } ∧
        t.ports = { s.ports with responses := t.ports.responses }) ∧
    (s.eng.updateTree b = .internal e →
      ∃ t, exec (.upd b) s = .next t ∧ Answered s t ∧ t.eng = { e with fault := some .internal, lastrsp := 0xD#32 } ∧
        t.ports = { s.ports with responses := t.ports.responses })

/-- 10_state R30: a lookup entry, once valid, is never written again but by INIT or reset. -/
def Obligations.LookupEntriesAreKept : Prop :=
  ∀ (i : Instr) (s t : State) (b : Byte) (h : Handle), i ≠ .init → exec i s = .next t → s.eng.leafOf b = some h →
    t.eng.leafOf b = some h

/-! ## The encoder -/

/-- 42_encoder R180, R181: ENC writes the codeword of the byte for the tree before the command, records its path part, updates
the tree, and responds OK with the byte, the bit count, and LIT = 1 exactly for a new byte; the reader, the source, CLOSED and
FAULT are left alone. -/
def Obligations.EncWritesTheCodewordAndUpdates : Prop :=
  ∀ (b : Byte) (s : State) (e : Engine), s.eng.fault = none → s.eng.closed = false →
    (s.eng.node ROOT).weight ≠ wmax s.width → RegsInRange s.eng → s.SinkAccepts → s.eng.updateTree b = .done e →
    ∃ t, exec (.enc b) s = .next t ∧ Answered s t ∧
      t.eng.lastrsp = responseWord .ok b (s.eng.codeword b).length (s.eng.leafOf b).isNone ∧
      t.written = s.written ++ s.eng.codeword b ∧ t.eng.wcnt ≤ 7 ∧
      SameTree e t.eng ∧ SameSwapLog e t.eng ∧
      HoldsPath (s.eng.pathTo (s.eng.codeNode b)) s.eng t.eng ∧
      SameReader s.eng t.eng ∧ t.eng.closed = false ∧ t.eng.fault = none ∧
      t.ports = { s.ports with
        sink := t.ports.sink, sinkAnswers := t.ports.sinkAnswers, responses := t.ports.responses }

/-- 42_encoder R183: a sink failure ends ENC in FAULT_SNK_IO at that WriteBit: the byte offered is lost, the buffer is empty,
the tree is the tree before the command, and PATH holds the codeword's path part. When the sink accepts `k` bytes and refuses the
next, the sink's bytes are those of before and the `k` bytes completed, whose bits are what was pending and then the codeword's;
the refused byte is not among them. -/
def Obligations.EncReportsSinkFailure : Prop :=
  (∀ (b : Byte) (s u : State) (c : FaultCode), s.eng.fault = none → s.eng.closed = false →
    (s.eng.node ROOT).weight ≠ wmax s.width →
    writeBits (s.eng.codeword b) { s with eng := s.eng.recordPath (s.eng.pathTo (s.eng.codeNode b)) } = .raised c u →
    ∃ t, exec (.enc b) s = .next t ∧ Answered s t ∧ t.eng.fault = some .snkIo ∧ t.eng.lastrsp = 9#32 ∧
      t.eng.wbuf = 0#8 ∧ t.eng.wcnt = 0 ∧ t.ports.sink = u.ports.sink ∧ SameTree s.eng t.eng ∧ SameSwapLog s.eng t.eng ∧
      HoldsPath (s.eng.pathTo (s.eng.codeNode b)) s.eng t.eng ∧ SameReader s.eng t.eng ∧ t.eng.closed = false) ∧
  (∀ (b : Byte) (s : State) (k : Nat) (rest : List SnkAnswer), s.eng.fault = none → s.eng.closed = false →
    (s.eng.node ROOT).weight ≠ wmax s.width → s.eng.wcnt ≤ 7 →
    s.ports.sinkAnswers = List.replicate k .ok ++ .err :: rest →
    8 * (k + 1) ≤ s.eng.wcnt + (s.eng.codeword b).length →
    ∃ t, exec (.enc b) s = .next t ∧ Answered s t ∧
      t.eng = { s.eng with
        wbuf := 0#8, wcnt := 0, pathlen := t.eng.pathlen, path := t.eng.path, fault := some .snkIo, lastrsp := 9#32 } ∧
      HoldsPath (s.eng.pathTo (s.eng.codeNode b)) s.eng t.eng ∧
      t.ports = { s.ports with sinkAnswers := rest, sink := t.ports.sink, responses := t.ports.responses } ∧
      t.ports.sinkBytes.length = s.ports.sinkBytes.length + k ∧
      wireBits t.ports.sinkBytes = (s.written ++ s.eng.codeword b).take (8 * (s.ports.sinkBytes.length + k)))

/-- 42_encoder R182: the first ENC after reset writes exactly the 8 literal bits, for every byte; 40_tree R131, R135: the tree is
then the root of weight 1 over the new NYT and the byte's leaf. That the sink of State.reset, to which nothing is connected,
takes the byte is the model's choice (log entry 1). -/
def Obligations.FirstEncodeCostsEightBits : Prop :=
  ∀ b : Byte, ∃ t, exec (.enc b) State.reset = .next t ∧ t.eng.lastrsp = responseWord .ok b 8 true ∧
    t.ports.sink = [.byte b] ∧ t.eng.wcnt = 0 ∧
    t.eng.node 0 = { kind := .internal 1 2, weight := 1, key := 767, parent := none } ∧
    t.eng.node 1 = { kind := .nyt, weight := 0, key := 766, parent := some 0 } ∧
    t.eng.node 2 = { kind := .leaf b, weight := 1, key := 765, parent := some 0 }

/-- 42_encoder R181, R182, 70_reset_and_hazards R283: ENC codes a byte in at most 264 bits and completes at most 33 sink bytes. -/
def Obligations.EncBoundsItsTransactions : Prop :=
  ∀ (b : Byte) (s t : State), RegsInRange s.eng → exec (.enc b) s = .next t →
    (s.eng.codeword b).length ≤ 264 ∧ t.ports.sink.length ≤ s.ports.sink.length + 33

/-! ## The decoder -/

/-- 43_decoder R190 to R194, R204: DEC inverts ENC. From any tree, when the bits to come begin with the codeword of a byte, DEC
consumes exactly those bits, fetching a byte only when it needs one of its bits, responds OK with that byte, the bit count and LIT
exactly for a new byte, records the path part, and updates the tree as ENC does; the writer, CLOSED and FAULT are left alone. -/
def Obligations.DecInvertsEnc : Prop :=
  ∀ (b : Byte) (s : State) (e : Engine) (bytes : List Byte) (rest : List SrcAnswer) (more : List Bool),
    TreeShape s.eng → s.eng.fault = none → (s.eng.node ROOT).weight ≠ wmax s.width → s.eng.rcnt ≤ 7 →
    s.eng.srcEof = false → s.ports.source = bytes.map .byte ++ rest →
    s.eng.buffered ++ wireBits bytes = s.eng.codeword b ++ more → more.length < 8 →
    s.eng.updateTree b = .done e →
    ∃ t, exec .dec s = .next t ∧ Answered s t ∧
      t.eng.lastrsp = responseWord .ok b (s.eng.codeword b).length (s.eng.leafOf b).isNone ∧
      t.eng.buffered = more ∧ t.eng.srcEof = false ∧
      SameTree e t.eng ∧ SameSwapLog e t.eng ∧
      HoldsPath (s.eng.pathTo (s.eng.codeNode b)) s.eng t.eng ∧
      SameWriter s.eng t.eng ∧ t.eng.fault = none ∧
      t.ports = { s.ports with source := rest, responses := t.ports.responses }

/-- 43_decoder R193: a literal for a byte that has a leaf makes DEC raise FAULT_DUPLIT before any tree change; its bits stay
consumed and PATH is unchanged (60_exceptions R245). -/
def Obligations.DecRefusesDuplicateLiteral : Prop :=
  ∀ (v : Byte) (s : State) (bytes : List Byte) (rest : List SrcAnswer) (more : List Bool) (h : Handle),
    TreeShape s.eng → s.eng.fault = none → (s.eng.node ROOT).weight ≠ wmax s.width → s.eng.rcnt ≤ 7 →
    s.eng.srcEof = false → s.ports.source = bytes.map .byte ++ rest →
    s.eng.buffered ++ wireBits bytes = s.eng.pathTo s.eng.nyth ++ msbBits v ++ more → more.length < 8 →
    s.eng.leafOf v = some h →
    ∃ t, exec .dec s = .next t ∧ Answered s t ∧ t.eng.lastrsp = 0xB#32 ∧ t.eng.fault = some .duplit ∧
      t.eng.buffered = more ∧ t.ports.source = rest ∧ SameTree s.eng t.eng ∧ SamePath s.eng t.eng ∧
      SameSwapLog s.eng t.eng ∧ SameWriter s.eng t.eng

/-- 43_decoder R197, R198, R202: with no bit buffered and the source exhausted, DEC responds EOS with LEN = 0, latches SRC_EOF, and
changes nothing else, however often it is issued. -/
def Obligations.DecReportsEndOfStream : Prop :=
  ∀ (s : State) (l r : Handle), s.eng.fault = none → (s.eng.node ROOT).weight ≠ wmax s.width →
    (s.eng.node ROOT).kind = .internal l r ∨ (s.eng.node ROOT).kind = .nyt → s.eng.rcnt = 0 →
    s.eng.srcEof = true ∨ s.SourceAtEnd →
    ∃ t, exec .dec s = .next t ∧ Answered s t ∧
      t.eng = { s.eng with srcEof := true, lastrsp := 1#32 } ∧
      t.ports.source = (if s.eng.srcEof then s.ports.source else s.ports.source.tail) ∧ t.ports.sink = s.ports.sink

/-- 43_decoder R196, R199: an attempt that finds only 0 bits left in the last byte, and the source exhausted, never ends in
FAULT_TRUNC or FAULT_DUPLIT: it decodes a byte the padding traces, or responds EOS with all those bits consumed and the tree as it
was. -/
def Obligations.PaddingNeverLooksTruncated : Prop :=
  ∀ s : State, Inv s → s.eng.fault = none → (s.eng.node ROOT).weight ≠ wmax s.width →
    s.eng.buffered = List.replicate s.eng.rcnt false → s.eng.srcEof = true ∨ s.SourceAtEnd →
    ∃ t, exec .dec s = .next t ∧ Answered s t ∧
      ((t.code = 0x0#4 ∧ t.eng.rcnt < s.eng.rcnt) ∨
       (t.eng.lastrsp = responseWord .eos 0#8 s.eng.rcnt false ∧ t.eng.rcnt = 0 ∧ t.eng.srcEof = true ∧
        t.eng.fault = none ∧ SameTree s.eng t.eng ∧ SamePath s.eng t.eng ∧ SameSwapLog s.eng t.eng))

/-- 43_decoder R196, 60_exceptions R248: when the source ends inside the attempt, after some but not all of its bits, and a byte
was fetched for it or a consumed bit was 1, DEC raises FAULT_TRUNC, with no partial byte, RCNT = 0, SRC_EOF = 1, and the tree and
the path unchanged. -/
def Obligations.DecReportsTruncation : Prop :=
  ∀ (s : State) (bytes : List Byte) (tail : List SrcAnswer) (done missing : List Bool),
    TreeShape s.eng → s.eng.fault = none → (s.eng.node ROOT).weight ≠ wmax s.width → s.eng.rcnt ≤ 7 →
    s.eng.srcEof = false → s.ports.source = bytes.map .byte ++ tail → tail.head? = none ∨ tail.head? = some .eof →
    s.eng.buffered ++ wireBits bytes = done → s.eng.Attempt (done ++ missing) → missing ≠ [] →
    bytes ≠ [] ∨ true ∈ done →
    ∃ t, exec .dec s = .next t ∧ Answered s t ∧
      t.eng = { s.eng with
        rbuf := bytes.getLast?.getD s.eng.rbuf, rcnt := 0, srcEof := true, fault := some .trunc, lastrsp := 0xA#32 } ∧
      t.ports = { s.ports with source := tail.tail, responses := t.ports.responses }

/-- 43_decoder R200, 41_bitstream R167, 60_exceptions R246: when the source fails inside the attempt, DEC raises FAULT_SRC_IO;
the bits consumed are lost, the tree, the path, the swap log and the writer are unchanged, and RBUF keeps the last byte fetched. -/
def Obligations.DecReportsSourceFailure : Prop :=
  ∀ (s : State) (bytes : List Byte) (rest : List SrcAnswer) (done missing : List Bool),
    TreeShape s.eng → s.eng.fault = none → (s.eng.node ROOT).weight ≠ wmax s.width → s.eng.rcnt ≤ 7 →
    s.eng.srcEof = false → s.ports.source = bytes.map .byte ++ .err :: rest →
    s.eng.buffered ++ wireBits bytes = done → s.eng.Attempt (done ++ missing) → missing ≠ [] →
    ∃ t, exec .dec s = .next t ∧ Answered s t ∧
      t.eng = { s.eng with rbuf := bytes.getLast?.getD s.eng.rbuf, rcnt := 0, fault := some .srcIo, lastrsp := 8#32 } ∧
      t.ports = { s.ports with source := rest, responses := t.ports.responses }

/-! ## Invariants -/

/-- 10_state R31 to R34: every step keeps the stream, path and log registers in their ranges; and no step changes the weight
width (00_scope R8). -/
def Obligations.StepKeepsRegistersInRange : Prop :=
  ∀ s t : State, step s = .next t → t.width = s.width ∧ (RegsInRange s.eng → RegsInRange t.eng)

/-- 10_state R24, R25, R28 to R30, 40_tree R121, R122, R129: every step keeps the tree a tree, also one that ends in a fault. -/
def Obligations.StepKeepsTheTreeShape : Prop :=
  ∀ s t : State, TreeShape s.eng → step s = .next t → TreeShape t.eng

/-- 40_tree R137 to R139: every step keeps the weights, the sibling property and the bound on the weights (two fields of the
invariant are the model's, log entry 15). -/
def Obligations.StepKeepsTheSiblingProperty : Prop :=
  ∀ s t : State, Inv s → step s = .next t → Inv t

/-- 40_tree R138, R142, 60_exceptions R251: on every tree that meets the invariant UpdateTree runs to its end: no swap is
refused, the swap log does not fill, and FAULT_INTERNAL is not raised (two fields of the invariant are the model's, log
entry 15). -/
def Obligations.UpdateTreeNeverEndsInInternalFault : Prop :=
  ∀ (e : Engine) (b : Byte), TreeShape e → WeightOrder e → ∃ f, e.updateTree b = .done f

/-- 10_state R40: the state after reset meets the invariant, for every weight width. -/
def Obligations.ResetMeetsTheInvariant : Prop :=
  ∀ w : WeightWidth, Inv { State.reset with width := w }

/-- 40_tree R138, R139: the invariant gives the sibling property as the spec states it, (a) to (e), and bounds every weight by
WMAX. -/
def Obligations.InvariantGivesTheSiblingProperty : Prop :=
  ∀ s : State, Inv s → (∀ h, (s.eng.node h).weight ≤ wmax s.width) ∧
    (∀ a b, s.eng.InTree a → s.eng.InTree b → a ≠ b → (s.eng.node a).key ≠ (s.eng.node b).key) ∧
    (∀ p l r, (s.eng.node p).kind = .internal l r →
      (s.eng.node l).key < (s.eng.node p).key ∧ (s.eng.node r).key < (s.eng.node p).key) ∧
    (∀ a b, s.eng.InTree a → s.eng.InTree b → ¬ s.eng.Siblings a b → (s.eng.node b).key < (s.eng.node a).key →
      (s.eng.node b).weight ≤ (s.eng.node a).weight) ∧
    (∀ h, s.eng.InTree h → ((s.eng.node h).weight = 0 ↔ h = s.eng.nyth)) ∧
    (∀ a b x, s.eng.Siblings a b → s.eng.InTree x → x ≠ a → x ≠ b →
      ¬ ((s.eng.node a).key < (s.eng.node x).key ∧ (s.eng.node x).key < (s.eng.node b).key) ∧
      ¬ (((s.eng.node a).weight < (s.eng.node x).weight ∨
            ((s.eng.node a).weight = (s.eng.node x).weight ∧ (s.eng.node a).key < (s.eng.node x).key)) ∧
         ((s.eng.node x).weight < (s.eng.node b).weight ∨
            ((s.eng.node x).weight = (s.eng.node b).weight ∧ (s.eng.node x).key < (s.eng.node b).key))))
end

