-- ==== Sys2Proof/Laws/State.lean ====
section
/-! SUPPORT. One lemma per field per update of the state (10_state, 20_memory R60): what each update writes, and what it
leaves alone. -/

namespace Sys2Proof.Machine

open Sys2Proof.Config

/-! `Engine.setNode` writes the arena only -/

@[simp] theorem setNode_nyth (e : Engine) (h : Handle) (nd : Node) : (e.setNode h nd).nyth = e.nyth := rfl
@[simp] theorem setNode_nsym (e : Engine) (h : Handle) (nd : Node) : (e.setNode h nd).nsym = e.nsym := rfl
@[simp] theorem setNode_keylast (e : Engine) (h : Handle) (nd : Node) : (e.setNode h nd).keylast = e.keylast := rfl
@[simp] theorem setNode_lookup (e : Engine) (h : Handle) (nd : Node) : (e.setNode h nd).lookup = e.lookup := rfl
@[simp] theorem setNode_pathlen (e : Engine) (h : Handle) (nd : Node) : (e.setNode h nd).pathlen = e.pathlen := rfl
@[simp] theorem setNode_path (e : Engine) (h : Handle) (nd : Node) : (e.setNode h nd).path = e.path := rfl
@[simp] theorem setNode_swapcnt (e : Engine) (h : Handle) (nd : Node) : (e.setNode h nd).swapcnt = e.swapcnt := rfl
@[simp] theorem setNode_swaplog (e : Engine) (h : Handle) (nd : Node) : (e.setNode h nd).swaplog = e.swaplog := rfl
@[simp] theorem setNode_wbuf (e : Engine) (h : Handle) (nd : Node) : (e.setNode h nd).wbuf = e.wbuf := rfl
@[simp] theorem setNode_wcnt (e : Engine) (h : Handle) (nd : Node) : (e.setNode h nd).wcnt = e.wcnt := rfl
@[simp] theorem setNode_closed (e : Engine) (h : Handle) (nd : Node) : (e.setNode h nd).closed = e.closed := rfl
@[simp] theorem setNode_rbuf (e : Engine) (h : Handle) (nd : Node) : (e.setNode h nd).rbuf = e.rbuf := rfl
@[simp] theorem setNode_rcnt (e : Engine) (h : Handle) (nd : Node) : (e.setNode h nd).rcnt = e.rcnt := rfl
@[simp] theorem setNode_srcEof (e : Engine) (h : Handle) (nd : Node) : (e.setNode h nd).srcEof = e.srcEof := rfl
@[simp] theorem setNode_fault (e : Engine) (h : Handle) (nd : Node) : (e.setNode h nd).fault = e.fault := rfl
@[simp] theorem setNode_lastrsp (e : Engine) (h : Handle) (nd : Node) : (e.setNode h nd).lastrsp = e.lastrsp := rfl

/-! `Engine.recordPath` writes the path registers only -/

@[simp] theorem recordPath_nodes (e : Engine) (p : List Bool) : (e.recordPath p).nodes = e.nodes := rfl
@[simp] theorem recordPath_nyth (e : Engine) (p : List Bool) : (e.recordPath p).nyth = e.nyth := rfl
@[simp] theorem recordPath_nsym (e : Engine) (p : List Bool) : (e.recordPath p).nsym = e.nsym := rfl
@[simp] theorem recordPath_keylast (e : Engine) (p : List Bool) : (e.recordPath p).keylast = e.keylast := rfl
@[simp] theorem recordPath_lookup (e : Engine) (p : List Bool) : (e.recordPath p).lookup = e.lookup := rfl
@[simp] theorem recordPath_pathlen (e : Engine) (p : List Bool) : (e.recordPath p).pathlen = p.length := rfl
@[simp] theorem recordPath_path (e : Engine) (p : List Bool) : (e.recordPath p).path = overlay p e.path := rfl
@[simp] theorem recordPath_swapcnt (e : Engine) (p : List Bool) : (e.recordPath p).swapcnt = e.swapcnt := rfl
@[simp] theorem recordPath_swaplog (e : Engine) (p : List Bool) : (e.recordPath p).swaplog = e.swaplog := rfl
@[simp] theorem recordPath_wbuf (e : Engine) (p : List Bool) : (e.recordPath p).wbuf = e.wbuf := rfl
@[simp] theorem recordPath_wcnt (e : Engine) (p : List Bool) : (e.recordPath p).wcnt = e.wcnt := rfl
@[simp] theorem recordPath_closed (e : Engine) (p : List Bool) : (e.recordPath p).closed = e.closed := rfl
@[simp] theorem recordPath_rbuf (e : Engine) (p : List Bool) : (e.recordPath p).rbuf = e.rbuf := rfl
@[simp] theorem recordPath_rcnt (e : Engine) (p : List Bool) : (e.recordPath p).rcnt = e.rcnt := rfl
@[simp] theorem recordPath_srcEof (e : Engine) (p : List Bool) : (e.recordPath p).srcEof = e.srcEof := rfl
@[simp] theorem recordPath_fault (e : Engine) (p : List Bool) : (e.recordPath p).fault = e.fault := rfl
@[simp] theorem recordPath_lastrsp (e : Engine) (p : List Bool) : (e.recordPath p).lastrsp = e.lastrsp := rfl

/-! `Engine.clearWriter` empties the writer's buffer -/

@[simp] theorem clearWriter_nodes (e : Engine) : e.clearWriter.nodes = e.nodes := rfl
@[simp] theorem clearWriter_nyth (e : Engine) : e.clearWriter.nyth = e.nyth := rfl
@[simp] theorem clearWriter_nsym (e : Engine) : e.clearWriter.nsym = e.nsym := rfl
@[simp] theorem clearWriter_keylast (e : Engine) : e.clearWriter.keylast = e.keylast := rfl
@[simp] theorem clearWriter_lookup (e : Engine) : e.clearWriter.lookup = e.lookup := rfl
@[simp] theorem clearWriter_pathlen (e : Engine) : e.clearWriter.pathlen = e.pathlen := rfl
@[simp] theorem clearWriter_path (e : Engine) : e.clearWriter.path = e.path := rfl
@[simp] theorem clearWriter_swapcnt (e : Engine) : e.clearWriter.swapcnt = e.swapcnt := rfl
@[simp] theorem clearWriter_swaplog (e : Engine) : e.clearWriter.swaplog = e.swaplog := rfl
@[simp] theorem clearWriter_wbuf (e : Engine) : e.clearWriter.wbuf = 0#8 := rfl
@[simp] theorem clearWriter_wcnt (e : Engine) : e.clearWriter.wcnt = 0 := rfl
@[simp] theorem clearWriter_closed (e : Engine) : e.clearWriter.closed = e.closed := rfl
@[simp] theorem clearWriter_rbuf (e : Engine) : e.clearWriter.rbuf = e.rbuf := rfl
@[simp] theorem clearWriter_rcnt (e : Engine) : e.clearWriter.rcnt = e.rcnt := rfl
@[simp] theorem clearWriter_srcEof (e : Engine) : e.clearWriter.srcEof = e.srcEof := rfl
@[simp] theorem clearWriter_fault (e : Engine) : e.clearWriter.fault = e.fault := rfl
@[simp] theorem clearWriter_lastrsp (e : Engine) : e.clearWriter.lastrsp = e.lastrsp := rfl

/-! The registers and the ports of a state -/

@[simp] theorem withEng_eng (s : State) (e : Engine) : (s.withEng e).eng = e := rfl
@[simp] theorem withEng_ports (s : State) (e : Engine) : (s.withEng e).ports = s.ports := rfl
@[simp] theorem withEng_width (s : State) (e : Engine) : (s.withEng e).width = s.width := rfl
@[simp] theorem withEng_withEng (s : State) (e f : Engine) : (s.withEng e).withEng f = s.withEng f := rfl
@[simp] theorem withEng_self (s : State) : s.withEng s.eng = s := rfl
@[simp] theorem wait_eng (s : State) (st : PortStatus) : (s.wait st).eng = s.eng := rfl
@[simp] theorem wait_width (s : State) (st : PortStatus) : (s.wait st).width = s.width := rfl
@[simp] theorem wait_host (s : State) (st : PortStatus) : (s.wait st).ports.host = s.ports.host := rfl
@[simp] theorem wait_status (s : State) (st : PortStatus) : (s.wait st).ports.status = st := rfl
@[simp] theorem wait_source (s : State) (st : PortStatus) : (s.wait st).ports.source = s.ports.source := rfl
@[simp] theorem wait_sinkAnswers (s : State) (st : PortStatus) : (s.wait st).ports.sinkAnswers = s.ports.sinkAnswers := rfl
@[simp] theorem wait_sink (s : State) (st : PortStatus) : (s.wait st).ports.sink = s.ports.sink := rfl
@[simp] theorem wait_responses (s : State) (st : PortStatus) : (s.wait st).ports.responses = s.ports.responses := rfl
@[simp] theorem wait_queryData (s : State) (st : PortStatus) : (s.wait st).ports.queryData = s.ports.queryData := rfl
@[simp] theorem wait_draws (s : State) (st : PortStatus) : (s.wait st).ports.draws = s.ports.draws := rfl
@[simp] theorem takeAction_eng (s : State) (rest : List HostAction) : (s.takeAction rest).eng = s.eng := rfl
@[simp] theorem takeAction_width (s : State) (rest : List HostAction) : (s.takeAction rest).width = s.width := rfl
@[simp] theorem takeAction_host (s : State) (rest : List HostAction) : (s.takeAction rest).ports.host = rest := rfl
@[simp] theorem takeAction_status (s : State) (rest : List HostAction) : (s.takeAction rest).ports.status = s.ports.status := rfl
@[simp] theorem takeAction_source (s : State) (rest : List HostAction) : (s.takeAction rest).ports.source = s.ports.source := rfl
@[simp] theorem takeAction_sinkAnswers (s : State) (rest : List HostAction) : (s.takeAction rest).ports.sinkAnswers = s.ports.sinkAnswers := rfl
@[simp] theorem takeAction_sink (s : State) (rest : List HostAction) : (s.takeAction rest).ports.sink = s.ports.sink := rfl
@[simp] theorem takeAction_responses (s : State) (rest : List HostAction) : (s.takeAction rest).ports.responses = s.ports.responses := rfl
@[simp] theorem takeAction_queryData (s : State) (rest : List HostAction) : (s.takeAction rest).ports.queryData = s.ports.queryData := rfl
@[simp] theorem takeAction_draws (s : State) (rest : List HostAction) : (s.takeAction rest).ports.draws = s.ports.draws := rfl

/-! `complete` writes LASTRSP and the response port -/

@[simp] theorem complete_width (r : Word) (s : State) : (complete r s).width = s.width := rfl
@[simp] theorem complete_nodes (r : Word) (s : State) : (complete r s).eng.nodes = s.eng.nodes := rfl
@[simp] theorem complete_nyth (r : Word) (s : State) : (complete r s).eng.nyth = s.eng.nyth := rfl
@[simp] theorem complete_nsym (r : Word) (s : State) : (complete r s).eng.nsym = s.eng.nsym := rfl
@[simp] theorem complete_keylast (r : Word) (s : State) : (complete r s).eng.keylast = s.eng.keylast := rfl
@[simp] theorem complete_lookup (r : Word) (s : State) : (complete r s).eng.lookup = s.eng.lookup := rfl
@[simp] theorem complete_pathlen (r : Word) (s : State) : (complete r s).eng.pathlen = s.eng.pathlen := rfl
@[simp] theorem complete_path (r : Word) (s : State) : (complete r s).eng.path = s.eng.path := rfl
@[simp] theorem complete_swapcnt (r : Word) (s : State) : (complete r s).eng.swapcnt = s.eng.swapcnt := rfl
@[simp] theorem complete_swaplog (r : Word) (s : State) : (complete r s).eng.swaplog = s.eng.swaplog := rfl
@[simp] theorem complete_wbuf (r : Word) (s : State) : (complete r s).eng.wbuf = s.eng.wbuf := rfl
@[simp] theorem complete_wcnt (r : Word) (s : State) : (complete r s).eng.wcnt = s.eng.wcnt := rfl
@[simp] theorem complete_closed (r : Word) (s : State) : (complete r s).eng.closed = s.eng.closed := rfl
@[simp] theorem complete_rbuf (r : Word) (s : State) : (complete r s).eng.rbuf = s.eng.rbuf := rfl
@[simp] theorem complete_rcnt (r : Word) (s : State) : (complete r s).eng.rcnt = s.eng.rcnt := rfl
@[simp] theorem complete_srcEof (r : Word) (s : State) : (complete r s).eng.srcEof = s.eng.srcEof := rfl
@[simp] theorem complete_fault (r : Word) (s : State) : (complete r s).eng.fault = s.eng.fault := rfl
@[simp] theorem complete_lastrsp (r : Word) (s : State) : (complete r s).eng.lastrsp = r := rfl
@[simp] theorem complete_port_host (r : Word) (s : State) : (complete r s).ports.host = s.ports.host := rfl
@[simp] theorem complete_port_status (r : Word) (s : State) : (complete r s).ports.status = s.ports.status := rfl
@[simp] theorem complete_port_source (r : Word) (s : State) : (complete r s).ports.source = s.ports.source := rfl
@[simp] theorem complete_port_sinkAnswers (r : Word) (s : State) : (complete r s).ports.sinkAnswers = s.ports.sinkAnswers := rfl
@[simp] theorem complete_port_sink (r : Word) (s : State) : (complete r s).ports.sink = s.ports.sink := rfl
@[simp] theorem complete_port_responses (r : Word) (s : State) : (complete r s).ports.responses = s.ports.responses ++ [r] := rfl
@[simp] theorem complete_port_queryData (r : Word) (s : State) : (complete r s).ports.queryData = s.ports.queryData := rfl
@[simp] theorem complete_port_draws (r : Word) (s : State) : (complete r s).ports.draws = s.ports.draws := rfl

/-! `respond` and `raise` -/

@[simp] theorem respond_width (c : Code) (d : Byte) (n : Nat) (l : Bool) (s : State) : (respond c d n l s).width = s.width := rfl
@[simp] theorem respond_nodes (c : Code) (d : Byte) (n : Nat) (l : Bool) (s : State) : (respond c d n l s).eng.nodes = s.eng.nodes := rfl
@[simp] theorem respond_nyth (c : Code) (d : Byte) (n : Nat) (l : Bool) (s : State) : (respond c d n l s).eng.nyth = s.eng.nyth := rfl
@[simp] theorem respond_nsym (c : Code) (d : Byte) (n : Nat) (l : Bool) (s : State) : (respond c d n l s).eng.nsym = s.eng.nsym := rfl
@[simp] theorem respond_keylast (c : Code) (d : Byte) (n : Nat) (l : Bool) (s : State) : (respond c d n l s).eng.keylast = s.eng.keylast := rfl
@[simp] theorem respond_lookup (c : Code) (d : Byte) (n : Nat) (l : Bool) (s : State) : (respond c d n l s).eng.lookup = s.eng.lookup := rfl
@[simp] theorem respond_pathlen (c : Code) (d : Byte) (n : Nat) (l : Bool) (s : State) : (respond c d n l s).eng.pathlen = s.eng.pathlen := rfl
@[simp] theorem respond_path (c : Code) (d : Byte) (n : Nat) (l : Bool) (s : State) : (respond c d n l s).eng.path = s.eng.path := rfl
@[simp] theorem respond_swapcnt (c : Code) (d : Byte) (n : Nat) (l : Bool) (s : State) : (respond c d n l s).eng.swapcnt = s.eng.swapcnt := rfl
@[simp] theorem respond_swaplog (c : Code) (d : Byte) (n : Nat) (l : Bool) (s : State) : (respond c d n l s).eng.swaplog = s.eng.swaplog := rfl
@[simp] theorem respond_wbuf (c : Code) (d : Byte) (n : Nat) (l : Bool) (s : State) : (respond c d n l s).eng.wbuf = s.eng.wbuf := rfl
@[simp] theorem respond_wcnt (c : Code) (d : Byte) (n : Nat) (l : Bool) (s : State) : (respond c d n l s).eng.wcnt = s.eng.wcnt := rfl
@[simp] theorem respond_closed (c : Code) (d : Byte) (n : Nat) (l : Bool) (s : State) : (respond c d n l s).eng.closed = s.eng.closed := rfl
@[simp] theorem respond_rbuf (c : Code) (d : Byte) (n : Nat) (l : Bool) (s : State) : (respond c d n l s).eng.rbuf = s.eng.rbuf := rfl
@[simp] theorem respond_rcnt (c : Code) (d : Byte) (n : Nat) (l : Bool) (s : State) : (respond c d n l s).eng.rcnt = s.eng.rcnt := rfl
@[simp] theorem respond_srcEof (c : Code) (d : Byte) (n : Nat) (l : Bool) (s : State) : (respond c d n l s).eng.srcEof = s.eng.srcEof := rfl
@[simp] theorem respond_fault (c : Code) (d : Byte) (n : Nat) (l : Bool) (s : State) : (respond c d n l s).eng.fault = s.eng.fault := rfl
@[simp] theorem respond_lastrsp (c : Code) (d : Byte) (n : Nat) (l : Bool) (s : State) : (respond c d n l s).eng.lastrsp = responseWord c d n l := rfl
@[simp] theorem respond_port_host (c : Code) (d : Byte) (n : Nat) (l : Bool) (s : State) : (respond c d n l s).ports.host = s.ports.host := rfl
@[simp] theorem respond_port_status (c : Code) (d : Byte) (n : Nat) (l : Bool) (s : State) : (respond c d n l s).ports.status = s.ports.status := rfl
@[simp] theorem respond_port_source (c : Code) (d : Byte) (n : Nat) (l : Bool) (s : State) : (respond c d n l s).ports.source = s.ports.source := rfl
@[simp] theorem respond_port_sinkAnswers (c : Code) (d : Byte) (n : Nat) (l : Bool) (s : State) : (respond c d n l s).ports.sinkAnswers = s.ports.sinkAnswers := rfl
@[simp] theorem respond_port_sink (c : Code) (d : Byte) (n : Nat) (l : Bool) (s : State) : (respond c d n l s).ports.sink = s.ports.sink := rfl
@[simp] theorem respond_port_responses (c : Code) (d : Byte) (n : Nat) (l : Bool) (s : State) : (respond c d n l s).ports.responses = s.ports.responses ++ [responseWord c d n l] := rfl
@[simp] theorem respond_port_queryData (c : Code) (d : Byte) (n : Nat) (l : Bool) (s : State) : (respond c d n l s).ports.queryData = s.ports.queryData := rfl
@[simp] theorem respond_port_draws (c : Code) (d : Byte) (n : Nat) (l : Bool) (s : State) : (respond c d n l s).ports.draws = s.ports.draws := rfl
@[simp] theorem raise_width (c : FaultCode) (s : State) : (raise c s).width = s.width := rfl
@[simp] theorem raise_nodes (c : FaultCode) (s : State) : (raise c s).eng.nodes = s.eng.nodes := rfl
@[simp] theorem raise_nyth (c : FaultCode) (s : State) : (raise c s).eng.nyth = s.eng.nyth := rfl
@[simp] theorem raise_nsym (c : FaultCode) (s : State) : (raise c s).eng.nsym = s.eng.nsym := rfl
@[simp] theorem raise_keylast (c : FaultCode) (s : State) : (raise c s).eng.keylast = s.eng.keylast := rfl
@[simp] theorem raise_lookup (c : FaultCode) (s : State) : (raise c s).eng.lookup = s.eng.lookup := rfl
@[simp] theorem raise_pathlen (c : FaultCode) (s : State) : (raise c s).eng.pathlen = s.eng.pathlen := rfl
@[simp] theorem raise_path (c : FaultCode) (s : State) : (raise c s).eng.path = s.eng.path := rfl
@[simp] theorem raise_swapcnt (c : FaultCode) (s : State) : (raise c s).eng.swapcnt = s.eng.swapcnt := rfl
@[simp] theorem raise_swaplog (c : FaultCode) (s : State) : (raise c s).eng.swaplog = s.eng.swaplog := rfl
@[simp] theorem raise_wbuf (c : FaultCode) (s : State) : (raise c s).eng.wbuf = s.eng.wbuf := rfl
@[simp] theorem raise_wcnt (c : FaultCode) (s : State) : (raise c s).eng.wcnt = s.eng.wcnt := rfl
@[simp] theorem raise_closed (c : FaultCode) (s : State) : (raise c s).eng.closed = s.eng.closed := rfl
@[simp] theorem raise_rbuf (c : FaultCode) (s : State) : (raise c s).eng.rbuf = s.eng.rbuf := rfl
@[simp] theorem raise_rcnt (c : FaultCode) (s : State) : (raise c s).eng.rcnt = s.eng.rcnt := rfl
@[simp] theorem raise_srcEof (c : FaultCode) (s : State) : (raise c s).eng.srcEof = s.eng.srcEof := rfl
@[simp] theorem raise_fault (c : FaultCode) (s : State) : (raise c s).eng.fault = some c := rfl
@[simp] theorem raise_lastrsp (c : FaultCode) (s : State) : (raise c s).eng.lastrsp = responseWord (.fault c) 0#8 0 false := rfl
@[simp] theorem raise_port_host (c : FaultCode) (s : State) : (raise c s).ports.host = s.ports.host := rfl
@[simp] theorem raise_port_status (c : FaultCode) (s : State) : (raise c s).ports.status = s.ports.status := rfl
@[simp] theorem raise_port_source (c : FaultCode) (s : State) : (raise c s).ports.source = s.ports.source := rfl
@[simp] theorem raise_port_sinkAnswers (c : FaultCode) (s : State) : (raise c s).ports.sinkAnswers = s.ports.sinkAnswers := rfl
@[simp] theorem raise_port_sink (c : FaultCode) (s : State) : (raise c s).ports.sink = s.ports.sink := rfl
@[simp] theorem raise_port_responses (c : FaultCode) (s : State) : (raise c s).ports.responses = s.ports.responses ++ [responseWord (.fault c) 0#8 0 false] := rfl
@[simp] theorem raise_port_queryData (c : FaultCode) (s : State) : (raise c s).ports.queryData = s.ports.queryData := rfl
@[simp] theorem raise_port_draws (c : FaultCode) (s : State) : (raise c s).ports.draws = s.ports.draws := rfl

end Sys2Proof.Machine
end

