-- ==== Sys2Proof/Laws/Ops.lean ====
section
/-! SUPPORT. What the shared operations can do (00_scope R14, 41_bitstream, 60_exceptions R241): one lemma per operation, which
later proofs cite instead of unfolding it. -/

namespace Sys2Proof.Machine

open Sys2Proof.Config

/-! Going on after a procedure -/

@[simp] theorem andThen_ok {α β : Type} (a : α) (s : State) (k : α → State → Res β) : (Res.ok a s).andThen k = k a s := rfl
@[simp] theorem andThen_raised {α β : Type} (c : FaultCode) (s : State) (k : α → State → Res β) :
    (Res.raised c s).andThen k = .raised c s := rfl
@[simp] theorem andThen_blocked {α β : Type} (s : State) (k : α → State → Res β) :
    (Res.blocked s).andThen k = .blocked s := rfl
@[simp] theorem settle_ok {α : Type} (a : α) (s : State) (k : α → State → Result) : (Res.ok a s).settle k = k a s := rfl
@[simp] theorem settle_raised {α : Type} (c : FaultCode) (s : State) (k : α → State → Result) :
    (Res.raised c s).settle k = .next (raise c s) := rfl
@[simp] theorem settle_blocked {α : Type} (s : State) (k : α → State → Result) : (Res.blocked s).settle k = .next s := rfl

/-! The prologue -/

theorem prologue_clear {s : State} (h : s.eng.fault = none) (r : Result) : prologue s r = r := by
  simp [prologue, h]

theorem prologue_faulted {s : State} {c : FaultCode} (h : s.eng.fault = some c) (r : Result) :
    prologue s r = .next (reject .errFaulted s) := by
  simp [prologue, h]

/-! States that differ in the stream registers only -/

/-- The writer's buffer, the sink and its answers have moved; `st` is the status. -/
def WriterMoved (st : PortStatus) (s t : State) : Prop :=
  ∃ wbuf wcnt ans sink, t = { s with
    eng := { s.eng with wbuf := wbuf, wcnt := wcnt }
    ports := { s.ports with sinkAnswers := ans, sink := sink, status := st } }

/-- The reader and the source have moved; `st` is the status. -/
def ReaderMoved (st : PortStatus) (s t : State) : Prop :=
  ∃ rbuf rcnt srcEof source, t = { s with
    eng := { s.eng with rbuf := rbuf, rcnt := rcnt, srcEof := srcEof }
    ports := { s.ports with source := source, status := st } }

theorem WriterMoved.refl (s : State) : WriterMoved s.ports.status s s := ⟨_, _, _, _, rfl⟩

theorem ReaderMoved.refl (s : State) : ReaderMoved s.ports.status s s := ⟨_, _, _, _, rfl⟩

theorem WriterMoved.trans {st st' : PortStatus} {s t u : State} (h : WriterMoved st s t) (h' : WriterMoved st' t u) :
    WriterMoved st' s u := by
  obtain ⟨_, _, _, _, rfl⟩ := h
  obtain ⟨_, _, _, _, rfl⟩ := h'
  exact ⟨_, _, _, _, rfl⟩

theorem ReaderMoved.trans {st st' : PortStatus} {s t u : State} (h : ReaderMoved st s t) (h' : ReaderMoved st' t u) :
    ReaderMoved st' s u := by
  obtain ⟨_, _, _, _, rfl⟩ := h
  obtain ⟨_, _, _, _, rfl⟩ := h'
  exact ⟨_, _, _, _, rfl⟩

theorem WriterMoved.status {st : PortStatus} {s t : State} (h : WriterMoved st s t) : t.ports.status = st := by
  obtain ⟨_, _, _, _, rfl⟩ := h; rfl

theorem ReaderMoved.status {st : PortStatus} {s t : State} (h : ReaderMoved st s t) : t.ports.status = st := by
  obtain ⟨_, _, _, _, rfl⟩ := h; rfl

/-! The writer -/

/-- `sinkOffer`: accepted and appended, refused with `FAULT_SNK_IO`, or never answered. -/
theorem sinkOffer_cases (ev : SinkEvent) (s : State) :
    (∃ ans, sinkOffer ev s = .ok () { s with ports := { s.ports with sinkAnswers := ans, sink := s.ports.sink ++ [ev] } } ∧
        ((s.ports.sinkAnswers = [] ∧ ans = []) ∨ s.ports.sinkAnswers = .ok :: ans)) ∨
    (∃ ans, sinkOffer ev s = .raised .snkIo { s with ports := { s.ports with sinkAnswers := ans } } ∧
        s.ports.sinkAnswers = .err :: ans) ∨
    (∃ ans kept, sinkOffer ev s = .blocked { s with ports := { s.ports with
        sinkAnswers := ans, sink := if kept then s.ports.sink ++ [ev] else s.ports.sink, status := .waitingSink } } ∧
        s.ports.sinkAnswers = .never kept :: ans) := by
  rcases h : s.ports.sinkAnswers with _ | ⟨_ | _ | kept, rest⟩
  · left; refine ⟨[], ?_, .inl ⟨rfl, rfl⟩⟩; simp [sinkOffer, h]
  · left; exact ⟨rest, by simp [sinkOffer, h], .inr rfl⟩
  · right; left; exact ⟨rest, by simp [sinkOffer, h], rfl⟩
  · right; right; exact ⟨rest, kept, by simp [sinkOffer, h, State.wait], rfl⟩

/-- `WriteBit`: the bit is taken, or the sink fails and the buffer is empty, or the sink never answers. -/
theorem writeBit_cases (x : Bool) (s : State) :
    (∃ t, writeBit x s = .ok () t ∧ WriterMoved s.ports.status s t) ∨
    (∃ t, writeBit x s = .raised .snkIo t ∧ WriterMoved s.ports.status s t ∧ t.eng.wbuf = 0#8 ∧ t.eng.wcnt = 0) ∨
    (∃ t, writeBit x s = .blocked t ∧ WriterMoved .waitingSink s t) := by
  unfold writeBit
  split
  · rcases sinkOffer_cases (.byte (shiftIn s.eng.wbuf x)) (s.withEng s.eng.clearWriter) with
      ⟨_, h, -⟩ | ⟨_, h, -⟩ | ⟨_, _, h, -⟩ <;> rw [h]
    · exact .inl ⟨_, rfl, _, _, _, _, rfl⟩
    · exact .inr (.inl ⟨_, rfl, ⟨_, _, _, _, rfl⟩, rfl, rfl⟩)
    · exact .inr (.inr ⟨_, rfl, _, _, _, _, rfl⟩)
  · exact .inl ⟨_, rfl, _, _, _, _, rfl⟩

/-- `WriteBit` of a list of bits. -/
theorem writeBits_cases (xs : List Bool) (s : State) :
    (∃ t, writeBits xs s = .ok () t ∧ WriterMoved s.ports.status s t) ∨
    (∃ t, writeBits xs s = .raised .snkIo t ∧ WriterMoved s.ports.status s t ∧ t.eng.wbuf = 0#8 ∧ t.eng.wcnt = 0) ∨
    (∃ t, writeBits xs s = .blocked t ∧ WriterMoved .waitingSink s t) := by
  induction xs generalizing s with
  | nil => exact .inl ⟨s, rfl, .refl s⟩
  | cons x xs ih =>
    unfold writeBits
    rcases writeBit_cases x s with ⟨t, h, hm⟩ | ⟨t, h, hm, hz⟩ | ⟨t, h, hm⟩ <;> rw [h]
    · simp only [andThen_ok]
      rcases ih t with ⟨u, hu, hm'⟩ | ⟨u, hu, hm', hz⟩ | ⟨u, hu, hm'⟩
      · exact .inl ⟨u, hu, by rw [← hm.status]; exact hm.trans hm'⟩
      · exact .inr (.inl ⟨u, hu, by rw [← hm.status]; exact hm.trans hm', hz⟩)
      · exact .inr (.inr ⟨u, hu, hm.trans hm'⟩)
    · exact .inr (.inl ⟨t, rfl, hm, hz⟩)
    · exact .inr (.inr ⟨t, rfl, hm⟩)

/-- `Close`: the registers move as the writer's do, and `CLOSED` is set exactly when it ends well. -/
theorem closeWriter_cases (s : State) :
    (∃ r t, closeWriter s = .ok r (t.withEng { t.eng with closed := true }) ∧ WriterMoved s.ports.status s t ∧
        t.eng.wcnt = 0) ∨
    (∃ t, closeWriter s = .raised .snkIo t ∧ WriterMoved s.ports.status s t) ∨
    (∃ t, closeWriter s = .blocked t ∧ WriterMoved .waitingSink s t) := by
  unfold closeWriter
  split
  · rcases sinkOffer_cases (.byte (s.eng.wbuf <<< (8 - s.eng.wcnt))) (s.withEng s.eng.clearWriter) with
      ⟨a, h, -⟩ | ⟨a, h, -⟩ | ⟨a, k, h, -⟩ <;> simp only [h, andThen_ok, andThen_raised, andThen_blocked]
    · rcases sinkOffer_cases .close { s with
          eng := s.eng.clearWriter
          ports := { s.ports with sinkAnswers := a, sink := s.ports.sink ++ [.byte (s.eng.wbuf <<< (8 - s.eng.wcnt))] } } with
        ⟨a', h', -⟩ | ⟨a', h', -⟩ | ⟨a', k', h', -⟩ <;>
      simp only [State.withEng] at h' ⊢ <;> rw [h']
      · exact .inl ⟨_, _, rfl, ⟨_, _, _, _, rfl⟩, rfl⟩
      · exact .inr (.inl ⟨_, rfl, _, _, _, _, rfl⟩)
      · exact .inr (.inr ⟨_, rfl, _, _, _, _, rfl⟩)
    · exact .inr (.inl ⟨_, rfl, _, _, _, _, rfl⟩)
    · exact .inr (.inr ⟨_, rfl, _, _, _, _, rfl⟩)
  · rename_i hz
    rcases sinkOffer_cases .close s with ⟨a, h, -⟩ | ⟨a, h, -⟩ | ⟨a, k, h, -⟩ <;> rw [h]
    · exact .inl ⟨_, _, rfl, ⟨_, _, _, _, rfl⟩, by simpa using hz⟩
    · exact .inr (.inl ⟨_, rfl, _, _, _, _, rfl⟩)
    · exact .inr (.inr ⟨_, rfl, _, _, _, _, rfl⟩)

/-! The reader -/

/-- `SrcRead`: a byte, the end, a failure, or no answer ever. -/
theorem srcRead_cases (s : State) :
    (∃ r src, srcRead s = .ok r { s with ports := { s.ports with source := src } }) ∨
    (∃ src, srcRead s = .blocked { s with ports := { s.ports with source := src, status := .waitingSource } } ∧
        s.ports.source = .never :: src) := by
  rcases h : s.ports.source with _ | ⟨_ | _ | _ | _, rest⟩
  · left; refine ⟨.eof, [], ?_⟩; simp [srcRead, h]; rw [← h]
  · left; exact ⟨_, rest, by simp [srcRead, h]; rfl⟩
  · left; exact ⟨_, rest, by simp [srcRead, h]; rfl⟩
  · left; exact ⟨_, rest, by simp [srcRead, h]; rfl⟩
  · right; exact ⟨rest, by simp [srcRead, h, State.wait], rfl⟩

/-- `ReadBit`: a bit, with at most 7 left; the end, with none left and `SRC_EOF` set; a failure, with none left; or no answer
ever, with none left. -/
theorem readBit_cases (s : State) :
    (∃ x t, readBit s = .ok (some x) t ∧ ReaderMoved s.ports.status s t ∧
        (t.eng.rcnt + 1 = s.eng.rcnt ∨ (s.eng.rcnt = 0 ∧ t.eng.rcnt = 7))) ∨
    (∃ t, readBit s = .ok none t ∧ ReaderMoved s.ports.status s t ∧ s.eng.rcnt = 0 ∧ t.eng.rcnt = 0 ∧ t.eng.srcEof = true) ∨
    (∃ t, readBit s = .raised .srcIo t ∧ ReaderMoved s.ports.status s t ∧ s.eng.rcnt = 0 ∧ t.eng.rcnt = 0) ∨
    (∃ t, readBit s = .blocked t ∧ ReaderMoved .waitingSource s t ∧ t.eng.rcnt = 0) := by
  unfold readBit
  split
  · rename_i h0
    split
    · rename_i he; exact .inr (.inl ⟨_, rfl, .refl s, h0, h0, he⟩)
    · rcases srcRead_cases s with ⟨r, src, h⟩ | ⟨src, h, -⟩ <;> simp only [h, andThen_ok, andThen_blocked]
      · rcases r with v | _ | _
        · exact .inl ⟨_, _, rfl, ⟨_, _, _, _, rfl⟩, .inr ⟨h0, rfl⟩⟩
        · exact .inr (.inl ⟨_, rfl, ⟨_, _, _, _, rfl⟩, h0, h0, rfl⟩)
        · exact .inr (.inr (.inl ⟨_, rfl, ⟨_, _, _, _, rfl⟩, h0, h0⟩))
      · exact .inr (.inr (.inr ⟨_, rfl, ⟨_, _, _, _, rfl⟩, h0⟩))
  · refine .inl ⟨_, _, rfl, ⟨_, _, _, _, rfl⟩, .inl ?_⟩
    simp only [withEng_eng]; omega

end Sys2Proof.Machine
end

