-- ==== Sys2Proof/Laws/Tree.lean ====
section
/-! SUPPORT. The arena, the candidate, and what each tree procedure can do (40_tree). -/

namespace Sys2Proof.Machine

open Sys2Proof.Config

/-! Reading and writing the arena -/

theorem node_setNode (e : Engine) (h x : Handle) (nd : Node) :
    (e.setNode h nd).node x = if x = h then nd else e.node x := by
  unfold Engine.setNode Engine.node
  simp only [Vector.get_eq_getElem, Vector.getElem_set]
  by_cases hx : x = h
  · simp [hx]
  · have : ¬ h.val = x.val := fun h' => hx (Fin.ext h'.symm)
    simp [hx, this]

@[simp] theorem node_setNode_self (e : Engine) (h : Handle) (nd : Node) : (e.setNode h nd).node h = nd := by
  simp [node_setNode]

theorem node_setNode_ne (e : Engine) {h x : Handle} (nd : Node) (hx : x ≠ h) : (e.setNode h nd).node x = e.node x := by
  simp [node_setNode, hx]

/-- Registers with the same arena have the same slots. -/
theorem node_congr {e f : Engine} (h : f.nodes = e.nodes) (x : Handle) : f.node x = e.node x := by
  unfold Engine.node; rw [h]

@[simp] theorem inTree_iff (nd : Node) : nd.inTree = true ↔ nd.kind ≠ .free := by simp [Node.inTree]

/-- `Engine.slots` lists each handle with its slot. -/
theorem mem_slots (e : Engine) (x : Handle) (nd : Node) : (x, nd) ∈ e.slots ↔ nd = e.node x := by
  unfold Engine.slots Engine.node
  simp only [List.mem_iff_getElem, List.length_zip, List.length_finRange, Vector.length_toList, List.getElem_zip,
    List.getElem_finRange, Vector.getElem_toList, Prod.mk.injEq, Vector.get_eq_getElem, min_self]
  constructor
  · rintro ⟨i, hi, hx, rfl⟩
    subst hx; rfl
  · rintro rfl
    exact ⟨x.val, x.isLt, by simp, rfl⟩

/-! The candidate (40_tree R133) -/

/-- What the loop of `Candidate` has found: `best` itself or an eligible slot, with its key, and no eligible slot has a larger
key. -/
theorem bestOf_spec (e : Engine) (n : Handle) (xs : List (Handle × Node)) (best : Handle × Nat) :
    (e.bestOf n xs best = best ∨ ∃ nd, ((e.bestOf n xs best).1, nd) ∈ xs ∧ e.eligible n (e.bestOf n xs best).1 nd = true ∧
        (e.bestOf n xs best).2 = nd.key ∧ best.2 < nd.key) ∧
    best.2 ≤ (e.bestOf n xs best).2 ∧
    ∀ x nd, (x, nd) ∈ xs → e.eligible n x nd = true → nd.key ≤ (e.bestOf n xs best).2 := by
  induction xs generalizing best with
  | nil => simp [Engine.bestOf]
  | cons p rest ih =>
    obtain ⟨y, nd⟩ := p
    unfold Engine.bestOf
    split
    · rename_i hc
      simp only [Bool.and_eq_true, decide_eq_true_eq] at hc
      obtain ⟨h1, h2, h3⟩ := ih (y, nd.key)
      refine ⟨.inr ?_, by simp only at h2; omega, ?_⟩
      · rcases h1 with h1 | ⟨nd', hm, he, hk, hlt⟩
        · exact ⟨nd, by rw [h1]; simp, by rw [h1]; exact hc.1, by rw [h1], hc.2⟩
        · exact ⟨nd', List.mem_cons_of_mem _ hm, he, hk, by simp only at hlt; omega⟩
      · intro x nd' hm he
        rcases List.mem_cons.1 hm with hm | hm
        · obtain ⟨rfl, rfl⟩ := Prod.mk.inj hm; exact h2
        · exact h3 x nd' hm he
    · rename_i hc
      obtain ⟨h1, h2, h3⟩ := ih best
      refine ⟨h1.imp id fun ⟨nd', hm, r⟩ => ⟨nd', List.mem_cons_of_mem _ hm, r⟩, h2, ?_⟩
      intro x nd' hm he
      rcases List.mem_cons.1 hm with hm | hm
      · obtain ⟨rfl, rfl⟩ := Prod.mk.inj hm
        simp only [Bool.and_eq_true, decide_eq_true_eq, not_and, not_lt] at hc
        exact (hc he).trans h2
      · exact h3 x nd' hm he

/-- The tests of `Candidate`'s loop, as propositions. -/
theorem eligible_iff (e : Engine) (n x : Handle) :
    e.eligible n x (e.node x) = true ↔ e.InTree x ∧ (e.node x).weight = (e.node n).weight ∧ x ≠ n ∧ x ≠ ROOT ∧
      some x ≠ e.sibling n ∧ x ∉ e.ancestors n := by
  simp [Engine.eligible, Engine.InTree, and_assoc]

/-- The candidate is eligible, has a larger key than `n`, and no eligible slot has a larger one. -/
theorem candidate_some {e : Engine} {n m : Handle} (h : e.candidate n = some m) :
    e.eligible n m (e.node m) = true ∧ (e.node n).key < (e.node m).key ∧
      ∀ x, e.eligible n x (e.node x) = true → (e.node x).key ≤ (e.node m).key := by
  obtain ⟨h1, -, h3⟩ := bestOf_spec e n e.slots (n, (e.node n).key)
  unfold Engine.candidate at h
  simp only at h
  split at h
  · simp at h
  · rename_i hne
    have hm : (e.bestOf n e.slots (n, (e.node n).key)).1 = m := by simpa using h
    rcases h1 with h1 | ⟨nd, hmem, he, hk, hlt⟩
    · exact absurd (by rw [h1]) hne
    · rw [hm] at hmem he
      obtain rfl := (mem_slots e m nd).1 hmem
      exact ⟨he, hlt, fun x hx => hk ▸ h3 x _ ((mem_slots e x _).2 rfl) hx⟩

/-- With no candidate, no eligible slot has a larger key than `n`. -/
theorem candidate_none {e : Engine} {n : Handle} (h : e.candidate n = none) :
    ∀ x, e.eligible n x (e.node x) = true → (e.node x).key ≤ (e.node n).key := by
  obtain ⟨h1, -, h3⟩ := bestOf_spec e n e.slots (n, (e.node n).key)
  unfold Engine.candidate at h
  simp only at h
  split at h
  · rename_i heq
    rcases h1 with h1 | ⟨nd, hmem, he, -, -⟩
    · intro x hx
      have := h3 x _ ((mem_slots e x _).2 rfl) hx
      rwa [h1] at this
    · rw [heq] at hmem he
      obtain rfl := (mem_slots e n nd).1 hmem
      exact absurd rfl ((eligible_iff e n n).1 he).2.2.1
  · simp at h

/-! The tree procedures read the arena only -/

theorem climb_congr {e f : Engine} (h : f.nodes = e.nodes) (k : Nat) (x : Handle) : f.climb k x = e.climb k x := by
  induction k generalizing x with
  | zero => rfl
  | succ k ih =>
    unfold Engine.climb
    rw [node_congr h]
    split
    · rfl
    · rw [ih]

theorem ancestors_congr {e f : Engine} (h : f.nodes = e.nodes) (x : Handle) : f.ancestors x = e.ancestors x :=
  climb_congr h nnodes x

theorem sibling_congr {e f : Engine} (h : f.nodes = e.nodes) (x : Handle) : f.sibling x = e.sibling x := by
  unfold Engine.sibling; simp only [node_congr h]

theorem pathUp_congr {e f : Engine} (h : f.nodes = e.nodes) (k : Nat) (x : Handle) (acc : List Bool) :
    f.pathUp k x acc = e.pathUp k x acc := by
  induction k generalizing x acc with
  | zero => rfl
  | succ k ih =>
    unfold Engine.pathUp
    rw [node_congr h]
    split
    · rfl
    · rename_i p _; rw [ih, node_congr h]

theorem pathTo_congr {e f : Engine} (h : f.nodes = e.nodes) (x : Handle) : f.pathTo x = e.pathTo x :=
  pathUp_congr h pathMax x []

theorem eligible_congr {e f : Engine} (h : f.nodes = e.nodes) (n x : Handle) (nd : Node) :
    f.eligible n x nd = e.eligible n x nd := by
  unfold Engine.eligible; rw [node_congr h, sibling_congr h, ancestors_congr h]

theorem bestOf_congr {e f : Engine} (h : f.nodes = e.nodes) (n : Handle) (xs : List (Handle × Node)) (best : Handle × Nat) :
    f.bestOf n xs best = e.bestOf n xs best := by
  induction xs generalizing best with
  | nil => rfl
  | cons p rest ih =>
    obtain ⟨x, nd⟩ := p
    unfold Engine.bestOf
    rw [eligible_congr h]
    split
    · exact ih _
    · exact ih _

theorem candidate_congr {e f : Engine} (h : f.nodes = e.nodes) (n : Handle) : f.candidate n = e.candidate n := by
  unfold Engine.candidate Engine.slots
  rw [bestOf_congr h, node_congr h, h]

theorem swappable_congr {e f : Engine} (h : f.nodes = e.nodes) (n m : Handle) : f.swappable n m = e.swappable n m := by
  unfold Engine.swappable; simp only [node_congr h, ancestors_congr h]

/-! What the tree procedures write -/

/-- Registers that differ in the arena only. -/
def ArenaMoved (e f : Engine) : Prop := ∃ nodes, f = { e with nodes := nodes }

/-- Registers that differ in the tree and the swap log only. -/
def TreeMoved (e f : Engine) : Prop :=
  ∃ nodes nyth nsym keylast lookup swapcnt swaplog, f = { e with
    nodes := nodes, nyth := nyth, nsym := nsym, keylast := keylast, lookup := lookup, swapcnt := swapcnt, swaplog := swaplog }

/-- Registers that differ in the arena and the swap log only. -/
def ArenaLogMoved (e f : Engine) : Prop :=
  ∃ nodes swapcnt swaplog, f = { e with nodes := nodes, swapcnt := swapcnt, swaplog := swaplog }

theorem ArenaLogMoved.refl (e : Engine) : ArenaLogMoved e e := ⟨_, _, _, rfl⟩

theorem ArenaLogMoved.trans {e f g : Engine} (h : ArenaLogMoved e f) (h' : ArenaLogMoved f g) : ArenaLogMoved e g := by
  obtain ⟨_, _, _, rfl⟩ := h
  obtain ⟨_, _, _, rfl⟩ := h'
  exact ⟨_, _, _, rfl⟩

theorem ArenaLogMoved.treeMoved {e f : Engine} (h : ArenaLogMoved e f) : TreeMoved e f := by
  obtain ⟨_, _, _, rfl⟩ := h
  exact ⟨_, _, _, _, _, _, _, rfl⟩

theorem TreeMoved.trans {e f g : Engine} (h : TreeMoved e f) (h' : TreeMoved f g) : TreeMoved e g := by
  obtain ⟨_, _, _, _, _, _, _, rfl⟩ := h
  obtain ⟨_, _, _, _, _, _, _, rfl⟩ := h'
  exact ⟨_, _, _, _, _, _, _, rfl⟩

theorem setNode_moved (e : Engine) (h : Handle) (nd : Node) : ArenaLogMoved e (e.setNode h nd) := ⟨_, _, _, rfl⟩

/-- `Swap` succeeds exactly when its precondition holds, and then writes the arena only. -/
theorem swap_cases (e : Engine) (n m : Handle) :
    e.swap n m = none ∨ ∃ pn pm f, e.swap n m = some f ∧ (e.node n).parent = some pn ∧ (e.node m).parent = some pm ∧
      e.swappable n m = true ∧ ArenaMoved e f := by
  unfold Engine.swap
  split
  · rename_i pn pm hn hm
    split
    · rename_i hs
      exact .inr ⟨pn, pm, _, rfl, hn, hm, hs, _, rfl⟩
    · exact .inl rfl
  · exact .inl rfl

theorem logSwap_cases (e : Engine) (n m : Handle) :
    (∃ log, e.logSwap n m = .done { e with swapcnt := e.swapcnt + 1, swaplog := log } ∧ e.swapcnt < swaplogN) ∨
    (e.logSwap n m = .internal e ∧ swaplogN ≤ e.swapcnt) := by
  unfold Engine.logSwap
  split
  · rename_i h; exact .inl ⟨_, rfl, h⟩
  · rename_i h; exact .inr ⟨rfl, by omega⟩

/-- The registers a tree procedure ends with. -/
def TreeRes.eng : TreeRes → Engine
  | .done e => e
  | .internal e => e

theorem rebalance_none {e : Engine} {n : Handle} (h : e.candidate n = none) : e.rebalance n = .done e := by
  unfold Engine.rebalance; rw [h]

theorem rebalance_refused {e : Engine} {n m : Handle} (h : e.candidate n = some m) (hs : e.swap n m = none) :
    e.rebalance n = .internal e := by
  unfold Engine.rebalance; rw [h]; simp only [hs]

theorem rebalance_swap {e f : Engine} {n m : Handle} (h : e.candidate n = some m) (hs : e.swap n m = some f) :
    e.rebalance n = f.logSwap n m := by
  unfold Engine.rebalance; rw [h]; simp only [hs]

/-- The first lines of `Walk`'s loop: nothing, a refused swap, or a swap with the candidate, logged if the log has room. -/
theorem rebalance_cases (e : Engine) (n : Handle) :
    (e.rebalance n = .done e ∧ e.candidate n = none) ∨
    (∃ m, e.candidate n = some m ∧ e.swap n m = none ∧ e.rebalance n = .internal e) ∨
    (∃ m f log, e.candidate n = some m ∧ e.swap n m = some f ∧ f.swapcnt < swaplogN ∧
      e.rebalance n = .done { f with swapcnt := f.swapcnt + 1, swaplog := log }) ∨
    (∃ m f, e.candidate n = some m ∧ e.swap n m = some f ∧ swaplogN ≤ f.swapcnt ∧ e.rebalance n = .internal f) := by
  unfold Engine.rebalance
  rcases hc : e.candidate n with _ | m
  · exact .inl ⟨rfl, rfl⟩
  · simp only
    rcases hs : e.swap n m with _ | f
    · exact .inr (.inl ⟨m, rfl, hs, rfl⟩)
    · simp only
      rcases logSwap_cases f n m with ⟨log, h, hl⟩ | ⟨h, hl⟩
      · exact .inr (.inr (.inl ⟨m, f, log, rfl, hs, hl, h⟩))
      · exact .inr (.inr (.inr ⟨m, f, rfl, hs, hl, h⟩))

theorem rebalance_moved (e : Engine) (n : Handle) : ArenaLogMoved e (e.rebalance n).eng := by
  rcases rebalance_cases e n with ⟨h, -⟩ | ⟨m, -, -, h⟩ | ⟨m, f, log, -, hs, -, h⟩ | ⟨m, f, -, hs, -, h⟩ <;> rw [h]
  · exact .refl e
  · exact .refl e
  · rcases swap_cases e n m with h' | ⟨_, _, _, h', -, -, -, ⟨nodes, rfl⟩⟩
    · simp [h'] at hs
    · obtain rfl := Option.some.inj (h'.symm.trans hs)
      exact ⟨_, _, _, rfl⟩
  · rcases swap_cases e n m with h' | ⟨_, _, _, h', -, -, -, ⟨nodes, rfl⟩⟩
    · simp [h'] at hs
    · obtain rfl := Option.some.inj (h'.symm.trans hs)
      exact ⟨_, _, _, rfl⟩

theorem walk_zero (e : Engine) (n : Handle) : Engine.walk 0 e n = .internal e := by rw [Engine.walk]

/-- One round of the loop of `Walk` (40_tree R135), after `rebalance` went well. -/
theorem walk_succ_done {k : Nat} {e e1 : Engine} {n : Handle} (h : e.rebalance n = .done e1) :
    Engine.walk (k + 1) e n =
      if n = ROOT then .done (e1.increment n)
      else
        match ((e1.increment n).node n).parent with
        | none => .done (e1.increment n)
        | some p => Engine.walk k (e1.increment n) p := by
  rw [Engine.walk, h]; rfl

/-- One round of the loop of `Walk` (40_tree R135), ended by `rebalance`. -/
theorem walk_succ_internal {k : Nat} {e e1 : Engine} {n : Handle} (h : e.rebalance n = .internal e1) :
    Engine.walk (k + 1) e n = .internal e1 := by
  rw [Engine.walk, h]; rfl

/-- A relation that each swap-and-log and each increment keeps is kept by the whole walk. -/
theorem walk_rel (R : Engine → Engine → Prop) (refl : ∀ e, R e e) (trans : ∀ {e f g}, R e f → R f g → R e g)
    (reb : ∀ e n, R e (e.rebalance n).eng) (inc : ∀ e n, R e (e.increment n)) (k : Nat) (e : Engine) (n : Handle) :
    R e (Engine.walk k e n).eng := by
  induction k generalizing e n with
  | zero => rw [walk_zero]; exact refl e
  | succ k ih =>
    have hr := reb e n
    rcases hreb : e.rebalance n with e1 | e1 <;> rw [hreb] at hr
    · rw [walk_succ_done hreb]
      simp only [TreeRes.eng] at hr
      have h2 := trans hr (inc e1 n)
      split
      · exact h2
      · split
        · exact h2
        · exact trans h2 (ih _ _)
    · rw [walk_succ_internal hreb]; exact hr

theorem walk_moved (k : Nat) (e : Engine) (n : Handle) : ArenaLogMoved e (Engine.walk k e n).eng :=
  walk_rel ArenaLogMoved .refl .trans rebalance_moved (fun e n => setNode_moved e n _) k e n

theorem split_moved (e : Engine) (b : Byte) : TreeMoved e (e.split b).1 := ⟨_, _, _, _, _, _, _, rfl⟩

/-- Where the walk starts: at the leaf of a present byte, or at the new leaf of a split. -/
theorem walkStart_cases (e : Engine) (b : Byte) :
    (e.leafOf b = none ∧ e.walkStart b = { e with swapcnt := 0 }.split b) ∨
    (∃ n, e.leafOf b = some n ∧ e.walkStart b = ({ e with swapcnt := 0 }, n)) := by
  unfold Engine.walkStart
  have h : ({ e with swapcnt := 0 } : Engine).leafOf b = e.leafOf b := rfl
  simp only [h]
  rcases h' : e.leafOf b with _ | n
  · exact .inl ⟨rfl, rfl⟩
  · exact .inr ⟨n, rfl, rfl⟩

theorem walkStart_moved (e : Engine) (b : Byte) : TreeMoved e (e.walkStart b).1 := by
  rcases walkStart_cases e b with ⟨-, h⟩ | ⟨n, -, h⟩ <;> rw [h] <;> exact ⟨_, _, _, _, _, _, _, rfl⟩

/-- `UpdateTree` writes the tree and the swap log only (40_tree R143). -/
theorem updateTree_moved (e : Engine) (b : Byte) : TreeMoved e (e.updateTree b).eng := by
  unfold Engine.updateTree
  generalize walkBound = k
  exact (walkStart_moved e b).trans (walk_moved k _ _).treeMoved

/-- `UpdateTree` inside a command ends well or in `FAULT_INTERNAL`; it touches no port. -/
theorem updateTree_cases (b : Byte) (s : State) :
    (∃ e, s.eng.updateTree b = .done e ∧ updateTree b s = .ok () (s.withEng e) ∧ TreeMoved s.eng e) ∨
    (∃ e, s.eng.updateTree b = .internal e ∧ updateTree b s = .raised .internal (s.withEng e) ∧ TreeMoved s.eng e) := by
  have h := updateTree_moved s.eng b
  unfold updateTree
  rcases hu : s.eng.updateTree b with e | e <;> rw [hu] at h
  · exact .inl ⟨e, rfl, rfl, h⟩
  · exact .inr ⟨e, rfl, rfl, h⟩

/-- `CheckRoom` lets a command go on unless the root is at `WMAX`. -/
theorem checkRoom_room {s : State} (h : (s.eng.node ROOT).weight ≠ wmax s.width) (r : Result) : checkRoom s r = r := by
  simp [checkRoom, h]

theorem checkRoom_full {s : State} (h : (s.eng.node ROOT).weight = wmax s.width) (r : Result) :
    checkRoom s r = .next (raise .wovf s) := by
  simp [checkRoom, h]

end Sys2Proof.Machine
end

