-- ==== Sys2Proof/Laws/Shape.lean ====
section
/-! SUPPORT. What the shape of the tree gives (40_tree R121 to R129): depths, ancestors, paths, and counting. -/

namespace Sys2Proof.Machine

open Sys2Proof.Config

/-- How many parent links lead from a node to the root. -/
inductive Engine.Depth (e : Engine) : Handle → Nat → Prop where
  | root : e.Depth ROOT 0
  | child {h p : Handle} {d : Nat} (link : (e.node h).parent = some p) (above : e.Depth p d) : e.Depth h (d + 1)

/-- The first node is an ancestor of the second (40_tree R124). -/
inductive Engine.Above (e : Engine) : Handle → Handle → Prop where
  | parent {a h : Handle} (link : (e.node h).parent = some a) : e.Above a h
  | up {a h p : Handle} (link : (e.node h).parent = some p) (above : e.Above a p) : e.Above a h

theorem underRoot_depth {e : Engine} {h : Handle} (u : e.UnderRoot h) : ∃ d, e.Depth h d := by
  induction u with
  | root => exact ⟨0, .root⟩
  | child link _ ih => obtain ⟨d, hd⟩ := ih; exact ⟨d + 1, .child link hd⟩

theorem depth_unique {e : Engine} (top : (e.node ROOT).parent = none) {h : Handle} {d d' : Nat} (a : e.Depth h d)
    (b : e.Depth h d') : d = d' := by
  induction a generalizing d' with
  | root =>
    cases b with
    | root => rfl
    | child link _ => simp [top] at link
  | child link _ ih =>
    cases b with
    | root => simp [top] at link
    | child link' b' =>
      obtain rfl := Option.some.inj (link.symm.trans link')
      rw [ih b']

/-- An ancestor has a smaller depth. -/
theorem depth_above {e : Engine} (top : (e.node ROOT).parent = none) {a h : Handle} {d : Nat} (ab : e.Above a h)
    (hd : e.Depth h d) : ∃ d', d' < d ∧ e.Depth a d' := by
  induction ab generalizing d with
  | parent link =>
    cases hd with
    | root => simp [top] at link
    | child link' hp =>
      obtain rfl := Option.some.inj (link.symm.trans link')
      exact ⟨_, Nat.lt_succ_self _, hp⟩
  | up link _ ih =>
    cases hd with
    | root => simp [top] at link
    | child link' hp =>
      obtain rfl := Option.some.inj (link.symm.trans link')
      obtain ⟨d', hlt, hd'⟩ := ih hp
      exact ⟨d', by omega, hd'⟩

theorem above_trans {e : Engine} {a b c : Handle} (h : e.Above a b) (h' : e.Above b c) : e.Above a c := by
  induction h' with
  | parent link => exact .up link h
  | up link _ ih => exact .up link ih

/-- The climb finds ancestors only. -/
theorem above_of_mem_climb {e : Engine} {k : Nat} {a h : Handle} (m : a ∈ e.climb k h) : e.Above a h := by
  induction k generalizing h with
  | zero => simp [Engine.climb] at m
  | succ k ih =>
    unfold Engine.climb at m
    split at m
    · simp at m
    · rename_i p hp
      rcases List.mem_cons.1 m with rfl | m
      · exact .parent hp
      · exact .up hp (ih m)

/-- A climb of at least the depth of the node finds every ancestor. -/
theorem mem_climb_of_above {e : Engine} (top : (e.node ROOT).parent = none) {k d : Nat} {a h : Handle} (hd : e.Depth h d)
    (hk : d ≤ k) (ab : e.Above a h) : a ∈ e.climb k h := by
  induction k generalizing h d with
  | zero =>
    obtain ⟨d', hlt, -⟩ := depth_above top ab hd
    omega
  | succ k ih =>
    unfold Engine.climb
    cases ab with
    | parent link => simp [link]
    | up link ab =>
      simp only [link]
      cases hd with
      | root => simp [top] at link
      | child link' hp =>
        obtain rfl := Option.some.inj (link.symm.trans link')
        exact List.mem_cons_of_mem _ (ih hp (by omega) ab)

theorem climb_length {e : Engine} (top : (e.node ROOT).parent = none) {k d : Nat} {h : Handle} (hd : e.Depth h d)
    (hk : d ≤ k) : (e.climb k h).length = d := by
  induction k generalizing h d with
  | zero => simp [Engine.climb]; omega
  | succ k ih =>
    unfold Engine.climb
    cases hd with
    | root => simp [top]
    | child link hp => simp [link, ih hp (by omega)]

/-- No node occurs twice on the way to the root. -/
theorem climb_nodup {e : Engine} (top : (e.node ROOT).parent = none) {k d : Nat} {h : Handle} (hd : e.Depth h d) :
    (e.climb k h).Nodup := by
  induction k generalizing h d with
  | zero => simp [Engine.climb]
  | succ k ih =>
    unfold Engine.climb
    cases hd with
    | root => simp [top]
    | child link hp =>
      simp only [link, List.nodup_cons]
      refine ⟨fun hm => ?_, ih hp⟩
      obtain ⟨d', hlt, hd'⟩ := depth_above top (above_of_mem_climb hm) hp
      have := depth_unique top hp hd'
      omega

/-! Counting -/

/-- The symbol leaves, one per symbol present. -/
def Engine.leafList (e : Engine) : List Handle := e.lookup.toList.filterMap id

theorem mem_leafList {e : Engine} {h : Handle} : h ∈ e.leafList ↔ ∃ b, e.leafOf b = some h := by
  unfold Engine.leafList Engine.leafOf
  simp only [List.mem_filterMap, id_eq, exists_eq_right]
  rw [Vector.mem_toList_iff, Vector.mem_iff_getElem]
  constructor
  · rintro ⟨i, hi, hx⟩
    exact ⟨BitVec.ofFin ⟨i, hi⟩, hx⟩
  · rintro ⟨b, hb⟩
    exact ⟨b.toNat, b.isLt, hb⟩

theorem leafList_length (e : Engine) : e.leafList.length = (e.lookup.toList.filter Option.isSome).length := by
  unfold Engine.leafList
  generalize e.lookup.toList = xs
  induction xs with
  | nil => rfl
  | cons x xs ih => cases x <;> simp_all

theorem leafList_nodup {e : Engine} (leaves : ∀ (b : Byte) (h : Handle), e.leafOf b = some h ↔ (e.node h).kind = .leaf b) :
    e.leafList.Nodup := by
  unfold Engine.leafList List.Nodup
  rw [List.pairwise_filterMap, List.pairwise_iff_getElem]
  intro i j hi hj hij x hx y hy hxy
  simp only [Vector.length_toList] at hi hj
  simp only [id_eq, Vector.getElem_toList] at hx hy
  subst hxy
  have h1 := (leaves (BitVec.ofFin ⟨i, hi⟩) x).1 hx
  have h2 := (leaves (BitVec.ofFin ⟨j, hj⟩) x).1 hy
  rw [h1] at h2
  simp only [Kind.leaf.injEq, BitVec.ofFin.injEq, Fin.mk.injEq] at h2
  omega

/-- Handles without repeats, all of slots up to `k`, are at most `k + 1` many. -/
theorem nodup_length_le {xs : List Handle} (nd : xs.Nodup) {k : Nat} (hk : ∀ x ∈ xs, x.val ≤ k) : xs.length ≤ k + 1 := by
  have h : (xs.map Fin.val).Nodup := nd.map Fin.val_injective
  have : (xs.map Fin.val) ⊆ List.range (k + 1) := by
    intro y hy
    obtain ⟨x, hx, rfl⟩ := List.mem_map.1 hy
    exact List.mem_range.2 (by have := hk x hx; omega)
  simpa using (List.Nodup.subperm h this).length_le

/-! What the shape gives -/

theorem inTree_of_kind {e : Engine} {h : Handle} {k : Kind} (hk : (e.node h).kind = k) (hf : k ≠ .free) : e.InTree h := by
  unfold Engine.InTree; rw [hk]; exact hf

theorem TreeShape.rootIn {e : Engine} (sh : TreeShape e) : e.InTree ROOT := (sh.slots ROOT).2 (by simp [ROOT])

/-- A parent is in the tree, and so is its child. -/
theorem TreeShape.linkIn {e : Engine} (sh : TreeShape e) {h p : Handle} (hp : (e.node h).parent = some p) :
    e.InTree p ∧ e.InTree h := by
  obtain ⟨l, r, hk, hlr⟩ := sh.childOf h p hp
  refine ⟨inTree_of_kind hk (by simp), ?_⟩
  have := sh.children p l r hk
  rcases hlr with rfl | rfl
  · exact this.2.1
  · exact this.2.2.1

theorem TreeShape.depth {e : Engine} (sh : TreeShape e) {h : Handle} (ht : e.InTree h) : ∃ d, e.Depth h d :=
  underRoot_depth (sh.rooted h ht)

theorem TreeShape.aboveIn {e : Engine} (sh : TreeShape e) {a h : Handle} (ab : e.Above a h) :
    e.InTree a ∧ e.InTree h ∧ ∃ l r, (e.node a).kind = .internal l r := by
  induction ab with
  | parent link => obtain ⟨l, r, hk, -⟩ := sh.childOf _ _ link; exact ⟨(sh.linkIn link).1, (sh.linkIn link).2, l, r, hk⟩
  | up link _ ih => exact ⟨ih.1, (sh.linkIn link).2, ih.2.2⟩

theorem TreeShape.nytIn {e : Engine} (sh : TreeShape e) : e.InTree e.nyth :=
  inTree_of_kind ((sh.nyt e.nyth).2 rfl) (by simp)

/-- No node is deeper than there are symbols in the tree (40_tree R128). -/
theorem TreeShape.depth_le_nsym {e : Engine} (sh : TreeShape e) {h : Handle} {d : Nat} (hd : e.Depth h d) : d ≤ e.nsym := by
  have hlen := climb_length sh.rootTop hd (le_refl d)
  have hup : ∀ x ∈ e.climb d h, ∃ l r, (e.node x).kind = .internal l r :=
    fun x hx => (sh.aboveIn (above_of_mem_climb hx)).2.2
  have nd : (e.climb d h ++ (e.leafList ++ [e.nyth])).Nodup := by
    rw [List.nodup_append', List.nodup_append']
    refine ⟨climb_nodup sh.rootTop hd, ⟨leafList_nodup sh.leaves, by simp, ?_⟩, ?_⟩
    · intro x hx hx'
      obtain ⟨b, hb⟩ := mem_leafList.1 hx
      have h1 := (sh.leaves b x).1 hb
      simp only [List.mem_singleton] at hx'
      rw [(sh.nyt x).2 hx'] at h1
      simp at h1
    · intro x hx hx'
      obtain ⟨l, r, hk⟩ := hup x hx
      rcases List.mem_append.1 hx' with hx' | hx'
      · obtain ⟨b, hb⟩ := mem_leafList.1 hx'
        rw [(sh.leaves b x).1 hb] at hk
        simp at hk
      · simp only [List.mem_singleton] at hx'
        rw [(sh.nyt x).2 hx'] at hk
        simp at hk
  have hall : ∀ x ∈ e.climb d h ++ (e.leafList ++ [e.nyth]), x.val ≤ 2 * e.nsym := by
    intro x hx
    apply (sh.slots x).1
    rcases List.mem_append.1 hx with hx | hx
    · obtain ⟨l, r, hk⟩ := hup x hx; exact inTree_of_kind hk (by simp)
    · rcases List.mem_append.1 hx with hx | hx
      · obtain ⟨b, hb⟩ := mem_leafList.1 hx
        exact inTree_of_kind ((sh.leaves b x).1 hb) (by simp)
      · simp only [List.mem_singleton] at hx; subst hx; exact sh.nytIn
  have := nodup_length_le nd hall
  simp only [List.length_append, List.length_singleton, leafList_length, sh.symbols, hlen] at this
  omega

theorem TreeShape.nsym_le {e : Engine} (sh : TreeShape e) : e.nsym ≤ nsymbols := by
  rw [← sh.symbols]
  exact (List.length_filter_le _ _).trans (by simp)

/-- While some symbol has no leaf, fewer than 256 have one. -/
theorem TreeShape.nsym_lt {e : Engine} (sh : TreeShape e) {b : Byte} (hb : e.leafOf b = none) : e.nsym < nsymbols := by
  rw [← sh.symbols]
  have hm : none ∈ e.lookup.toList := by
    rw [Vector.mem_toList_iff, Vector.mem_iff_getElem]
    exact ⟨b.toNat, b.isLt, hb⟩
  have : (e.lookup.toList.filter Option.isSome).length < e.lookup.toList.length := by
    rcases Nat.lt_or_ge (e.lookup.toList.filter Option.isSome).length e.lookup.toList.length with h | h
    · exact h
    · have h' := List.length_filter_eq_length_iff.1 (le_antisymm (List.length_filter_le _ _) h)
      simpa using h' none hm
  simpa using this

/-- `Ancestors` are the nodes above (40_tree R124). -/
theorem TreeShape.mem_ancestors {e : Engine} (sh : TreeShape e) {a h : Handle} (ht : e.InTree h) :
    a ∈ e.ancestors h ↔ e.Above a h := by
  obtain ⟨d, hd⟩ := sh.depth ht
  refine ⟨above_of_mem_climb, mem_climb_of_above sh.rootTop hd ?_⟩
  have := sh.depth_le_nsym hd
  have : e.nsym ≤ 256 := sh.nsym_le
  show d ≤ 513
  omega

theorem TreeShape.not_above_self {e : Engine} (sh : TreeShape e) (h : Handle) : ¬ e.Above h h := by
  intro ab
  obtain ⟨d, hd⟩ := sh.depth (sh.aboveIn ab).1
  obtain ⟨d', hlt, hd'⟩ := depth_above sh.rootTop ab hd
  have := depth_unique sh.rootTop hd hd'
  omega

/-- The root is above every other node. -/
theorem TreeShape.root_above {e : Engine} (sh : TreeShape e) {h : Handle} (ht : e.InTree h) (hr : h ≠ ROOT) :
    e.Above ROOT h := by
  induction sh.rooted h ht with
  | root => exact absurd rfl hr
  | @child x p link above ih =>
    by_cases hp : p = ROOT
    · subst hp; exact .parent link
    · exact .up link (ih (sh.linkIn link).1 hp)

/-! Children and siblings -/

/-- The two children of a node, whichever is which. -/
theorem TreeShape.sibling_eq {e : Engine} (sh : TreeShape e) {h p : Handle} (hp : (e.node h).parent = some p) :
    ∃ q, e.sibling h = some q ∧ e.Siblings q h ∧ e.InTree q := by
  obtain ⟨l, r, hk, hlr⟩ := sh.childOf h p hp
  obtain ⟨hne, hl, hr, pl, pr⟩ := sh.children p l r hk
  unfold Engine.sibling
  simp only [hp, Node.left, Node.right, hk]
  rcases hlr with rfl | rfl
  · exact ⟨r, by simp, ⟨hne.symm, p, pr, hp⟩, hr⟩
  · have : (some l = some h) = False := by simp [hne]
    exact ⟨l, by simp [this], ⟨hne, p, pl, hp⟩, hl⟩

/-- Siblings are the two children of their parent. -/
theorem TreeShape.siblings_kind {e : Engine} (sh : TreeShape e) {a b : Handle} (s : e.Siblings a b) :
    ∃ p, (e.node a).parent = some p ∧ (e.node b).parent = some p ∧
      ((e.node p).kind = .internal a b ∨ (e.node p).kind = .internal b a) := by
  obtain ⟨hne, p, pa, pb⟩ := s
  obtain ⟨l, r, hk, hlr⟩ := sh.childOf a p pa
  obtain ⟨l', r', hk', hlr'⟩ := sh.childOf b p pb
  rw [hk] at hk'
  obtain ⟨rfl, rfl⟩ := Kind.internal.inj hk'
  refine ⟨p, pa, pb, ?_⟩
  rcases hlr with rfl | rfl <;> rcases hlr' with rfl | rfl
  · exact absurd rfl hne
  · exact .inl hk
  · exact .inr hk
  · exact absurd rfl hne

theorem siblings_symm {e : Engine} {a b : Handle} (s : e.Siblings a b) : e.Siblings b a := by
  obtain ⟨hne, p, pa, pb⟩ := s
  exact ⟨hne.symm, p, pb, pa⟩

/-- A node has one sibling. -/
theorem TreeShape.siblings_unique {e : Engine} (sh : TreeShape e) {a b c : Handle} (s : e.Siblings a b)
    (s' : e.Siblings c b) : a = c := by
  obtain ⟨p, -, pb, hk⟩ := sh.siblings_kind s
  obtain ⟨q, -, qb, hk'⟩ := sh.siblings_kind s'
  obtain rfl := Option.some.inj (pb.symm.trans qb)
  have h1 := s.1
  have h2 := s'.1
  rcases hk with hk | hk <;> rcases hk' with hk' | hk' <;> rw [hk] at hk' <;> obtain ⟨h, h'⟩ := Kind.internal.inj hk' <;>
    simp_all

/-- `Sibling(n)` is the sibling (40_tree R124). -/
theorem TreeShape.sibling_iff {e : Engine} (sh : TreeShape e) {h q : Handle} : e.sibling h = some q ↔ e.Siblings q h := by
  constructor
  · intro hq
    rcases hp : (e.node h).parent with _ | p
    · simp [Engine.sibling, hp] at hq
    · obtain ⟨q', hq', s, -⟩ := sh.sibling_eq hp
      rw [hq] at hq'
      rw [Option.some.inj hq']; exact s
  · rintro s
    obtain ⟨p, -, hp, -⟩ := sh.siblings_kind s
    obtain ⟨q', hq', s', -⟩ := sh.sibling_eq hp
    rw [hq', sh.siblings_unique s s']

end Sys2Proof.Machine
end

