-- ==== Sys2Proof/Laws/Swap.lean ====
section
/-! SUPPORT. `Swap`, `Split` and the increment keep the tree a tree (40_tree R131, R134, R135), and so do `Walk` and
`UpdateTree`. -/

namespace Sys2Proof.Machine

open Sys2Proof.Config

/-! Swapping two nodes as a renaming -/

/-- A kind with its children renamed. -/
def Kind.rename (σ : Handle → Handle) : Kind → Kind
  | .internal l r => .internal (σ l) (σ r)
  | .free => .free
  | .leaf b => .leaf b
  | .nyt => .nyt

/-- The handle with `n` and `m` exchanged. -/
def exchange (n m x : Handle) : Handle := if x = n then m else if x = m then n else x

@[simp] theorem exchange_left (n m : Handle) : exchange n m n = m := by simp [exchange]

@[simp] theorem exchange_right (n m : Handle) : exchange n m m = n := by
  unfold exchange; split <;> simp_all

theorem exchange_other {n m x : Handle} (hn : x ≠ n) (hm : x ≠ m) : exchange n m x = x := by simp [exchange, hn, hm]

@[simp] theorem exchange_exchange (n m x : Handle) : exchange n m (exchange n m x) = x := by
  by_cases hn : x = n
  · subst hn; simp
  · by_cases hm : x = m
    · subst hm; simp
    · rw [exchange_other hn hm, exchange_other hn hm]

theorem exchange_inj {n m x y : Handle} (h : exchange n m x = exchange n m y) : x = y := by
  rw [← exchange_exchange n m x, h, exchange_exchange]

theorem exchange_eq_iff {n m x y : Handle} : exchange n m x = y ↔ x = exchange n m y := by
  constructor
  · rintro rfl; simp
  · rintro rfl; simp

/-- The tree with `n` and `m` exchanged: every slot keeps its weight and what it is; positions and keys go with the renaming. -/
def Exchanged (n m : Handle) (e f : Engine) : Prop :=
  f = { e with nodes := f.nodes } ∧ ∀ x, f.node x =
    { kind := (e.node x).kind.rename (exchange n m)
      weight := (e.node x).weight
      key := (e.node (exchange n m x)).key
      parent := (e.node (exchange n m x)).parent }

/-- The precondition of `Swap` in a tree (40_tree R134). -/
theorem TreeShape.swappable_iff {e : Engine} (sh : TreeShape e) {n m : Handle} (hn : e.InTree n) (hm : e.InTree m) :
    e.swappable n m = true ↔ n ≠ ROOT ∧ m ≠ ROOT ∧ ¬ e.Above m n ∧ ¬ e.Above n m ∧ (e.node n).parent ≠ (e.node m).parent := by
  unfold Engine.swappable
  simp only [Bool.and_eq_true, bne_iff_ne, ne_eq, Bool.not_eq_true', List.contains_eq_mem, decide_eq_false_iff_not,
    sh.mem_ancestors hn, sh.mem_ancestors hm, and_assoc]

/-- `Swap` exchanges the two nodes (40_tree R134). -/
theorem TreeShape.swap_exchanged {e : Engine} (sh : TreeShape e) {n m : Handle} (hn : e.InTree n) (hm : e.InTree m)
    (hs : e.swappable n m = true) : ∃ f, e.swap n m = some f ∧ Exchanged n m e f := by
  obtain ⟨hnr, hmr, hmn, hnm, hpp⟩ := (sh.swappable_iff hn hm).1 hs
  obtain ⟨pn, hpn⟩ := sh.parented n hn hnr
  obtain ⟨pm, hpm⟩ := sh.parented m hm hmr
  have hne : pn ≠ pm := fun h => hpp (by rw [hpn, hpm, h])
  have d1 : n ≠ m := fun h => hpp (by rw [h])
  have d2 : pn ≠ n := fun h => sh.not_above_self n (.parent (h ▸ hpn))
  have d3 : pm ≠ m := fun h => sh.not_above_self m (.parent (h ▸ hpm))
  have d4 : pn ≠ m := fun h => hmn (.parent (h ▸ hpn))
  have d5 : pm ≠ n := fun h => hnm (.parent (h ▸ hpm))
  unfold Engine.swap
  simp only [hpn, hpm, hs, if_true]
  refine ⟨_, rfl, rfl, fun x => ?_⟩
  simp only [node_setNode, d2.symm, d3.symm, d4.symm, d5.symm, hne.symm, if_false]
  -- the children of a node other than the two parents are neither `n` nor `m`
  have other : ∀ y l r, (e.node y).kind = .internal l r → y ≠ pn → y ≠ pm →
      (e.node y).kind.rename (exchange n m) = (e.node y).kind := by
    intro y l r hk h1 h2
    obtain ⟨-, -, -, pl, pr⟩ := sh.children y l r hk
    have e1 : exchange n m l = l := exchange_other (fun h => h1 (Option.some.inj (by rw [← hpn, ← h, pl])))
      (fun h => h2 (Option.some.inj (by rw [← hpm, ← h, pl])))
    have e2 : exchange n m r = r := exchange_other (fun h => h1 (Option.some.inj (by rw [← hpn, ← h, pr])))
      (fun h => h2 (Option.some.inj (by rw [← hpm, ← h, pr])))
    rw [hk]; simp [Kind.rename, e1, e2]
  have keep : ∀ y, y ≠ pn → y ≠ pm → (e.node y).kind.rename (exchange n m) = (e.node y).kind := by
    intro y h1 h2
    rcases hk : (e.node y).kind with _ | ⟨l, r⟩ | _ | _
    · rfl
    · rw [← hk]; exact other y l r hk h1 h2
    · rfl
    · rfl
  by_cases hxm : x = m
  · subst hxm
    simp only [if_true, exchange_right, hpn, keep x d4.symm d3.symm]
  by_cases hxn : x = n
  · subst hxn
    simp only [if_true, if_neg hxm, exchange_left, hpm, keep x d2.symm d5.symm]
  simp only [if_neg hxm, if_neg hxn, exchange_other hxn hxm]
  by_cases hxpm : x = pm
  · subst hxpm
    simp only [if_true]
    obtain ⟨l, r, hk, hlr⟩ := sh.childOf m x hpm
    obtain ⟨hlr', -, -, pl, pr⟩ := sh.children x l r hk
    have hl : l ≠ n := fun h => hne (Option.some.inj (by rw [← hpn, ← h, pl]))
    have hr : r ≠ n := fun h => hne (Option.some.inj (by rw [← hpn, ← h, pr]))
    unfold Node.replaceChild
    rw [hk]
    rcases hlr with rfl | rfl
    · simp [Kind.rename, exchange_other hr hlr'.symm]
    · simp [Kind.rename, exchange_other hl hlr', hlr']
  simp only [if_neg hxpm]
  by_cases hxpn : x = pn
  · subst hxpn
    simp only [if_true]
    obtain ⟨l, r, hk, hlr⟩ := sh.childOf n x hpn
    obtain ⟨hlr', -, -, pl, pr⟩ := sh.children x l r hk
    have hl : l ≠ m := fun h => hne (Option.some.inj (by rw [← hpm, ← h, pl]))
    have hr : r ≠ m := fun h => hne (Option.some.inj (by rw [← hpm, ← h, pr]))
    unfold Node.replaceChild
    rw [hk]
    rcases hlr with rfl | rfl
    · simp [Kind.rename, exchange_other hlr'.symm hr]
    · simp [Kind.rename, exchange_other hlr' hl, hlr']
  simp only [if_neg hxpn, keep x hxpn hxpm]

/-! Registers that an exchange leaves alone -/

theorem Exchanged.nyth {n m : Handle} {e f : Engine} (x : Exchanged n m e f) : f.nyth = e.nyth := by rw [x.1]

theorem Exchanged.nsym {n m : Handle} {e f : Engine} (x : Exchanged n m e f) : f.nsym = e.nsym := by rw [x.1]

theorem Exchanged.keylast {n m : Handle} {e f : Engine} (x : Exchanged n m e f) : f.keylast = e.keylast := by rw [x.1]

theorem Exchanged.lookup {n m : Handle} {e f : Engine} (x : Exchanged n m e f) : f.lookup = e.lookup := by rw [x.1]

theorem Exchanged.leafOf {n m : Handle} {e f : Engine} (x : Exchanged n m e f) (b : Byte) : f.leafOf b = e.leafOf b := by
  unfold Engine.leafOf; rw [x.lookup]

theorem Exchanged.inTree {n m : Handle} {e f : Engine} (x : Exchanged n m e f) (h : Handle) : f.InTree h ↔ e.InTree h := by
  unfold Engine.InTree
  rw [x.2 h]
  cases (e.node h).kind <;> simp [Kind.rename]

theorem Exchanged.parent {n m : Handle} {e f : Engine} (x : Exchanged n m e f) (h : Handle) :
    (f.node h).parent = (e.node (exchange n m h)).parent := by rw [x.2 h]

theorem Exchanged.key {n m : Handle} {e f : Engine} (x : Exchanged n m e f) (h : Handle) :
    (f.node h).key = (e.node (exchange n m h)).key := by rw [x.2 h]

theorem Exchanged.weight {n m : Handle} {e f : Engine} (x : Exchanged n m e f) (h : Handle) :
    (f.node h).weight = (e.node h).weight := by rw [x.2 h]

theorem Exchanged.internal {n m : Handle} {e f : Engine} (x : Exchanged n m e f) {p l r : Handle} :
    (f.node p).kind = .internal l r ↔ (e.node p).kind = .internal (exchange n m l) (exchange n m r) := by
  rw [x.2 p]
  cases (e.node p).kind <;> simp [Kind.rename, exchange_eq_iff]

theorem Exchanged.siblings {n m : Handle} {e f : Engine} (x : Exchanged n m e f) {a b : Handle} :
    f.Siblings a b ↔ e.Siblings (exchange n m a) (exchange n m b) := by
  unfold Engine.Siblings
  simp only [x.parent]
  constructor
  · rintro ⟨hne, h⟩; exact ⟨fun h' => hne (exchange_inj h'), h⟩
  · rintro ⟨hne, h⟩; exact ⟨fun h' => hne (by rw [h']), h⟩

theorem inTree_exchange {e : Engine} {n m h : Handle} (hn : e.InTree n) (hm : e.InTree m) :
    e.InTree (exchange n m h) ↔ e.InTree h := by
  unfold exchange
  split
  · rename_i h1; subst h1; exact ⟨fun _ => hn, fun _ => hm⟩
  · split
    · rename_i h1; subst h1; exact ⟨fun _ => hm, fun _ => hn⟩
    · rfl

/-- A tree is still a tree after `Swap` (40_tree R134). -/
theorem TreeShape.exchanged {e f : Engine} (sh : TreeShape e) {n m : Handle} (hn : e.InTree n) (hm : e.InTree m)
    (hs : e.swappable n m = true) (x : Exchanged n m e f) : TreeShape f := by
  obtain ⟨hnr, hmr, hmn, hnm, -⟩ := (sh.swappable_iff hn hm).1 hs
  have xr : exchange n m ROOT = ROOT := exchange_other hnr.symm hmr.symm
  have xin : ∀ h, e.InTree (exchange n m h) ↔ e.InTree h := fun h => inTree_exchange hn hm
  -- a node that neither is, nor is below, `n` or `m` hangs under the root as before
  have clear : ∀ h, e.UnderRoot h → h ≠ n → h ≠ m → ¬ e.Above n h → ¬ e.Above m h → f.UnderRoot h := by
    intro h u
    induction u with
    | root => intros; exact .root
    | @child h p link above ih =>
      intro h1 h2 h3 h4
      refine .child (p := p) (by rw [x.parent, exchange_other h1 h2, link]) (ih ?_ ?_ ?_ ?_)
      · rintro rfl; exact h3 (.parent link)
      · rintro rfl; exact h4 (.parent link)
      · exact fun h' => h3 (.up link h')
      · exact fun h' => h4 (.up link h')
  obtain ⟨pn, hpn⟩ := sh.parented n hn hnr
  obtain ⟨pm, hpm⟩ := sh.parented m hm hmr
  have un : f.UnderRoot n := by
    refine .child (p := pm) (by rw [x.parent, exchange_left, hpm]) (clear pm (sh.rooted pm (sh.linkIn hpm).1) ?_ ?_ ?_ ?_)
    · rintro rfl; exact hnm (.parent hpm)
    · rintro rfl; exact sh.not_above_self _ (.parent hpm)
    · exact fun h => hnm (.up hpm h)
    · exact fun h => sh.not_above_self m (.up hpm h)
  have um : f.UnderRoot m := by
    refine .child (p := pn) (by rw [x.parent, exchange_right, hpn]) (clear pn (sh.rooted pn (sh.linkIn hpn).1) ?_ ?_ ?_ ?_)
    · rintro rfl; exact sh.not_above_self _ (.parent hpn)
    · rintro rfl; exact hmn (.parent hpn)
    · exact fun h => sh.not_above_self n (.up hpn h)
    · exact fun h => hmn (.up hpn h)
  have under : ∀ h, e.UnderRoot h → f.UnderRoot h := by
    intro h u
    induction u with
    | root => exact .root
    | @child h p link above ih =>
      by_cases h1 : h = n
      · subst h1; exact un
      · by_cases h2 : h = m
        · subst h2; exact um
        · exact .child (p := p) (by rw [x.parent, exchange_other h1 h2, link]) ih
  constructor
  · rw [x.lookup, x.nsym]; exact sh.symbols
  · intro h; rw [x.inTree, x.nsym]; exact sh.slots h
  · rw [x.nyth, x.nsym]; exact sh.nytSlot
  · intro h hh
    rw [x.inTree] at hh
    have h1 : h ≠ n := by rintro rfl; exact hh hn
    have h2 : h ≠ m := by rintro rfl; exact hh hm
    rw [x.2 h, exchange_other h1 h2, sh.freeSlots h hh]; rfl
  · rw [x.parent, xr]; exact sh.rootTop
  · intro h hh hr
    rw [x.inTree] at hh
    rw [x.parent]
    exact sh.parented _ ((xin h).2 hh) (fun h' => hr (by rw [exchange_eq_iff, xr] at h'; exact h'))
  · intro p l r hk
    rw [x.internal] at hk
    obtain ⟨h1, h2, h3, h4, h5⟩ := sh.children _ _ _ hk
    exact ⟨fun h => h1 (by rw [h]), (x.inTree l).2 ((xin l).1 h2), (x.inTree r).2 ((xin r).1 h3),
      by rw [x.parent]; exact h4, by rw [x.parent]; exact h5⟩
  · intro h p hp
    rw [x.parent] at hp
    obtain ⟨l, r, hk, hlr⟩ := sh.childOf _ _ hp
    refine ⟨exchange n m l, exchange n m r, by rw [x.internal]; simpa using hk, ?_⟩
    exact hlr.imp (fun h => by rw [← h]; simp) (fun h => by rw [← h]; simp)
  · intro h hh; exact under h (sh.rooted h ((x.inTree h).1 hh))
  · intro h
    rw [x.nyth, ← sh.nyt, x.2 h]
    cases (e.node h).kind <;> simp [Kind.rename]
  · intro b h
    rw [x.leafOf, sh.leaves, x.2 h]
    cases (e.node h).kind <;> simp [Kind.rename]
  · rw [x.keylast, x.nsym]; exact sh.keylast
  · intro h hh
    rw [x.inTree] at hh
    rw [x.key, x.keylast]; exact sh.keyRange _ ((xin h).2 hh)
  · intro a b ha hb hab
    rw [x.inTree] at ha hb
    rw [x.key, x.key] at hab
    exact exchange_inj (sh.keysDistinct _ _ ((xin a).2 ha) ((xin b).2 hb) hab)

/-! Changes of weights and of the swap log -/

/-- Registers that differ in weights of slots in the tree, and in the swap log, only. -/
structure SameLinks (e f : Engine) : Prop where
  nyth : f.nyth = e.nyth
  nsym : f.nsym = e.nsym
  keylast : f.keylast = e.keylast
  lookup : f.lookup = e.lookup
  kind : ∀ h, (f.node h).kind = (e.node h).kind
  key : ∀ h, (f.node h).key = (e.node h).key
  parent : ∀ h, (f.node h).parent = (e.node h).parent
  free : ∀ h, ¬ e.InTree h → f.node h = e.node h

theorem SameLinks.inTree {e f : Engine} (s : SameLinks e f) (h : Handle) : f.InTree h ↔ e.InTree h := by
  unfold Engine.InTree; rw [s.kind]

theorem SameLinks.leafOf {e f : Engine} (s : SameLinks e f) (b : Byte) : f.leafOf b = e.leafOf b := by
  unfold Engine.leafOf; rw [s.lookup]

theorem SameLinks.siblings {e f : Engine} (s : SameLinks e f) {a b : Handle} : f.Siblings a b ↔ e.Siblings a b := by
  unfold Engine.Siblings; simp only [s.parent]

theorem SameLinks.above {e f : Engine} (s : SameLinks e f) {a b : Handle} (h : e.Above a b) : f.Above a b := by
  induction h with
  | parent link => exact .parent (by rw [s.parent, link])
  | up link _ ih => exact .up (by rw [s.parent, link]) ih

theorem SameLinks.symm {e f : Engine} (s : SameLinks e f) : SameLinks f e :=
  ⟨s.nyth.symm, s.nsym.symm, s.keylast.symm, s.lookup.symm, fun h => (s.kind h).symm, fun h => (s.key h).symm,
    fun h => (s.parent h).symm, fun h hh => (s.free h (fun h' => hh ((s.inTree h).2 h'))).symm⟩

theorem TreeShape.sameLinks {e f : Engine} (sh : TreeShape e) (s : SameLinks e f) : TreeShape f := by
  have under : ∀ h, e.UnderRoot h → f.UnderRoot h := by
    intro h u
    induction u with
    | root => exact .root
    | child link _ ih => exact .child (by rw [s.parent, link]) ih
  constructor
  · rw [s.lookup, s.nsym]; exact sh.symbols
  · intro h; rw [s.inTree, s.nsym]; exact sh.slots h
  · rw [s.nyth, s.nsym]; exact sh.nytSlot
  · intro h hh
    rw [s.inTree] at hh
    rw [s.free h hh]; exact sh.freeSlots h hh
  · rw [s.parent]; exact sh.rootTop
  · intro h hh hr; rw [s.parent]; exact sh.parented h ((s.inTree h).1 hh) hr
  · intro p l r hk
    rw [s.kind] at hk
    rw [s.inTree, s.inTree, s.parent, s.parent]; exact sh.children p l r hk
  · intro h p hp
    rw [s.parent] at hp
    rw [s.kind]; exact sh.childOf h p hp
  · intro h hh; exact under h (sh.rooted h ((s.inTree h).1 hh))
  · intro h; rw [s.kind, s.nyth]; exact sh.nyt h
  · intro b h; rw [s.leafOf, s.kind]; exact sh.leaves b h
  · rw [s.keylast, s.nsym]; exact sh.keylast
  · intro h hh; rw [s.key, s.keylast]; exact sh.keyRange h ((s.inTree h).1 hh)
  · intro a b ha hb; rw [s.key, s.key]; exact sh.keysDistinct a b ((s.inTree a).1 ha) ((s.inTree b).1 hb)

theorem increment_node (e : Engine) (n h : Handle) :
    (e.increment n).node h = if h = n then { e.node n with weight := (e.node n).weight + 1 } else e.node h := by
  unfold Engine.increment; exact node_setNode e n h _

theorem increment_sameLinks {e : Engine} {n : Handle} (hn : e.InTree n) : SameLinks e (e.increment n) := by
  refine ⟨rfl, rfl, rfl, rfl, ?_, ?_, ?_, ?_⟩ <;> intro h <;> rw [increment_node]
  · split <;> simp_all
  · split <;> simp_all
  · split <;> simp_all
  · intro hh
    rw [if_neg]; rintro rfl; exact hh hn

theorem log_sameLinks (e : Engine) (c : Nat) (log : Vector SwapEntry swaplogN) :
    SameLinks e { e with swapcnt := c, swaplog := log } :=
  ⟨rfl, rfl, rfl, rfl, fun _ => rfl, fun _ => rfl, fun _ => rfl, fun _ _ => rfl⟩

/-! Split -/

theorem slot_val {k : Nat} (h : k < nnodes) : (slot k).val = k := by
  unfold slot; exact Nat.mod_eq_of_lt h

/-- The slots after `Split` (40_tree R131, R132). -/
theorem split_node (e : Engine) (b : Byte) (h : Handle) :
    (e.split b).1.node h =
      if h = slot (2 * e.nsym + 2) then { kind := .leaf b, weight := 0, key := e.keylast - 3, parent := some e.nyth }
      else if h = slot (2 * e.nsym + 1) then { kind := .nyt, weight := 0, key := e.keylast - 2, parent := some e.nyth }
      else if h = e.nyth then { e.node e.nyth with
        kind := .internal (slot (2 * e.nsym + 1)) (slot (2 * e.nsym + 2)), key := e.keylast - 1 }
      else e.node h := by
  show (((e.setNode _ _).setNode _ _).setNode _ _).node h = _
  rw [node_setNode, node_setNode, node_setNode]

theorem split_leafOf (e : Engine) (b c : Byte) :
    (e.split b).1.leafOf c = if c = b then some (slot (2 * e.nsym + 2)) else e.leafOf c := by
  show Vector.get (e.lookup.set b.toNat (some (slot (2 * e.nsym + 2))) b.isLt) c.toFin = _
  rw [Vector.get_eq_getElem, Vector.getElem_set]
  by_cases h : c = b
  · subst h; simp
  · have : ¬ b.toNat = c.toFin.val := fun h' => h (BitVec.eq_of_toNat_eq h'.symm)
    rw [if_neg h, if_neg this]; rfl

/-- A tree after `Split` of the byte `b` (40_tree R131): `i` is the old NYT, `y` the new one, and `l` the new leaf. -/
structure Grown (e f : Engine) (b : Byte) (i y l : Handle) : Prop where
  few : e.nsym < 256
  nsym : f.nsym = e.nsym + 1
  keylast : f.keylast = e.keylast - 3
  keys : e.keylast + 3 * e.nsym = 768
  yv : y.val = 2 * e.nsym + 1
  lv : l.val = 2 * e.nsym + 2
  oldNyt : i = e.nyth
  newNyt : f.nyth = y
  iin : e.InTree i
  yout : ¬ e.InTree y
  lout : ¬ e.InTree l
  yl : y ≠ l
  iy : i ≠ y
  il : i ≠ l
  lookup : f.lookup = e.lookup.set b.toNat (some l) b.isLt
  leafOf : ∀ c, f.leafOf c = if c = b then some l else e.leafOf c
  nl : f.node l = { kind := .leaf b, weight := 0, key := e.keylast - 3, parent := some i }
  ny : f.node y = { kind := .nyt, weight := 0, key := e.keylast - 2, parent := some i }
  ni : f.node i = { e.node i with kind := .internal y l, key := e.keylast - 1 }
  no : ∀ h, h ≠ l → h ≠ y → h ≠ i → f.node h = e.node h
  /-- The old links never point at the new slots, nor do they leave the old NYT. -/
  old : ∀ h p, (e.node h).parent = some p → p ≠ l ∧ p ≠ y ∧ p ≠ i ∧ h ≠ l ∧ h ≠ y
  pold : ∀ h, h ≠ l → h ≠ y → (f.node h).parent = (e.node h).parent
  inTree : ∀ h, f.InTree h ↔ e.InTree h ∨ h = y ∨ h = l

theorem TreeShape.grown {e : Engine} (sh : TreeShape e) {b : Byte} (hb : e.leafOf b = none) :
    ∃ y l, (e.split b).2 = l ∧ Grown e (e.split b).1 b e.nyth y l := by
  have hk : e.nsym < 256 := sh.nsym_lt hb
  generalize hf : (e.split b).1 = f
  have nsym : f.nsym = e.nsym + 1 := by rw [← hf]; rfl
  have keylast : f.keylast = e.keylast - 3 := by rw [← hf]; rfl
  have hkl : e.keylast + 3 * e.nsym = 768 := sh.keylast
  obtain ⟨y, hy⟩ : ∃ y, y = slot (2 * e.nsym + 1) := ⟨_, rfl⟩
  obtain ⟨l, hl⟩ : ∃ l, l = slot (2 * e.nsym + 2) := ⟨_, rfl⟩
  refine ⟨y, l, by rw [hl]; rfl, ?_⟩
  obtain ⟨i, hi⟩ : ∃ i, i = e.nyth := ⟨_, rfl⟩
  rw [← hi]
  have yv : y.val = 2 * e.nsym + 1 := by rw [hy]; exact slot_val (by show _ < 513; omega)
  have lv : l.val = 2 * e.nsym + 2 := by rw [hl]; exact slot_val (by show _ < 513; omega)
  have iin : e.InTree i := hi ▸ sh.nytIn
  have ik : (e.node i).kind = .nyt := (sh.nyt i).2 hi
  have yout : ¬ e.InTree y := fun h => by have := (sh.slots y).1 h; omega
  have lout : ¬ e.InTree l := fun h => by have := (sh.slots l).1 h; omega
  have iv := (sh.slots i).1 iin
  have yl : y ≠ l := fun h => by rw [h] at yv; omega
  have iy : i ≠ y := fun h => by rw [h] at iv; omega
  have il : i ≠ l := fun h => by rw [h] at iv; omega
  have nyth : f.nyth = y := by rw [← hf, hy]; rfl
  have leafOf : ∀ c, f.leafOf c = if c = b then some l else e.leafOf c := by intro c; rw [← hf, split_leafOf, hl]
  have node : ∀ h, f.node h =
      if h = l then { kind := .leaf b, weight := 0, key := e.keylast - 3, parent := some i }
      else if h = y then { kind := .nyt, weight := 0, key := e.keylast - 2, parent := some i }
      else if h = i then { e.node i with kind := .internal y l, key := e.keylast - 1 }
      else e.node h := by intro h; rw [← hf, split_node, hl, hy, hi]
  have nl : f.node l = { kind := .leaf b, weight := 0, key := e.keylast - 3, parent := some i } := by rw [node]; simp
  have ny : f.node y = { kind := .nyt, weight := 0, key := e.keylast - 2, parent := some i } := by rw [node]; simp [yl]
  have ni : f.node i = { e.node i with kind := .internal y l, key := e.keylast - 1 } := by rw [node]; simp [iy, il]
  have no : ∀ h, h ≠ l → h ≠ y → h ≠ i → f.node h = e.node h := by
    intro h h1 h2 h3; rw [node, if_neg h1, if_neg h2, if_neg h3]
  -- the old links never point at the new slots, nor do they leave the NYT
  have old : ∀ h p, (e.node h).parent = some p → p ≠ l ∧ p ≠ y ∧ p ≠ i ∧ h ≠ l ∧ h ≠ y := by
    intro h p hp
    obtain ⟨h1, h2⟩ := sh.linkIn hp
    obtain ⟨l', r', hk', -⟩ := sh.childOf h p hp
    refine ⟨?_, ?_, ?_, ?_, ?_⟩
    · rintro rfl; exact lout h1
    · rintro rfl; exact yout h1
    · rintro rfl; rw [ik] at hk'; simp at hk'
    · rintro rfl; exact lout h2
    · rintro rfl; exact yout h2
  have pold : ∀ h, h ≠ l → h ≠ y → (f.node h).parent = (e.node h).parent := by
    intro h h1 h2
    by_cases h3 : h = i
    · rw [h3, ni]
    · rw [no h h1 h2 h3]
  have fin : ∀ h, f.InTree h ↔ e.InTree h ∨ h = y ∨ h = l := by
    intro h
    by_cases h1 : h = l
    · subst h1; simp [Engine.InTree, nl]
    by_cases h2 : h = y
    · subst h2; simp [Engine.InTree, ny]
    by_cases h3 : h = i
    · subst h3; simp only [Engine.InTree, ni]; simp [ik]
    simp only [Engine.InTree, no h h1 h2 h3, h1, h2, or_false]
  have lookup : f.lookup = e.lookup.set b.toNat (some l) b.isLt := by rw [← hf, hl]; rfl
  exact ⟨hk, nsym, keylast, hkl, yv, lv, hi, nyth, iin, yout, lout, yl, iy, il, lookup, leafOf, nl, ny, ni, no, old, pold, fin⟩

/-- A tree is still a tree after `Split` of a byte that has no leaf (40_tree R131). -/
theorem TreeShape.split {e : Engine} (sh : TreeShape e) {b : Byte} (hb : e.leafOf b = none) : TreeShape (e.split b).1 := by
  obtain ⟨y, l, -, g⟩ := sh.grown hb
  generalize (e.split b).1 = f at g
  generalize hi : e.nyth = i at g
  have ik : (e.node i).kind = .nyt := (sh.nyt i).2 hi.symm
  obtain ⟨hk, nsym, keylast, hkl, yv, lv, -, nyth, iin, yout, lout, yl, iy, il, lookup, leafOf, nl, ny, ni, no, old, pold, fin⟩ := g
  constructor
  · rw [lookup, nsym, ← sh.symbols, ← List.countP_eq_length_filter, ← List.countP_eq_length_filter, Vector.toList_set,
      List.countP_set]
    have hn : e.lookup.toList[b.toNat]'(by simpa using b.isLt) = none := by
      rw [Vector.getElem_toList]; exact hb
    · rw [hn]; simp
    · simpa using b.isLt
  · intro h
    rw [fin, nsym, sh.slots]
    constructor
    · rintro (h1 | rfl | rfl) <;> omega
    · intro h1
      by_cases h2 : h.val = 2 * e.nsym + 1
      · right; left; exact Fin.ext (by omega)
      · by_cases h3 : h.val = 2 * e.nsym + 2
        · right; right; exact Fin.ext (by omega)
        · left; omega
  · rw [nyth, nsym]; omega
  · intro h hh
    rw [fin] at hh
    push Not at hh
    have h3 : h ≠ i := by rintro rfl; exact hh.1 iin
    rw [no h hh.2.2 hh.2.1 h3]; exact sh.freeSlots h hh.1
  · have h1 : (ROOT : Handle) ≠ l := fun h => by rw [← h] at lv; simp [ROOT] at lv
    have h2 : (ROOT : Handle) ≠ y := fun h => by rw [← h] at yv; simp [ROOT] at yv
    rw [pold _ h1 h2]; exact sh.rootTop
  · intro h hh hr
    rcases (fin h).1 hh with h1 | rfl | rfl
    · have h2 : h ≠ l := by rintro rfl; exact lout h1
      have h3 : h ≠ y := by rintro rfl; exact yout h1
      rw [pold h h2 h3]; exact sh.parented h h1 hr
    · exact ⟨i, by rw [ny]⟩
    · exact ⟨i, by rw [nl]⟩
  · intro p c d hpk
    by_cases h1 : p = l
    · subst h1; rw [nl] at hpk; simp at hpk
    by_cases h2 : p = y
    · subst h2; rw [ny] at hpk; simp at hpk
    by_cases h3 : p = i
    · subst h3
      rw [ni] at hpk
      obtain ⟨rfl, rfl⟩ := Kind.internal.inj hpk
      exact ⟨yl, (fin _).2 (.inr (.inl rfl)), (fin _).2 (.inr (.inr rfl)), by rw [ny], by rw [nl]⟩
    · rw [no p h1 h2 h3] at hpk
      obtain ⟨a1, a2, a3, a4, a5⟩ := sh.children p c d hpk
      obtain ⟨-, -, -, c1, c2⟩ := old c p a4
      obtain ⟨-, -, -, d1, d2⟩ := old d p a5
      exact ⟨a1, (fin c).2 (.inl a2), (fin d).2 (.inl a3), by rw [pold c c1 c2]; exact a4, by rw [pold d d1 d2]; exact a5⟩
  · intro h p hp
    by_cases h1 : h = l
    · subst h1; rw [nl] at hp; obtain rfl := Option.some.inj hp
      exact ⟨y, h, by rw [ni], .inr rfl⟩
    by_cases h2 : h = y
    · subst h2; rw [ny] at hp; obtain rfl := Option.some.inj hp
      exact ⟨h, l, by rw [ni], .inl rfl⟩
    rw [pold h h1 h2] at hp
    obtain ⟨p1, p2, p3, -, -⟩ := old h p hp
    rw [no p p1 p2 p3]; exact sh.childOf h p hp
  · have under : ∀ h, e.UnderRoot h → f.UnderRoot h := by
      intro h u
      induction u with
      | root => exact .root
      | @child h p link above ih =>
        obtain ⟨-, -, -, h1, h2⟩ := old h p link
        exact .child (p := p) (by rw [pold h h1 h2]; exact link) ih
    intro h hh
    have ui := under i (sh.rooted i iin)
    rcases (fin h).1 hh with h1 | rfl | rfl
    · exact under h (sh.rooted h h1)
    · exact .child (p := i) (by rw [ny]) ui
    · exact .child (p := i) (by rw [nl]) ui
  · intro h
    rw [nyth]
    by_cases h1 : h = l
    · subst h1; rw [nl]; simp [yl.symm]
    by_cases h2 : h = y
    · subst h2; rw [ny]; simp
    by_cases h3 : h = i
    · subst h3; rw [ni]; simp [iy]
    rw [no h h1 h2 h3, sh.nyt, hi]; simp [h2, h3]
  · intro c h
    rw [leafOf]
    by_cases h1 : h = l
    · subst h1; rw [nl]
      by_cases hc : c = b
      · simp [hc]
      · simp only [if_neg hc, Kind.leaf.injEq, Ne.symm hc, iff_false]
        intro h'; exact lout (inTree_of_kind ((sh.leaves c h).1 h') (by simp))
    have hlh : ¬ some l = some h := fun h' => h1 (Option.some.inj h').symm
    have hcb : ∀ k, (e.node h).kind = .leaf k → k ≠ b := by
      rintro k hk' rfl
      rw [← sh.leaves, hb] at hk'; simp at hk'
    by_cases h2 : h = y
    · subst h2; rw [ny]
      have : ∀ c, e.leafOf c ≠ some h := fun c h' => yout (inTree_of_kind ((sh.leaves c h).1 h') (by simp))
      split <;> simp_all
    by_cases h3 : h = i
    · subst h3; rw [ni]
      have : ∀ c, e.leafOf c ≠ some h := fun c h' => by have := (sh.leaves c h).1 h'; rw [ik] at this; simp at this
      split <;> simp_all
    rw [no h h1 h2 h3, ← sh.leaves]
    split
    · rename_i hc; subst hc; simp [hb, hlh]
    · rfl
  · rw [keylast, nsym]; show _ = 768; omega
  · intro h hh
    show _ ∧ _ ≤ 768
    rw [keylast]
    by_cases h1 : h = l
    · subst h1; rw [nl]; simp only; omega
    by_cases h2 : h = y
    · subst h2; rw [ny]; simp only; omega
    by_cases h3 : h = i
    · subst h3; rw [ni]; simp only; omega
    rw [no h h1 h2 h3]
    have hin : e.InTree h := by rcases (fin h).1 hh with h' | h' | h' <;> simp_all
    have : e.keylast ≤ (e.node h).key ∧ (e.node h).key ≤ 768 := sh.keyRange h hin
    omega
  · have kk : ∀ h, f.InTree h → (h = l ∧ (f.node h).key = e.keylast - 3) ∨ (h = y ∧ (f.node h).key = e.keylast - 2) ∨
        (h = i ∧ (f.node h).key = e.keylast - 1) ∨
        (e.InTree h ∧ (f.node h).key = (e.node h).key ∧ e.keylast ≤ (e.node h).key) := by
      intro h hh
      by_cases h1 : h = l
      · exact .inl ⟨h1, by rw [h1, nl]⟩
      by_cases h2 : h = y
      · exact .inr (.inl ⟨h2, by rw [h2, ny]⟩)
      by_cases h3 : h = i
      · exact .inr (.inr (.inl ⟨h3, by rw [h3, ni]⟩))
      have hin : e.InTree h := by rcases (fin h).1 hh with h' | h' | h' <;> simp_all
      exact .inr (.inr (.inr ⟨hin, by rw [no h h1 h2 h3], (sh.keyRange h hin).1⟩))
    intro a c ha hc hac
    rcases kk a ha with ⟨rfl, h⟩ | ⟨rfl, h⟩ | ⟨rfl, h⟩ | ⟨ia, h, h'⟩ <;>
      rcases kk c hc with ⟨rfl, g⟩ | ⟨rfl, g⟩ | ⟨rfl, g⟩ | ⟨ic, g, g'⟩ <;> first | rfl | (exfalso; omega) | skip
    exact sh.keysDistinct a c ia ic (by omega)

/-! Walk and UpdateTree keep the shape -/

/-- Where a node in the tree goes when it is swapped with its candidate, the tree stays a tree. -/
theorem TreeShape.rebalance {e : Engine} (sh : TreeShape e) {n : Handle} (hn : e.InTree n) :
    TreeShape (e.rebalance n).eng ∧ (e.rebalance n).eng.InTree n := by
  have main : ∀ m f, e.candidate n = some m → e.swap n m = some f → TreeShape f ∧ f.InTree n := by
    intro m f hc hs
    have hm : e.InTree m := ((eligible_iff e n m).1 (candidate_some hc).1).1
    rcases swap_cases e n m with h | ⟨_, _, _, -, -, -, hsw, -⟩
    · simp [h] at hs
    · obtain ⟨g, hg, x⟩ := sh.swap_exchanged hn hm hsw
      obtain rfl := Option.some.inj (hg.symm.trans hs)
      exact ⟨sh.exchanged hn hm hsw x, (x.inTree n).2 hn⟩
  rcases rebalance_cases e n with ⟨h, -⟩ | ⟨m, -, -, h⟩ | ⟨m, f, log, hc, hs, -, h⟩ | ⟨m, f, hc, hs, -, h⟩ <;> rw [h]
  · exact ⟨sh, hn⟩
  · exact ⟨sh, hn⟩
  · obtain ⟨h1, h2⟩ := main m f hc hs
    have s := log_sameLinks f (f.swapcnt + 1) log
    exact ⟨h1.sameLinks s, (s.inTree n).2 h2⟩
  · exact main m f hc hs

theorem TreeShape.walk {k : Nat} {e : Engine} {n : Handle} (sh : TreeShape e) (hn : e.InTree n) :
    TreeShape (Engine.walk k e n).eng := by
  induction k generalizing e n with
  | zero => rw [walk_zero]; exact sh
  | succ k ih =>
    obtain ⟨h1, h2⟩ := sh.rebalance hn
    rcases hr : e.rebalance n with f | f <;> rw [hr] at h1 h2
    · rw [walk_succ_done hr]
      have s := increment_sameLinks (e := f) h2
      have h3 := TreeShape.sameLinks (e := f) h1 s
      split
      · exact h3
      · split
        · exact h3
        · rename_i p hp; exact ih h3 (h3.linkIn hp).1
    · rw [walk_succ_internal hr]; exact h1

/-- The tree at the start of the walk, and the node the walk starts at. -/
theorem TreeShape.walkStart {e : Engine} (sh : TreeShape e) (b : Byte) :
    TreeShape (e.walkStart b).1 ∧ (e.walkStart b).1.leafOf b = some (e.walkStart b).2 := by
  have s := log_sameLinks e 0 e.swaplog
  rcases walkStart_cases e b with ⟨hb, h⟩ | ⟨n, hb, h⟩ <;> rw [h]
  · exact ⟨(sh.sameLinks s).split hb, by rw [split_leafOf]; simp [Engine.split]⟩
  · exact ⟨sh.sameLinks s, hb⟩

theorem TreeShape.leafIn {e : Engine} (sh : TreeShape e) {b : Byte} {h : Handle} (hb : e.leafOf b = some h) : e.InTree h :=
  inTree_of_kind ((sh.leaves b h).1 hb) (by simp)

/-- `UpdateTree` keeps the tree a tree, however it ends. -/
theorem TreeShape.updateTree {e : Engine} (sh : TreeShape e) (b : Byte) : TreeShape (e.updateTree b).eng := by
  unfold Engine.updateTree
  generalize walkBound = k
  obtain ⟨h1, h2⟩ := sh.walkStart b
  exact h1.walk (h1.leafIn h2)

/-! What the walk counts -/

/-- A round's swap changes no weight, no leaf, and no lookup entry. -/
theorem TreeShape.rebalance_weights {e f : Engine} (sh : TreeShape e) {n : Handle} (hn : e.InTree n)
    (h : e.rebalance n = .done f) (x : Handle) :
    (f.node x).weight = (e.node x).weight ∧ (∀ b, (f.node x).kind = .leaf b ↔ (e.node x).kind = .leaf b) ∧
      f.lookup = e.lookup := by
  rcases rebalance_cases e n with ⟨h', -⟩ | ⟨m, -, -, h'⟩ | ⟨m, g, log, hc, hs, -, h'⟩ | ⟨m, g, -, -, -, h'⟩ <;> rw [h'] at h
  · obtain rfl := TreeRes.done.inj h; simp
  · simp at h
  · have hm : e.InTree m := ((eligible_iff e n m).1 (candidate_some hc).1).1
    rcases swap_cases e n m with h | ⟨_, _, _, -, -, -, hsw, -⟩
    · simp [h] at hs
    · obtain ⟨g', hg, ex⟩ := sh.swap_exchanged hn hm hsw
      obtain rfl := Option.some.inj (hg.symm.trans hs)
      obtain rfl := TreeRes.done.inj h
      refine ⟨ex.weight x, fun b => ?_, ex.lookup⟩
      show (g'.node x).kind = _ ↔ _
      rw [ex.2 x]
      cases (e.node x).kind <;> simp [Kind.rename]
  · simp at h

/-- The walk adds 1 to the root and to the node it starts at, when that is a leaf, and leaves every other leaf's weight alone
(40_tree R135, R139). -/
theorem TreeShape.walk_counts {k : Nat} {e f : Engine} {n : Handle} (sh : TreeShape e) (hn : e.InTree n)
    (h : Engine.walk k e n = .done f) :
    (f.node ROOT).weight = (e.node ROOT).weight + 1 ∧ f.lookup = e.lookup ∧
      ∀ x b, (e.node x).kind = .leaf b → (f.node x).kind = .leaf b ∧
        (f.node x).weight = (e.node x).weight + if x = n then 1 else 0 := by
  induction k generalizing e n with
  | zero => rw [walk_zero] at h; simp at h
  | succ k ih =>
    obtain ⟨h1, h2⟩ := sh.rebalance hn
    rcases hr : e.rebalance n with g | g <;> rw [hr] at h1 h2
    · rw [walk_succ_done hr] at h
      have rw' := sh.rebalance_weights hn hr
      have s := increment_sameLinks (e := g) h2
      have h3 : TreeShape (g.increment n) := TreeShape.sameLinks (e := g) h1 s
      have iw : ∀ x, ((g.increment n).node x).weight = (e.node x).weight + if x = n then 1 else 0 := by
        intro x
        rw [increment_node]
        split
        · rename_i hx; subst hx; simp [(rw' x).1]
        · simp [(rw' x).1]
      have ik : ∀ x b, (e.node x).kind = .leaf b → ((g.increment n).node x).kind = .leaf b := by
        intro x b hk; rw [s.kind, (rw' x).2.1 b]; exact hk
      split at h
      · rename_i hroot
        obtain rfl := TreeRes.done.inj h
        refine ⟨by rw [iw]; simp [hroot], by rw [s.lookup]; exact (rw' n).2.2, fun x b hk => ⟨ik x b hk, iw x⟩⟩
      · rename_i hroot
        obtain ⟨p, hp⟩ := TreeShape.parented (e := g) h1 n h2 hroot
        have hp' : ((g.increment n).node n).parent = some p := by rw [s.parent]; exact hp
        rw [hp'] at h
        obtain ⟨i1, i2, i3⟩ := ih h3 (h3.linkIn hp').1 h
        refine ⟨?_, by rw [i2, s.lookup]; exact (rw' n).2.2, fun x b hk => ?_⟩
        · rw [i1, iw]; simp [Ne.symm hroot]
        · obtain ⟨j1, j2⟩ := i3 x b (ik x b hk)
          refine ⟨j1, ?_⟩
          have hxp : x ≠ p := by
            rintro rfl
            obtain ⟨l, r, hk', -⟩ := h3.childOf n x hp'
            rw [ik x b hk] at hk'; simp at hk'
          rw [j2, iw, if_neg hxp]; rfl
    · rw [walk_succ_internal hr] at h; simp at h

/-- `Split` changes no weight of a node that was in the tree (40_tree R131). -/
theorem Grown.weight {e f : Engine} {b : Byte} {i y l h : Handle} (g : Grown e f b i y l) (hh : e.InTree h) :
    (f.node h).weight = (e.node h).weight := by
  have h1 : h ≠ l := by rintro rfl; exact g.lout hh
  have h2 : h ≠ y := by rintro rfl; exact g.yout hh
  by_cases h3 : h = i
  · rw [h3, g.ni]
  · rw [g.no h h1 h2 h3]

theorem TreeShape.walkStart_weight {e : Engine} (sh : TreeShape e) (b : Byte) {h : Handle} (hh : e.InTree h) :
    ((e.walkStart b).1.node h).weight = (e.node h).weight := by
  have s := log_sameLinks e 0 e.swaplog
  rcases walkStart_cases e b with ⟨hb, hw⟩ | ⟨n, -, hw⟩ <;> rw [hw]
  · obtain ⟨y, l, -, g⟩ := (sh.sameLinks s).grown (b := b) hb
    exact g.weight ((s.inTree h).2 hh)
  · rfl

end Sys2Proof.Machine
end

