-- ==== Sys2Proof/Laws/Walk.lean ====
section
/-! SUPPORT. The walk of FGK keeps the sibling property (40_tree R135, R138): what holds at the start of each round of its loop,
that each round keeps it, and that the walk ends well. -/

namespace Sys2Proof.Machine

open Sys2Proof.Config

/-! What the weights between commands give -/

/-- Every node but the NYT has a positive weight (40_tree R138 (d)). -/
theorem WeightOrder.positive {e : Engine} (wo : WeightOrder e) (sh : TreeShape e) {h : Handle} (ht : e.InTree h)
    (hn : h ≠ e.nyth) : 0 < (e.node h).weight := by
  have main : ∀ k h d, e.Depth h d → e.InTree h → h ≠ e.nyth → 513 - d ≤ k → 0 < (e.node h).weight := by
    intro k
    induction k with
    | zero =>
      intro h d hd _ _ hk
      have := sh.depth_le_nsym hd
      have : e.nsym ≤ 256 := sh.nsym_le
      omega
    | succ k ih =>
      intro h d hd ht hn hk
      rcases hkind : (e.node h).kind with _ | ⟨l, r⟩ | b | _
      · exact absurd hkind ht
      · obtain ⟨hlr, hl, hr, pl, pr⟩ := sh.children h l r hkind
        have hs := wo.sums h l r hkind
        by_cases hln : l = e.nyth
        · have := ih r (d + 1) (.child pr hd) hr (fun h => hlr (by rw [hln, h])) (by omega)
          omega
        · have := ih l (d + 1) (.child pl hd) hl hln (by omega)
          omega
      · exact wo.leafPositive h b hkind
      · exact absurd ((sh.nyt h).1 hkind) hn
  obtain ⟨d, hd⟩ := sh.depth ht
  exact main 513 h d hd ht hn (by omega)

/-- A child and its parent are not siblings. -/
theorem TreeShape.not_siblings_parent {e : Engine} (sh : TreeShape e) {h p : Handle} (hp : (e.node h).parent = some p) :
    ¬ e.Siblings h p := by
  rintro ⟨-, q, hq, pq⟩
  obtain rfl := Option.some.inj (hp.symm.trans hq)
  exact sh.not_above_self _ (.parent pq)

/-- The other child of a parent. -/
theorem TreeShape.other {e : Engine} (sh : TreeShape e) {h p : Handle} (hp : (e.node h).parent = some p) :
    ∃ q, e.Siblings h q ∧ e.InTree q ∧ (e.node q).parent = some p ∧
      ((e.node p).kind = .internal h q ∨ (e.node p).kind = .internal q h) := by
  obtain ⟨q, -, s, hq⟩ := sh.sibling_eq hp
  obtain ⟨p', hq', hp', hk⟩ := sh.siblings_kind (siblings_symm s)
  obtain rfl := Option.some.inj (hp.symm.trans hq')
  exact ⟨q, siblings_symm s, hq, hp', hk⟩

theorem TreeShape.parent_ne {e : Engine} (sh : TreeShape e) {h p : Handle} (hp : (e.node h).parent = some p) : p ≠ h := by
  rintro rfl; exact sh.not_above_self _ (.parent hp)

/-- A parent is not the NYT. -/
theorem TreeShape.parent_ne_nyt {e : Engine} (sh : TreeShape e) {h p : Handle} (hp : (e.node h).parent = some p) :
    p ≠ e.nyth := by
  intro hn
  obtain ⟨l, r, hk, -⟩ := sh.childOf h p hp
  rw [(sh.nyt p).2 hn] at hk
  simp at hk

/-- A parent has a larger key than its children (40_tree R138 (b)). -/
theorem WeightOrder.parentKey {e : Engine} (wo : WeightOrder e) (sh : TreeShape e) {h p : Handle}
    (hp : (e.node h).parent = some p) : (e.node h).key < (e.node p).key := by
  obtain ⟨ip, ih⟩ := sh.linkIn hp
  by_contra hlt
  have hne : (e.node p).key ≠ (e.node h).key := fun h' => sh.parent_ne hp (sh.keysDistinct _ _ ip ih h')
  have hw := wo.order h p ih ip (sh.not_siblings_parent hp) (by omega)
  obtain ⟨q, s, iq, pq, hk⟩ := sh.other hp
  have hsum : (e.node p).weight = (e.node h).weight + (e.node q).weight := by
    rcases hk with hk | hk
    · exact wo.sums _ _ _ hk
    · rw [wo.sums _ _ _ hk, Nat.add_comm]
  have hq : q = e.nyth := by
    by_contra hq
    have := wo.positive sh iq hq
    omega
  subst hq
  have := wo.nytPairLowest h p (.inr s) ip (sh.parent_ne_nyt hp) ?_
  · omega
  · rintro ⟨-, p', hp', pn⟩
    obtain rfl := Option.some.inj (pq.symm.trans pn)
    exact sh.parent_ne hp' rfl

/-! The rounds of the walk -/

/-- What holds in every round of the walk at node `n`: the weights below `n` are already counted, so that `n`'s children sum to
one more than `n`, and one pair may be out of order: `n` below its own child when that child is the NYT's sibling. -/
structure WalkBase (e : Engine) (n : Handle) : Prop where
  shape : TreeShape e
  cur : e.InTree n
  notNyt : n ≠ e.nyth
  nytZero : (e.node e.nyth).weight = 0
  positive : ∀ h, e.InTree h → h ≠ e.nyth → (h = n → (e.node e.nyth).parent ≠ some n) → 0 < (e.node h).weight
  sums : ∀ p l r, (e.node p).kind = .internal l r →
    (e.node l).weight + (e.node r).weight = (e.node p).weight + if p = n then 1 else 0
  order : ∀ a b, e.InTree a → e.InTree b → ¬ e.Siblings a b → (e.node b).key < (e.node a).key →
    (e.node b).weight ≤ (e.node a).weight ∨ (a = n ∧ e.Siblings b e.nyth ∧ (e.node b).parent = some a)
  adjacent : ∀ a b x, e.Siblings a b → e.InTree x → ¬ ((e.node a).key < (e.node x).key ∧ (e.node x).key < (e.node b).key)
  lowest : ∀ a x, (a = e.nyth ∨ e.Siblings a e.nyth) → e.InTree x → x ≠ e.nyth → ¬ e.Siblings x e.nyth →
    (e.node a).key < (e.node x).key
  next : ∀ p x, (e.node e.nyth).parent = some p → e.InTree x → x ≠ e.nyth → ¬ e.Siblings x e.nyth → x ≠ p →
    (e.node p).key < (e.node x).key
  parentKey : ∀ h p, (e.node h).parent = some p → (e.node h).key < (e.node p).key

/-- At the start of a round. -/
structure WalkInv (e : Engine) (n : Handle) : Prop extends WalkBase e n where
  settled : (e.node e.nyth).parent = some n → e.candidate n = none

/-- After the swap of a round: no node with a larger key than `n` has its weight, but for its sibling, and for its parent when
the sibling is the NYT. -/
structure WalkMid (e : Engine) (n : Handle) : Prop extends WalkBase e n where
  top : ∀ x, e.InTree x → (e.node n).key < (e.node x).key → (e.node x).weight = (e.node n).weight →
    e.Siblings x n ∨ (e.Siblings n e.nyth ∧ (e.node n).parent = some x)
  last : e.Siblings n e.nyth → e.candidate n = none

theorem WalkBase.aboveKey {e : Engine} {n : Handle} (w : WalkBase e n) {a h : Handle} (ab : e.Above a h) :
    (e.node h).key < (e.node a).key := by
  induction ab with
  | parent link => exact w.parentKey _ _ link
  | up link _ ih => exact (w.parentKey _ _ link).trans ih

theorem WalkBase.rootKey {e : Engine} {n : Handle} (w : WalkBase e n) {x : Handle} (hx : e.InTree x) :
    (e.node x).key ≤ (e.node ROOT).key := by
  by_cases h : x = ROOT
  · rw [h]
  · exact (w.aboveKey (w.shape.root_above hx h)).le

/-- The weight of a parent other than `n`, by its child and the other child. -/
theorem WalkBase.parentWeight {e : Engine} {n : Handle} (w : WalkBase e n) {h p : Handle}
    (hp : (e.node h).parent = some p) (hpn : p ≠ n) :
    ∃ q, e.Siblings h q ∧ e.InTree q ∧ (e.node q).parent = some p ∧
      (e.node p).weight = (e.node h).weight + (e.node q).weight := by
  obtain ⟨q, s, iq, pq, hk⟩ := w.shape.other hp
  refine ⟨q, s, iq, pq, ?_⟩
  rcases hk with hk | hk
  · have := w.sums _ _ _ hk; simp only [hpn, if_false] at this; omega
  · have := w.sums _ _ _ hk; simp only [hpn, if_false] at this; omega

/-- The nodes above `n` weigh no less the higher they stand. -/
theorem WalkBase.aboveWeight {e : Engine} {n : Handle} (w : WalkBase e n) {a h : Handle} (ab : e.Above a h)
    (hn : h = n ∨ e.Above h n) : (e.node h).weight ≤ (e.node a).weight := by
  induction ab with
  | @parent h link =>
    have han : e.Above a n := by
      rcases hn with rfl | hn
      · exact .parent link
      · exact above_trans (.parent link) hn
    obtain ⟨q, -, -, -, hw⟩ := w.parentWeight link (fun h' => w.shape.not_above_self n (h' ▸ han))
    omega
  | @up h p link _ ih =>
    have hpn : e.Above p n := by
      rcases hn with rfl | hn
      · exact .parent link
      · exact above_trans (.parent link) hn
    obtain ⟨q, -, -, -, hw⟩ := w.parentWeight link (fun h' => w.shape.not_above_self n (h' ▸ hpn))
    have := ih (.inr hpn)
    omega

/-- A node above `n` with the weight of `n` is its parent, and the NYT its sibling. -/
theorem WalkBase.aboveSame {e : Engine} {n x : Handle} (w : WalkBase e n) (ab : e.Above x n)
    (hw : (e.node x).weight = (e.node n).weight) : e.Siblings n e.nyth ∧ (e.node n).parent = some x := by
  have first : ∀ p, (e.node n).parent = some p → (e.node p).weight = (e.node n).weight → e.Siblings n e.nyth := by
    intro p hp hpw
    obtain ⟨q, s, iq, pq, hs⟩ := w.parentWeight hp (w.shape.parent_ne hp)
    have hq : q = e.nyth := by
      by_contra hq
      have := w.positive q iq hq (fun h => absurd h.symm s.1)
      omega
    exact hq ▸ s
  cases ab with
  | parent link => exact ⟨first x link hw, link⟩
  | @up _ p link ab =>
    exfalso
    obtain ⟨q, -, -, -, h1⟩ := w.parentWeight link (w.shape.parent_ne link)
    have h2 := w.aboveWeight ab (.inr (.parent link))
    have s := first p link (by omega)
    obtain ⟨p', -, p1, -⟩ := w.shape.siblings_kind s
    have pn : (e.node e.nyth).parent = some p := by
      obtain ⟨-, p'', h', h''⟩ := s
      obtain rfl := Option.some.inj (link.symm.trans h'); exact h''
    have climb : ∃ z, (e.node p).parent = some z ∧ (z = x ∨ e.Above x z) := by
      cases ab with
      | parent l => exact ⟨x, l, .inl rfl⟩
      | up l ab => exact ⟨_, l, .inr ab⟩
    obtain ⟨z, hz, hzx⟩ := climb
    have zab : e.Above z n := .up link (.parent hz)
    obtain ⟨q', s', iq', pq', h3⟩ := w.parentWeight hz (fun h => w.shape.not_above_self n (h ▸ zab))
    have h4 : (e.node z).weight ≤ (e.node x).weight := by
      rcases hzx with rfl | h
      · exact le_refl _
      · exact w.aboveWeight h (.inr zab)
    have hpz : p ≠ z := fun h => w.shape.parent_ne hz h.symm
    have hqn : q' ≠ n := by
      rintro rfl
      exact hpz (Option.some.inj (link.symm.trans pq'))
    have hq' : q' ≠ e.nyth := by
      rintro rfl
      exact hpz (Option.some.inj (pn.symm.trans pq'))
    have := w.positive q' iq' hq' (fun h => absurd h hqn)
    omega

/-- No candidate: the round goes on where it is. -/
theorem WalkInv.mid_none {e : Engine} {n : Handle} (w : WalkInv e n) (hc : e.candidate n = none) : WalkMid e n := by
  refine { w.toWalkBase with top := ?_, last := fun _ => hc }
  intro x hx hk hw
  by_cases ab : e.Above x n
  · exact .inr (w.aboveSame ab hw)
  · left
    by_contra hs
    have hne : x ≠ n := by rintro rfl; omega
    have hr : x ≠ ROOT := by
      rintro rfl
      by_cases hn : n = ROOT
      · exact hne hn.symm
      · exact ab (w.shape.root_above w.cur hn)
    have := candidate_none hc x ((eligible_iff e n x).2 ⟨hx, hw, hne, hr,
      fun h => hs (w.shape.sibling_iff.1 h.symm), fun h => ab ((w.shape.mem_ancestors w.cur).1 h)⟩)
    omega

/-- What a candidate is (40_tree R133). -/
structure IsCandidate (e : Engine) (n m : Handle) : Prop where
  inTree : e.InTree m
  weight : (e.node m).weight = (e.node n).weight
  ne : m ≠ n
  notRoot : m ≠ ROOT
  notSibling : ¬ e.Siblings m n
  notAbove : ¬ e.Above m n
  key : (e.node n).key < (e.node m).key

theorem WalkBase.isCandidate {e : Engine} {n m : Handle} (w : WalkBase e n) (hc : e.candidate n = some m) :
    IsCandidate e n m := by
  obtain ⟨he, hk, -⟩ := candidate_some hc
  obtain ⟨h1, h2, h3, h4, h5, h6⟩ := (eligible_iff e n m).1 he
  exact ⟨h1, h2, h3, h4, fun s => h5 (w.shape.sibling_iff.2 s).symm, fun h => h6 ((w.shape.mem_ancestors w.cur).2 h), hk⟩

/-- The swap of `n` with its candidate is never refused (40_tree R142). -/
theorem WalkBase.swappable {e : Engine} {n m : Handle} (w : WalkBase e n) (c : IsCandidate e n m) :
    e.swappable n m = true := by
  rw [w.shape.swappable_iff w.cur c.inTree]
  have hn : n ≠ ROOT := by
    rintro rfl
    have := w.rootKey c.inTree
    have := c.key
    omega
  refine ⟨hn, c.notRoot, c.notAbove, fun h => ?_, fun h => ?_⟩
  · have := w.aboveKey h
    have := c.key
    omega
  · obtain ⟨p, hp⟩ := w.shape.parented n w.cur hn
    exact c.notSibling ⟨c.ne, p, by rw [← h, hp], hp⟩

/-- A candidate: after the swap the round goes on at `m`'s old place. -/
theorem WalkInv.mid_swap {e f : Engine} {n m : Handle} (w : WalkInv e n) (hc : e.candidate n = some m)
    (x : Exchanged n m e f) : WalkMid f n := by
  have c := w.isCandidate hc
  have sh := w.shape
  have hs := w.swappable c
  have hin : ∀ h, f.InTree h → e.InTree (exchange n m h) := fun h hh => (inTree_exchange w.cur c.inTree).2 ((x.inTree h).1 hh)
  -- neither the NYT nor its parent takes part
  have nytPar : (e.node e.nyth).parent ≠ some n := fun h => by have := w.settled h; rw [this] at hc; simp at hc
  have mNyt : m ≠ e.nyth := by
    intro h
    have := w.lowest e.nyth n (.inl rfl) w.cur w.notNyt (fun s => c.notSibling (h ▸ siblings_symm s))
    have := c.key
    rw [h] at this
    omega
  have nytParM : (e.node e.nyth).parent ≠ some m := by
    intro h
    have hns : ¬ e.Siblings n e.nyth := by
      rintro ⟨-, p, hp, hq⟩
      obtain rfl := Option.some.inj (h.symm.trans hq)
      exact c.notAbove (.parent hp)
    have := w.next m n h w.cur w.notNyt hns c.ne.symm
    have := c.key
    omega
  have sNyt : exchange n m e.nyth = e.nyth := exchange_other w.notNyt.symm mNyt.symm
  have wt : ∀ h, (e.node (exchange n m h)).weight = (e.node h).weight := by
    intro h
    unfold exchange
    split
    · rename_i h1; rw [h1, c.weight]
    · split
      · rename_i h1; rw [h1, c.weight]
      · rfl
  have np : (f.node f.nyth).parent = (e.node e.nyth).parent := by rw [x.nyth, x.parent, sNyt]
  have ns : ¬ e.Siblings n e.nyth ∨ ¬ e.Siblings m e.nyth := by
    by_contra h
    push Not at h
    exact c.ne (sh.siblings_unique h.2 h.1)
  have sib : ∀ {a}, f.Siblings a f.nyth ↔ e.Siblings (exchange n m a) e.nyth := by
    intro a; rw [x.siblings, x.nyth, sNyt]
  refine {
    shape := sh.exchanged w.cur c.inTree hs x
    cur := (x.inTree n).2 w.cur
    notNyt := by rw [x.nyth]; exact w.notNyt
    nytZero := by rw [x.nyth, x.weight]; exact w.nytZero
    positive := ?_, sums := ?_, order := ?_, adjacent := ?_, lowest := ?_, next := ?_, parentKey := ?_, top := ?_, last := ?_ }
  · intro h hh hn _
    rw [x.weight]
    exact w.positive h ((x.inTree h).1 hh) (by rw [← x.nyth]; exact hn) (fun _ => nytPar)
  · intro p l r hk
    have := w.sums p _ _ (x.internal.1 hk)
    rw [wt, wt] at this
    rw [x.weight, x.weight, x.weight]; exact this
  · intro a b ha hb hab hk
    rw [x.siblings] at hab
    rw [x.key, x.key] at hk
    rw [x.weight, x.weight]
    rcases w.order _ _ (hin a ha) (hin b hb) hab hk with h | ⟨h1, ⟨-, p, hp, hq⟩, h3⟩
    · left; rwa [wt, wt] at h
    · exfalso
      rw [h1] at h3
      rw [h3] at hp
      exact nytPar (by rw [hq, hp])
  · intro a b y hab hy
    rw [x.siblings] at hab
    rw [x.key, x.key, x.key]
    exact w.adjacent _ _ _ hab (hin y hy)
  · intro a y ha hy hyn hys
    rw [sib] at hys
    rw [x.key, x.key]
    refine w.lowest _ _ ?_ (hin y hy) ?_ hys
    · rcases ha with h | h
      · left; rw [h, x.nyth, sNyt]
      · right; rwa [sib] at h
    · intro h; rw [exchange_eq_iff, sNyt] at h; exact hyn (by rw [x.nyth]; exact h)
  · intro p y hp hy hyn hys hyp
    rw [np] at hp
    rw [sib] at hys
    have hpn : p ≠ n := by rintro rfl; exact nytPar hp
    have hpm : p ≠ m := by rintro rfl; exact nytParM hp
    rw [x.key, x.key, exchange_other hpn hpm]
    refine w.next _ _ hp (hin y hy) ?_ hys ?_
    · intro h; rw [exchange_eq_iff, sNyt] at h; exact hyn (by rw [x.nyth]; exact h)
    · intro h; rw [exchange_eq_iff, exchange_other hpn hpm] at h; exact hyp h
  · intro h p hp
    rw [x.parent] at hp
    rw [x.key, x.key]
    have hlt := w.parentKey _ _ hp
    by_cases hpn : p = n
    · rw [hpn] at hlt ⊢; rw [exchange_left]; exact hlt.trans c.key
    by_cases hpm : p = m
    · rw [hpm] at hp hlt ⊢
      rw [exchange_right]
      generalize exchange n m h = d at hp hlt ⊢
      have hdn : d ≠ n := by rintro rfl; exact c.notAbove (.parent hp)
      have id := (sh.linkIn hp).2
      by_contra hk
      have hkne : (e.node n).key ≠ (e.node d).key := fun h' => hdn (sh.keysDistinct _ _ w.cur id h').symm
      have hds : ¬ e.Siblings d n := by
        rintro ⟨-, q, hq, hq'⟩
        obtain rfl := Option.some.inj (hp.symm.trans hq)
        exact c.notAbove (.parent hq')
      obtain ⟨q, s, iq, pq, hw⟩ := w.parentWeight hp c.ne
      have hqn : q ≠ n := by rintro rfl; exact c.notAbove (.parent pq)
      have hqt : q ≠ e.nyth := by rintro rfl; exact nytParM pq
      have := w.positive q iq hqt (fun h => absurd h hqn)
      have := c.weight
      rcases w.order d n id w.cur hds (by omega) with h | ⟨h, -, -⟩
      · omega
      · exact hdn h
    · rw [exchange_other hpn hpm]; exact hlt
  · intro y hy hk hw
    exfalso
    rw [x.weight, x.weight] at hw
    have hyn : y ≠ n := by rintro rfl; omega
    have hym : y ≠ m := by
      rintro rfl
      rw [x.key, x.key, exchange_left, exchange_right] at hk
      have := c.key
      omega
    rw [x.key, x.key, exchange_left, exchange_other hyn hym] at hk
    have iy := (x.inTree y).1 hy
    by_cases ab : e.Above y n
    · obtain ⟨s, hp⟩ := w.aboveSame ab hw
      have hpn : (e.node e.nyth).parent = some y := by
        obtain ⟨-, q, h1, h2⟩ := s
        obtain rfl := Option.some.inj (hp.symm.trans h1); exact h2
      have := w.next y m hpn c.inTree mNyt (fun h => ns.elim (fun h' => h' s) (fun h' => h' h)) hym.symm
      omega
    by_cases hsib : e.Siblings n y
    · exact w.adjacent n y m hsib c.inTree ⟨c.key, hk⟩
    have hr : y ≠ ROOT := by
      rintro rfl
      by_cases hn : n = ROOT
      · exact hyn hn.symm
      · exact ab (sh.root_above w.cur hn)
    have := (candidate_some hc).2.2 y ((eligible_iff e n y).2 ⟨iy, hw, hyn, hr,
      fun h => hsib (siblings_symm (sh.sibling_iff.1 h.symm)), fun h => ab ((sh.mem_ancestors w.cur).1 h)⟩)
    omega
  · intro s
    exfalso
    rw [sib, exchange_left] at s
    have := w.lowest m n (.inr s) w.cur w.notNyt (ns.resolve_right (fun h => h s))
    have := c.key
    omega

/-- A round reads the arena only. -/
theorem WalkMid.congr {e f : Engine} {n : Handle} (w : WalkMid e n) (hn : f.nodes = e.nodes) (s : SameLinks e f) :
    WalkMid f n := by
  have nd := node_congr hn
  refine {
    shape := w.shape.sameLinks s
    cur := (s.inTree n).2 w.cur
    notNyt := by rw [s.nyth]; exact w.notNyt
    nytZero := by rw [s.nyth, nd]; exact w.nytZero
    positive := ?_, sums := ?_, order := ?_, adjacent := ?_, lowest := ?_, next := ?_, parentKey := ?_, top := ?_, last := ?_ }
  all_goals simp only [nd, s.inTree, s.siblings, s.nyth, candidate_congr hn]
  · exact w.positive
  · exact w.sums
  · exact w.order
  · exact w.adjacent
  · exact w.lowest
  · exact w.next
  · exact w.parentKey
  · exact w.top
  · exact w.last

theorem increment_weight (e : Engine) (n h : Handle) :
    ((e.increment n).node h).weight = (e.node h).weight + if h = n then 1 else 0 := by
  rw [increment_node]; split <;> simp_all

/-- The sums after the increment of `n`. -/
theorem WalkBase.incrementSums {e : Engine} {n p l r : Handle} (w : WalkBase e n)
    (hk : ((e.increment n).node p).kind = .internal l r) :
    ((e.increment n).node l).weight + ((e.increment n).node r).weight =
      ((e.increment n).node p).weight + if (e.node n).parent = some p then 1 else 0 := by
  have s := increment_sameLinks w.cur
  rw [s.kind] at hk
  obtain ⟨hlr, -, -, pl, pr⟩ := w.shape.children p l r hk
  have h := w.sums p l r hk
  rw [increment_weight, increment_weight, increment_weight]
  have ln : l = n → (e.node n).parent = some p := by rintro rfl; exact pl
  have rn : r = n → (e.node n).parent = some p := by rintro rfl; exact pr
  by_cases hnp : (e.node n).parent = some p
  · have hpn : p ≠ n := w.shape.parent_ne hnp
    have : l = n ∨ r = n := by
      obtain ⟨l', r', hk', hlr'⟩ := w.shape.childOf n p hnp
      rw [hk] at hk'
      obtain ⟨rfl, rfl⟩ := Kind.internal.inj hk'
      exact hlr'.imp Eq.symm Eq.symm
    simp only [hpn, if_false, hnp, if_true] at h ⊢
    rcases this with h1 | h1
    · have : ¬ r = n := fun h2 => hlr (h1.trans h2.symm)
      simp only [h1, this, if_true, if_false]; rw [h1] at h; omega
    · have : ¬ l = n := fun h2 => hlr (h2.trans h1.symm)
      simp only [h1, this, if_true, if_false]; rw [h1] at h; omega
  · have h1 : ¬ l = n := fun h' => hnp (ln h')
    have h2 : ¬ r = n := fun h' => hnp (rn h')
    simp only [h1, h2, hnp, if_false]; omega

/-- The order after the increment of `n`. -/
theorem WalkMid.incrementOrder {e : Engine} {n a b : Handle} (w : WalkMid e n) (ha : e.InTree a) (hb : e.InTree b)
    (hab : ¬ e.Siblings a b) (hk : (e.node b).key < (e.node a).key) :
    ((e.increment n).node b).weight ≤ ((e.increment n).node a).weight ∨
      (e.Siblings n e.nyth ∧ (e.node n).parent = some a ∧ b = n) := by
  rw [increment_weight, increment_weight]
  by_cases hbn : b = n
  · subst hbn
    have hne : a ≠ b := by rintro rfl; omega
    rcases w.order a b ha hb hab hk with h | ⟨h, -, -⟩
    · by_cases heq : (e.node a).weight = (e.node b).weight
      · rcases w.top a ha hk heq with s | ⟨s, hp⟩
        · exact absurd s hab
        · exact .inr ⟨s, hp, rfl⟩
      · left; simp only [hne, if_true, if_false]; omega
    · exact absurd h hne
  · left
    rcases w.order a b ha hb hab hk with h | ⟨h1, s, h2⟩
    · simp only [hbn, if_false]; omega
    · subst h1
      obtain ⟨p, hp, -, hk'⟩ := w.shape.siblings_kind s
      obtain rfl := Option.some.inj (h2.symm.trans hp)
      have hz := w.nytZero
      have : (e.node b).weight = (e.node a).weight + 1 := by
        rcases hk' with hk' | hk'
        · have := w.sums _ _ _ hk'; simp only [if_true] at this; omega
        · have := w.sums _ _ _ hk'; simp only [if_true] at this; omega
      simp only [hbn, if_true, if_false]; omega

/-- The increment, and on to the parent. -/
theorem WalkMid.up {e : Engine} {n p : Handle} (w : WalkMid e n) (hp : (e.node n).parent = some p) :
    WalkInv (e.increment n) p := by
  have s := increment_sameLinks w.cur
  have sh := w.shape
  have hpn : p ≠ n := sh.parent_ne hp
  have nyth : (e.increment n).nyth = e.nyth := s.nyth
  have nytw : ((e.increment n).node e.nyth).weight = 0 := by
    rw [increment_weight, w.nytZero, if_neg w.notNyt.symm]
  refine {
    shape := sh.sameLinks s
    cur := (s.inTree p).2 (sh.linkIn hp).1
    notNyt := by rw [nyth]; exact sh.parent_ne_nyt hp
    nytZero := by rw [nyth]; exact nytw
    positive := ?_, sums := ?_, order := ?_, adjacent := ?_, lowest := ?_, next := ?_, parentKey := ?_, settled := ?_ }
  · intro h hh hn _
    rw [increment_weight]
    by_cases hhn : h = n
    · simp [hhn]
    · have := w.positive h ((s.inTree h).1 hh) (by rw [← nyth]; exact hn) (fun h' => absurd h' hhn)
      omega
  · intro q l r hk
    rw [w.incrementSums hk, hp]
    simp only [Option.some.injEq, eq_comm]
  · intro a b ha hb hab hk
    rw [s.inTree] at ha hb
    rw [s.siblings] at hab
    rw [s.key, s.key] at hk
    rcases w.incrementOrder ha hb hab hk with h | ⟨h1, h2, rfl⟩
    · exact .inl h
    · right
      obtain rfl := Option.some.inj (hp.symm.trans h2)
      exact ⟨rfl, by rw [s.siblings, nyth]; exact h1, by rw [s.parent]; exact hp⟩
  · intro a b x hab hx
    rw [s.siblings] at hab
    rw [s.key, s.key, s.key]
    exact w.adjacent a b x hab ((s.inTree x).1 hx)
  · intro a x ha hx hxn hxs
    rw [s.siblings, nyth] at ha hxs
    rw [nyth] at hxn
    rw [s.key, s.key]
    exact w.lowest a x ha ((s.inTree x).1 hx) hxn hxs
  · intro q x hq hx hxn hxs hxq
    rw [s.siblings, nyth] at hxs
    rw [nyth] at hxn hq
    rw [s.parent] at hq
    rw [s.key, s.key]
    exact w.next q x hq ((s.inTree x).1 hx) hxn hxs hxq
  · intro h q hq
    rw [s.parent] at hq
    rw [s.key, s.key]
    exact w.parentKey h q hq
  · intro hpt
    rw [nyth, s.parent] at hpt
    have sib : e.Siblings n e.nyth := ⟨w.notNyt, p, hp, hpt⟩
    by_contra hne
    obtain ⟨x, hx⟩ := Option.ne_none_iff_exists'.1 hne
    obtain ⟨he, hk, -⟩ := candidate_some hx
    obtain ⟨h1, h2, h3, h4, h5, h6⟩ := (eligible_iff _ p x).1 he
    rw [increment_weight, increment_weight] at h2
    rw [s.key, s.key] at hk
    rw [s.inTree] at h1
    obtain ⟨q, sq, -, -, hw⟩ := w.parentWeight hp hpn
    have hq : q = e.nyth := sh.siblings_unique (siblings_symm sq) (siblings_symm sib)
    rw [hq, w.nytZero] at hw
    have hxn : x ≠ n := by
      rintro rfl
      simp only [if_true, hpn, if_false] at h2; omega
    simp only [hxn, hpn, if_false] at h2
    have hpos := w.positive n w.cur w.notNyt (fun _ h => hpn (Option.some.inj (hpt.symm.trans h)))
    have hab : ¬ e.Above x n := by
      intro ab
      cases ab with
      | parent link => exact h3 (Option.some.inj (link.symm.trans hp))
      | up link ab =>
        obtain rfl := Option.some.inj (link.symm.trans hp)
        exact h6 (((sh.sameLinks s).mem_ancestors ((s.inTree _).2 (sh.linkIn hp).1)).2 (s.above ab))
    have := candidate_none (w.last sib) x ((eligible_iff e n x).2 ⟨h1, by omega, hxn, h4, fun h => ?_,
      fun h => hab ((sh.mem_ancestors w.cur).1 h)⟩)
    · have := w.parentKey n p hp
      omega
    · have hxq := sh.siblings_unique (sh.sibling_iff.1 h.symm) (siblings_symm sib)
      rw [hxq, w.nytZero] at h2
      omega

/-- The increment of the root ends the walk with the weights in order. -/
theorem WalkMid.finish {e : Engine} (w : WalkMid e ROOT) : TreeShape (e.increment ROOT) ∧ WeightOrder (e.increment ROOT) := by
  have s := increment_sameLinks w.cur
  have nyth : (e.increment ROOT).nyth = e.nyth := s.nyth
  refine ⟨w.shape.sameLinks s, ?_⟩
  constructor
  · intro p l r hk
    have := w.incrementSums hk
    rw [w.shape.rootTop] at this
    simpa using this.symm
  · rw [nyth, increment_weight, w.nytZero, if_neg w.notNyt.symm]
  · intro h b hk
    rw [s.kind] at hk
    rw [increment_weight]
    have hr : (e.node e.nyth).kind = .nyt := (w.shape.nyt _).2 rfl
    by_cases hh : h = ROOT
    · simp [hh]
    · have := w.positive h (inTree_of_kind hk (by simp)) (by rintro rfl; rw [hr] at hk; simp at hk) (fun h' => absurd h' hh)
      omega
  · intro a b ha hb hab hk
    rw [s.inTree] at ha hb
    rw [s.siblings] at hab
    rw [s.key, s.key] at hk
    rcases w.incrementOrder ha hb hab hk with h | ⟨-, h2, -⟩
    · exact h
    · rw [w.shape.rootTop] at h2; simp at h2
  · intro a b x hab hx
    rw [s.siblings] at hab
    rw [s.key, s.key, s.key]
    exact w.adjacent a b x hab ((s.inTree x).1 hx)
  · intro a x ha hx hxn hxs
    rw [s.siblings, nyth] at ha hxs
    rw [nyth] at hxn
    rw [s.key, s.key]
    exact w.lowest a x ha ((s.inTree x).1 hx) hxn hxs
  · intro q x hq hx hxn hxs hxq
    rw [s.siblings, nyth] at hxs
    rw [nyth] at hxn hq
    rw [s.parent] at hq
    rw [s.key, s.key]
    exact w.next q x hq ((s.inTree x).1 hx) hxn hxs hxq

/-! The walk ends -/

/-- How many nodes of the tree have a smaller key: it grows in every round, so it bounds the rounds and the swaps. -/
def Engine.rank (e : Engine) (n : Handle) : Nat :=
  (Finset.univ.filter fun x : Handle => (e.node x).inTree = true ∧ (e.node x).key < (e.node n).key).card

theorem rank_lt {e : Engine} {n p : Handle} (hn : e.InTree n) (hk : (e.node n).key < (e.node p).key) : e.rank n < e.rank p := by
  apply Finset.card_lt_card
  rw [Finset.ssubset_iff_of_subset]
  · exact ⟨n, by simpa using ⟨hn, hk⟩, by simp⟩
  · intro x hx
    simp only [Finset.mem_filter, Finset.mem_univ, true_and] at hx ⊢
    exact ⟨hx.1, by omega⟩

theorem rank_le (e : Engine) (n : Handle) : e.rank n ≤ 512 := by
  have : e.rank n < (Finset.univ : Finset Handle).card := by
    apply Finset.card_lt_card
    rw [Finset.ssubset_iff_of_subset (Finset.subset_univ _)]
    exact ⟨n, Finset.mem_univ n, by simp⟩
  rw [Finset.card_univ, Fintype.card_fin] at this
  have h : nnodes = 513 := rfl
  omega

theorem rank_sameLinks {e f : Engine} (s : SameLinks e f) (n : Handle) : f.rank n = e.rank n := by
  unfold Engine.rank
  simp only [s.key, Node.inTree, s.kind]
  rfl

theorem rank_exchanged {e f : Engine} {n m : Handle} (hn : e.InTree n) (hm : e.InTree m) (x : Exchanged n m e f) (h : Handle) :
    f.rank h = e.rank (exchange n m h) := by
  unfold Engine.rank
  apply Finset.card_nbij' (exchange n m) (exchange n m)
  · intro y hy
    simp only [Finset.coe_filter, Finset.mem_univ, true_and, Set.mem_ofPred_eq, inTree_iff] at hy ⊢
    rw [x.key, x.key] at hy
    exact ⟨(inTree_exchange hn hm).2 ((x.inTree y).1 hy.1), hy.2⟩
  · intro y hy
    simp only [Finset.coe_filter, Finset.mem_univ, true_and, Set.mem_ofPred_eq, inTree_iff] at hy ⊢
    rw [x.key, x.key, exchange_exchange]
    exact ⟨(x.inTree _).2 ((inTree_exchange hn hm).2 hy.1), hy.2⟩
  · intro y _; simp
  · intro y _; simp

/-- One round's swap: it goes well, and counts. -/
theorem WalkInv.rebalance {e : Engine} {n : Handle} (w : WalkInv e n) (hs : e.swapcnt ≤ e.rank n) :
    ∃ f, e.rebalance n = .done f ∧ WalkMid f n ∧ e.rank n ≤ f.rank n ∧ f.swapcnt ≤ f.rank n := by
  rcases rebalance_cases e n with ⟨h, hc⟩ | ⟨m, hc, hsw, -⟩ | ⟨m, f, log, hc, hsw, -, h⟩ | ⟨m, f, hc, hsw, hl, -⟩
  · exact ⟨e, h, w.mid_none hc, le_refl _, hs⟩
  all_goals
    have c := w.isCandidate hc
    obtain ⟨g, hg, x⟩ := w.shape.swap_exchanged w.cur c.inTree (w.swappable c)
    rw [hg] at hsw
  · simp at hsw
  all_goals
    obtain rfl := Option.some.inj hsw
    have cnt : g.swapcnt = e.swapcnt := by rw [x.1]
    have hr : g.rank n = e.rank m := by rw [rank_exchanged w.cur c.inTree x, exchange_left]
    have hlt := rank_lt w.cur c.key
    have hle := rank_le e m
  · have r := rank_sameLinks (log_sameLinks g (g.swapcnt + 1) log) n
    exact ⟨_, h, (w.mid_swap hc x).congr rfl (log_sameLinks g _ log), by rw [r]; omega, by rw [r]; show g.swapcnt + 1 ≤ _; omega⟩
  · exfalso
    have : swaplogN = 512 := rfl
    omega

/-- The walk ends well, with the weights in order. -/
theorem WalkInv.walk {k : Nat} {e : Engine} {n : Handle} (w : WalkInv e n) (hs : e.swapcnt ≤ e.rank n)
    (hk : 513 ≤ k + e.rank n) : ∃ f, Engine.walk k e n = .done f ∧ TreeShape f ∧ WeightOrder f := by
  induction k generalizing e n with
  | zero =>
    have := rank_le e n
    omega
  | succ k ih =>
    obtain ⟨f, hf, mid, hr, hc⟩ := w.rebalance hs
    rw [walk_succ_done hf]
    split
    · rename_i hroot
      subst hroot
      obtain ⟨h1, h2⟩ := mid.finish
      exact ⟨_, rfl, h1, h2⟩
    · rename_i hroot
      obtain ⟨p, hp⟩ := mid.shape.parented n mid.cur hroot
      have s := increment_sameLinks mid.cur
      have hp' : ((f.increment n).node n).parent = some p := by rw [s.parent]; exact hp
      rw [hp']
      have hlt := rank_lt mid.cur (mid.parentKey n p hp)
      have r := rank_sameLinks s p
      have cnt : (f.increment n).swapcnt = f.swapcnt := rfl
      exact ih (mid.up hp) (by omega) (by omega)

/-! Where the walk starts -/

/-- At the leaf of a byte that has one. -/
theorem walkInv_leaf {e : Engine} {n : Handle} {b : Byte} (sh : TreeShape e) (wo : WeightOrder e) (hb : e.leafOf b = some n) :
    WalkInv e n := by
  have hk : (e.node n).kind = .leaf b := (sh.leaves b n).1 hb
  refine {
    shape := sh, cur := sh.leafIn hb
    notNyt := by rintro rfl; rw [(sh.nyt _).2 rfl] at hk; simp at hk
    nytZero := wo.nytZero
    positive := fun h hh hn _ => wo.positive sh hh hn
    sums := ?_
    order := fun a b ha hb hab hk => .inl (wo.order a b ha hb hab hk)
    adjacent := wo.adjacent, lowest := wo.nytPairLowest, next := wo.nytParentNext
    parentKey := fun h p hp => wo.parentKey sh hp
    settled := ?_ }
  · intro p l r hp
    have : p ≠ n := by rintro rfl; rw [hk] at hp; simp at hp
    simp only [this, if_false]
    exact (wo.sums p l r hp).symm
  · intro h
    obtain ⟨l, r, hk', -⟩ := sh.childOf _ _ h
    rw [hk] at hk'; simp at hk'

/-- At the new leaf of a split: its first round swaps nothing, and the walk goes on at the old NYT. -/
theorem walkInv_split {e : Engine} {b : Byte} (sh : TreeShape e) (wo : WeightOrder e) (hb : e.leafOf b = none) :
    (e.split b).1.candidate (e.split b).2 = none ∧ WalkInv ((e.split b).1.increment (e.split b).2) e.nyth ∧
      (e.split b).2 ≠ ROOT ∧ ((e.split b).1.node (e.split b).2).parent = some e.nyth := by
  have sf := sh.split hb
  obtain ⟨y, l, hl, g⟩ := sh.grown hb
  rw [hl]
  generalize (e.split b).1 = f at g sf
  generalize hi : e.nyth = i at g
  obtain ⟨hk, nsym, keylast, hkl, yv, lv, -, nyth, iin, yout, lout, yl, iy, il, lookup, leafOf, nl, ny, ni, no, old, pold, fin⟩ := g
  have wi : (e.node i).weight = 0 := hi ▸ wo.nytZero
  have pos : ∀ h, e.InTree h → h ≠ i → 0 < (e.node h).weight := fun h hh hn => wo.positive sh hh (hi ▸ hn)
  have lin : f.InTree l := (fin l).2 (.inr (.inr rfl))
  have sib : f.Siblings y l := ⟨yl, i, by rw [ny], by rw [nl]⟩
  -- a node of the new tree: the leaf, the NYT, the old NYT, or an old node of positive weight and of a larger key
  have cases4 : ∀ h, f.InTree h → h = l ∨ h = y ∨ h = i ∨
      (e.InTree h ∧ h ≠ l ∧ h ≠ y ∧ h ≠ i ∧ f.node h = e.node h ∧ 0 < (e.node h).weight ∧ e.keylast ≤ (e.node h).key) := by
    intro h hh
    by_cases h1 : h = l
    · exact .inl h1
    by_cases h2 : h = y
    · exact .inr (.inl h2)
    by_cases h3 : h = i
    · exact .inr (.inr (.inl h3))
    have ih : e.InTree h := by rcases (fin h).1 hh with h' | h' | h' <;> simp_all
    exact .inr (.inr (.inr ⟨ih, h1, h2, h3, no h h1 h2 h3, pos h ih h3, (sh.keyRange h ih).1⟩))
  have s := increment_sameLinks lin
  have kl : ((f.increment l).node l).key = e.keylast - 3 := by rw [s.key, nl]
  have ky : ((f.increment l).node y).key = e.keylast - 2 := by rw [s.key, ny]
  have ki : ((f.increment l).node i).key = e.keylast - 1 := by rw [s.key, ni]
  have wl : ((f.increment l).node l).weight = 1 := by rw [increment_weight, nl]; simp
  have wy : ((f.increment l).node y).weight = 0 := by rw [increment_weight, ny]; simp [yl]
  have wi' : ((f.increment l).node i).weight = 0 := by rw [increment_weight, ni]; simp [wi, il]
  have wold : ∀ h, h ≠ l → h ≠ y → h ≠ i → ((f.increment l).node h).weight = (e.node h).weight := by
    intro h h1 h2 h3; rw [increment_weight, no h h1 h2 h3]; simp [h1]
  have wold' : ∀ h, h ≠ l → h ≠ y → ((f.increment l).node h).weight = (e.node h).weight := by
    intro h h1 h2
    by_cases h3 : h = i
    · rw [h3, wi', wi]
    · exact wold h h1 h2 h3
  have kold : ∀ h, h ≠ l → h ≠ y → h ≠ i → ((f.increment l).node h).key = (e.node h).key := by
    intro h h1 h2 h3; rw [s.key, no h h1 h2 h3]
  have sold : ∀ a c, e.Siblings a c → f.Siblings a c := by
    rintro a c ⟨hne, p, pa, pc⟩
    obtain ⟨-, -, -, a1, a2⟩ := old a p pa
    obtain ⟨-, -, -, c1, c2⟩ := old c p pc
    exact ⟨hne, p, by rw [pold a a1 a2, pa], by rw [pold c c1 c2, pc]⟩
  have hnyth : (f.increment l).nyth = y := by rw [s.nyth, nyth]
  -- siblings in the new tree: the new pair, or old siblings
  have snew : ∀ a c, f.Siblings a c → (a = y ∧ c = l) ∨ (a = l ∧ c = y) ∨
      (e.Siblings a c ∧ a ≠ l ∧ a ≠ y ∧ c ≠ l ∧ c ≠ y) := by
    rintro a c sac
    by_cases h1 : a = l
    · subst h1; exact .inr (.inl ⟨rfl, sf.siblings_unique (siblings_symm sac) sib⟩)
    by_cases h2 : a = y
    · subst h2; exact .inl ⟨rfl, sf.siblings_unique (siblings_symm sac) (siblings_symm sib)⟩
    by_cases h3 : c = l
    · subst h3; exact absurd (sf.siblings_unique sac sib) h2
    by_cases h4 : c = y
    · subst h4; exact absurd (sf.siblings_unique sac (siblings_symm sib)) h1
    obtain ⟨hne, p, pa, pc⟩ := sac
    rw [pold a h1 h2] at pa
    rw [pold c h3 h4] at pc
    exact .inr (.inr ⟨⟨hne, p, pa, pc⟩, h1, h2, h3, h4⟩)
  refine ⟨?_, ?_, ?_, by rw [nl]⟩
  · by_contra hne
    obtain ⟨x, hx⟩ := Option.ne_none_iff_exists'.1 hne
    obtain ⟨h1, h2, h3, -, h5, h6⟩ := (eligible_iff f l x).1 (candidate_some hx).1
    rw [nl] at h2
    rcases cases4 x h1 with rfl | rfl | rfl | ⟨-, -, -, -, h, hp, -⟩
    · exact h3 rfl
    · exact h5 (sf.sibling_iff.2 sib).symm
    · exact h6 ((sf.mem_ancestors lin).2 (.parent (by rw [nl])))
    · rw [h] at h2; simp only at h2; omega
  · refine {
      shape := sf.sameLinks s
      cur := (s.inTree i).2 ((fin i).2 (.inl iin))
      notNyt := by rw [hnyth]; exact iy
      nytZero := by rw [hnyth]; exact wy
      positive := ?_, sums := ?_, order := ?_, adjacent := ?_, lowest := ?_, next := ?_, parentKey := ?_, settled := ?_ }
    · intro h hh hn hpi
      rw [hnyth] at hn hpi
      rcases cases4 h ((s.inTree h).1 hh) with rfl | rfl | rfl | ⟨ih, h1, h2, h3, h4, hp, -⟩
      · omega
      · exact absurd rfl hn
      · exact absurd (by rw [s.parent, ny]) (hpi rfl)
      · rw [wold h h1 h2 h3]; exact hp
    · intro p c d hp
      rw [s.kind] at hp
      by_cases h1 : p = l
      · subst h1; rw [nl] at hp; simp at hp
      by_cases h2 : p = y
      · subst h2; rw [ny] at hp; simp at hp
      by_cases h3 : p = i
      · subst h3
        rw [ni] at hp
        obtain ⟨rfl, rfl⟩ := Kind.internal.inj hp
        rw [wy, wl, wi']; simp
      · rw [no p h1 h2 h3] at hp
        obtain ⟨-, -, -, a4, a5⟩ := sh.children p c d hp
        obtain ⟨-, -, -, c1, c2⟩ := old c p a4
        obtain ⟨-, -, -, d1, d2⟩ := old d p a5
        rw [wold' c c1 c2, wold' d d1 d2, wold' p h1 h2, if_neg h3]
        exact (wo.sums p c d hp).symm
    · intro a c ha hc hac hkey
      rw [s.siblings] at hac
      rcases cases4 c ((s.inTree c).1 hc) with rfl | rfl | rfl | ⟨ic, c1, c2, c3, -, hcp, ck⟩
      · rcases cases4 a ((s.inTree a).1 ha) with rfl | rfl | rfl | ⟨ia, a1, a2, a3, -, hap, ak⟩
        · omega
        · exact absurd sib hac
        · exact .inr ⟨rfl, by rw [s.siblings, hnyth]; exact siblings_symm sib, by rw [s.parent, nl]⟩
        · left; rw [wl, wold a a1 a2 a3]; omega
      · left; omega
      · left; omega
      · rcases cases4 a ((s.inTree a).1 ha) with rfl | rfl | rfl | ⟨ia, a1, a2, a3, -, hap, ak⟩
        · rw [kl, kold c c1 c2 c3] at hkey; omega
        · rw [ky, kold c c1 c2 c3] at hkey; omega
        · rw [ki, kold c c1 c2 c3] at hkey; omega
        · left
          rw [kold c c1 c2 c3, kold a a1 a2 a3] at hkey
          rw [wold c c1 c2 c3, wold a a1 a2 a3]
          exact wo.order a c ia ic (fun h => hac (sold a c h)) hkey
    · intro a c x hac hx
      rw [s.siblings] at hac
      rintro ⟨hax, hxc⟩
      rcases snew a c hac with ⟨rfl, rfl⟩ | ⟨rfl, rfl⟩ | ⟨hs, a1, a2, c1, c2⟩
      · omega
      · omega
      · rcases cases4 x ((s.inTree x).1 hx) with rfl | rfl | rfl | ⟨ix, x1, x2, x3, -, -, xk⟩
        · rcases cases4 a ((s.inTree a).1 ((s.inTree a).2 (sf.linkIn (Exists.choose_spec hac.2).1).2)) with
            rfl | rfl | rfl | ⟨-, -, -, a3, -, -, ak⟩
          · exact a1 rfl
          · exact a2 rfl
          · omega
          · rw [kold a a1 a2 a3] at hax; omega
        · rcases cases4 a (sf.linkIn (Exists.choose_spec hac.2).1).2 with rfl | rfl | rfl | ⟨-, -, -, a3, -, -, ak⟩
          · exact a1 rfl
          · exact a2 rfl
          · omega
          · rw [kold a a1 a2 a3] at hax; omega
        · rcases cases4 a (sf.linkIn (Exists.choose_spec hac.2).1).2 with rfl | rfl | rfl | ⟨-, -, -, a3, -, -, ak⟩
          · exact a1 rfl
          · exact a2 rfl
          · omega
          · rw [kold a a1 a2 a3] at hax; omega
        · rw [kold x x1 x2 x3] at hax hxc
          by_cases c3 : c = i
          · rw [c3, ki] at hxc; omega
          rw [kold c c1 c2 c3] at hxc
          by_cases a3 : a = i
          · subst a3
            have := wo.nytPairLowest c x (.inr (hi ▸ siblings_symm hs)) ix (hi ▸ x3) (fun h => by
              have := sh.siblings_unique h (hi ▸ siblings_symm hs)
              rw [this] at hxc; omega)
            omega
          · rw [kold a a1 a2 a3] at hax
            exact wo.adjacent a c x hs ix ⟨hax, hxc⟩
    · intro a x ha hx hxn hxs
      rw [hnyth] at ha hxn hxs
      rw [s.siblings] at ha hxs
      have hxk : e.keylast - 1 ≤ ((f.increment l).node x).key := by
        rcases cases4 x ((s.inTree x).1 hx) with rfl | rfl | rfl | ⟨ix, x1, x2, x3, -, -, xk⟩
        · exact absurd (siblings_symm sib) hxs
        · exact absurd rfl hxn
        · omega
        · rw [kold x x1 x2 x3]; omega
      rcases ha with rfl | ha
      · omega
      · obtain rfl := sf.siblings_unique ha (siblings_symm sib)
        omega
    · intro p x hp hx hxn hxs hxp
      rw [hnyth] at hp hxn hxs
      rw [s.siblings] at hxs
      rw [s.parent, ny] at hp
      obtain rfl := Option.some.inj hp
      rcases cases4 x ((s.inTree x).1 hx) with rfl | rfl | rfl | ⟨ix, x1, x2, x3, -, -, xk⟩
      · exact absurd (siblings_symm sib) hxs
      · exact absurd rfl hxn
      · exact absurd rfl hxp
      · rw [kold x x1 x2 x3]; omega
    · intro h p hp
      rw [s.parent] at hp
      by_cases h1 : h = l
      · subst h1; rw [nl] at hp; obtain rfl := Option.some.inj hp; omega
      by_cases h2 : h = y
      · subst h2; rw [ny] at hp; obtain rfl := Option.some.inj hp; omega
      rw [pold h h1 h2] at hp
      obtain ⟨p1, p2, p3, -, -⟩ := old h p hp
      have ip := (sh.linkIn hp).1
      have := (sh.keyRange p ip).1
      rw [kold p p1 p2 p3]
      by_cases h3 : h = i
      · rw [h3, ki]; omega
      · rw [kold h h1 h2 h3]; exact wo.parentKey sh hp
    · intro _
      by_contra hne
      obtain ⟨x, hx⟩ := Option.ne_none_iff_exists'.1 hne
      obtain ⟨he, hkx, -⟩ := candidate_some hx
      obtain ⟨h1, h2, h3, -, -, -⟩ := (eligible_iff _ i x).1 he
      rw [wi'] at h2
      rcases cases4 x ((s.inTree x).1 h1) with rfl | rfl | rfl | ⟨-, x1, x2, x3, -, hp, -⟩
      · omega
      · omega
      · exact h3 rfl
      · rw [wold x x1 x2 x3] at h2; omega
  · intro h
    rw [h] at lv
    simp [ROOT] at lv

theorem SameTree.links {e f : Engine} (s : SameTree e f) : SameLinks e f :=
  ⟨s.nyth, s.nsym, s.keylast, s.lookup, fun h => by rw [node_congr s.nodes], fun h => by rw [node_congr s.nodes],
    fun h => by rw [node_congr s.nodes], fun h _ => node_congr s.nodes h⟩

/-- The shape and the weights are the tree's, whatever the other registers. -/
theorem SameTree.shape {e f : Engine} (s : SameTree e f) (sh : TreeShape e) : TreeShape f := sh.sameLinks s.links

theorem SameTree.weights {e f : Engine} (s : SameTree e f) (wo : WeightOrder e) : WeightOrder f := by
  have nd := node_congr s.nodes
  constructor <;> simp only [nd, s.links.inTree, s.links.siblings, s.nyth]
  · exact wo.sums
  · exact wo.nytZero
  · exact wo.leafPositive
  · exact wo.order
  · exact wo.adjacent
  · exact wo.nytPairLowest
  · exact wo.nytParentNext

end Sys2Proof.Machine
end

