-- ==== Sys2Proof/Laws/Words.lean ====
section
/-! SUPPORT. The fields of words put together with `++` (30_encoding R90 to R97): each field read back. -/

namespace Sys2Proof

@[simp] theorem extract_append_low {a b : Nat} (x : BitVec a) (y : BitVec b) : (x ++ y).extractLsb' 0 b = y := by
  rw [BitVec.extractLsb'_append_eq_of_add_le (by omega)]
  exact BitVec.extractLsb'_eq_self

@[simp] theorem extract_append_high {a b : Nat} (x : BitVec a) (y : BitVec b) : (x ++ y).extractLsb' b a = x := by
  rw [BitVec.extractLsb'_append_eq_of_le (by omega), Nat.sub_self]
  exact BitVec.extractLsb'_eq_self

/-- A command word is its three fields (30_encoding R90). -/
theorem word_fields (w : Word) : w = (rsvField w ++ symField w ++ opcField w : Word) := by
  apply BitVec.eq_of_getLsbD_eq
  intro i hi
  simp only [rsvField, symField, opcField, BitVec.getLsbD_append, BitVec.getLsbD_extractLsb']
  by_cases h4 : i < 4
  · simp [h4]
  · by_cases h12 : i < 12
    · simp [h4, show i - 4 < 8 by omega, show 4 + (i - 4) = i by omega]
    · simp [h4, show ¬ i - 4 < 8 by omega, show i - 4 - 8 < 20 by omega, show 12 + (i - 4 - 8) = i by omega]

/-- The fields of a word written with its three fields (30_encoding R90). -/
theorem fields_of_word (r : BitVec 20) (s : Byte) (o : BitVec 4) :
    rsvField (r ++ s ++ o) = r ∧ symField (r ++ s ++ o) = s ∧ opcField (r ++ s ++ o) = o := by
  refine ⟨?_, ?_, extract_append_low _ _⟩
  · rw [rsvField, BitVec.extractLsb'_append_eq_of_le (by omega)]; exact extract_append_high _ _
  · rw [symField, BitVec.extractLsb'_append_eq_of_le (by omega)]; exact extract_append_low _ _

/-- Every opcode number is one of sixteen. -/
theorem opc_cases (o : BitVec 4) :
    o = 0#4 ∨ o = 1#4 ∨ o = 2#4 ∨ o = 3#4 ∨ o = 4#4 ∨ o = 5#4 ∨ o = 6#4 ∨ o = 7#4 ∨ o = 8#4 ∨ 9 ≤ o.toNat := by
  revert o; decide

end Sys2Proof

namespace Sys2Proof.Machine

/-- The fields of a response word (30_encoding R97). -/
theorem responseWord_fields (code : Code) (data : Byte) (len : Nat) (lit : Bool) :
    (responseWord code data len lit).extractLsb' 0 4 = code.bits ∧
    (responseWord code data len lit).extractLsb' 4 8 = data ∧
    (responseWord code data len lit).extractLsb' 12 9 = BitVec.ofNat 9 len ∧
    (responseWord code data len lit).getLsbD 21 = lit ∧
    (responseWord code data len lit).extractLsb' 22 10 = 0#10 := by
  unfold responseWord
  refine ⟨extract_append_low _ _, ?_, ?_, ?_, ?_⟩
  · rw [BitVec.extractLsb'_append_eq_of_le (by omega)]; exact extract_append_low _ _
  · rw [BitVec.extractLsb'_append_eq_of_le (by omega), BitVec.extractLsb'_append_eq_of_le (by omega)]
    exact extract_append_low _ _
  · simp only [BitVec.getLsbD_append]; cases lit <;> simp
  · rw [BitVec.extractLsb'_append_eq_of_le (by omega), BitVec.extractLsb'_append_eq_of_le (by omega),
      BitVec.extractLsb'_append_eq_of_le (by omega), BitVec.extractLsb'_append_eq_of_le (by omega)]
    exact BitVec.extractLsb'_eq_self

/-- The response word of an error or a fault is its code (60_exceptions R243, R244). -/
theorem responseWord_bare (code : Code) : responseWord code 0#8 0 false = BitVec.setWidth 32 code.bits := by
  cases code with
  | fault c => cases c <;> decide
  | _ => decide

end Sys2Proof.Machine
end

