-- ==== Sys2Proof/Laws/Commands.lean ====
section
/-! SUPPORT. How each command can end (42_encoder R180, 43_decoder R190, 40_tree R143, 41_bitstream R164, 44_query R210 to R212):
one inversion lemma per command, which later proofs cite instead of unfolding it. -/

namespace Sys2Proof.Machine

open Sys2Proof.Config

/-! The stream procedures keep their buffers in range -/

theorem shiftIn_toNat (v : Byte) (x : Bool) : (shiftIn v x).toNat = 2 * (v.toNat % 128) + x.toNat := by
  unfold shiftIn
  rw [BitVec.toNat_append, ← Nat.shiftLeft_add_eq_or_of_lt (BitVec.isLt _)]
  cases x <;> simp [Nat.shiftLeft_eq, Nat.mul_comm]

/-- The writer's registers are in range (10_state R33). -/
def WriterInRange (e : Engine) : Prop := e.wcnt ≤ 7 ∧ e.wbuf.toNat < 2 ^ e.wcnt

/-- One bit keeps the writer in range, however it ends. -/
theorem writeBit_range {x : Bool} {s : State} (h : WriterInRange s.eng) :
    (∃ t, writeBit x s = .ok () t ∧ WriterInRange t.eng) ∨ (∃ c t, writeBit x s = .raised c t ∧ WriterInRange t.eng) ∨
    (∃ t, writeBit x s = .blocked t ∧ WriterInRange t.eng) := by
  obtain ⟨h1, h2⟩ := h
  unfold writeBit
  split
  · rcases sinkOffer_cases (.byte (shiftIn s.eng.wbuf x)) (s.withEng s.eng.clearWriter) with
      ⟨_, h, -⟩ | ⟨_, h, -⟩ | ⟨_, _, h, -⟩ <;> rw [h]
    · exact .inl ⟨_, rfl, by simp [WriterInRange]⟩
    · exact .inr (.inl ⟨_, _, rfl, by simp [WriterInRange]⟩)
    · exact .inr (.inr ⟨_, rfl, by simp [WriterInRange]⟩)
  · rename_i hc
    refine .inl ⟨_, rfl, ?_⟩
    have h3 : 2 ^ s.eng.wcnt ≤ 2 ^ 7 := Nat.pow_le_pow_right (by omega) h1
    have h4 : 2 ^ s.eng.wcnt ≤ 2 ^ 6 := Nat.pow_le_pow_right (by omega) (by omega)
    refine ⟨by show s.eng.wcnt + 1 ≤ 7; omega, ?_⟩
    show (shiftIn s.eng.wbuf x).toNat < 2 ^ (s.eng.wcnt + 1)
    rw [shiftIn_toNat, Nat.pow_succ]
    have := Bool.toNat_le x
    have : s.eng.wbuf.toNat % 128 ≤ s.eng.wbuf.toNat := Nat.mod_le _ _
    omega

/-- How a procedure can end, in one property of the state it leaves. -/
def Res.Leaves {α : Type} (P : State → Prop) : Res α → Prop
  | .ok _ s => P s
  | .raised _ s => P s
  | .blocked s => P s

theorem writeBits_range {xs : List Bool} {s : State} (h : WriterInRange s.eng) :
    (writeBits xs s).Leaves fun t => WriterInRange t.eng := by
  induction xs generalizing s with
  | nil => exact h
  | cons x xs ih =>
    unfold writeBits
    rcases writeBit_range (x := x) h with ⟨t, ht, hr⟩ | ⟨c, t, ht, hr⟩ | ⟨t, ht, hr⟩ <;> rw [ht]
    · exact ih hr
    · exact hr
    · exact hr

/-- The descent ends at a node or at the end of input, with the bits it read, or it fails, or it waits; it reads at most one bit
per level. -/
theorem descend_cases (k : Nat) (n : Handle) (q : List Bool) (s : State) :
    (∃ m q' t, descend k n q s = .ok (.reached m q') t ∧ ReaderMoved s.ports.status s t ∧ q'.length ≤ q.length + k ∧
      t.eng.rcnt ≤ max 7 s.eng.rcnt) ∨
    (∃ q' t, descend k n q s = .ok (.ended q') t ∧ ReaderMoved s.ports.status s t ∧ q'.length ≤ q.length + k ∧
      t.eng.rcnt = 0 ∧ t.eng.srcEof = true) ∨
    (∃ t, descend k n q s = .raised .srcIo t ∧ ReaderMoved s.ports.status s t ∧ t.eng.rcnt = 0) ∨
    (∃ t, descend k n q s = .blocked t ∧ ReaderMoved .waitingSource s t ∧ t.eng.rcnt = 0) := by
  induction k generalizing n q s with
  | zero => exact .inl ⟨n, q, s, by rw [descend], .refl s, by omega, by omega⟩
  | succ k ih =>
    unfold descend
    split
    · rename_i l r _
      rcases readBit_cases s with ⟨x, t, h, hm, hc⟩ | ⟨t, h, hm, -, hz, he⟩ | ⟨t, h, hm, -, hz⟩ | ⟨t, h, hm, hz⟩ <;>
        simp only [h, andThen_ok, andThen_raised, andThen_blocked]
      · have hst := hm.status
        rcases ih (if x then r else l) (q ++ [x]) t with ⟨m, q', u, h', hm', hl, hz⟩ | ⟨q', u, h', hm', hl, hz, he⟩ |
          ⟨u, h', hm', hz⟩ | ⟨u, h', hm', hz⟩ <;> rw [h']
        · exact .inl ⟨m, q', u, rfl, by rw [← hst]; exact hm.trans hm', by simp at hl; omega, by omega⟩
        · exact .inr (.inl ⟨q', u, rfl, by rw [← hst]; exact hm.trans hm', by simp at hl; omega, hz, he⟩)
        · exact .inr (.inr (.inl ⟨u, rfl, by rw [← hst]; exact hm.trans hm', hz⟩))
        · exact .inr (.inr (.inr ⟨u, rfl, hm.trans hm', hz⟩))
      · exact .inr (.inl ⟨q, t, rfl, hm, by omega, hz, he⟩)
      · exact .inr (.inr (.inl ⟨t, rfl, hm, hz⟩))
      · exact .inr (.inr (.inr ⟨t, rfl, hm, hz⟩))
    all_goals exact .inl ⟨n, q, s, rfl, .refl s, by omega, by omega⟩

/-- Reading a literal: all its bits, or the bits before the end of input, or a failure, or a wait. -/
theorem readLiteral_cases (k : Nat) (v : List Bool) (s : State) :
    (∃ v' t, readLiteral k v s = .ok { bits := v', complete := true } t ∧ ReaderMoved s.ports.status s t ∧
      v'.length = v.length + k ∧ t.eng.rcnt ≤ max 7 s.eng.rcnt) ∨
    (∃ v' t, readLiteral k v s = .ok { bits := v', complete := false } t ∧ ReaderMoved s.ports.status s t ∧
      v'.length < v.length + k ∧ t.eng.rcnt = 0 ∧ t.eng.srcEof = true) ∨
    (∃ t, readLiteral k v s = .raised .srcIo t ∧ ReaderMoved s.ports.status s t ∧ t.eng.rcnt = 0) ∨
    (∃ t, readLiteral k v s = .blocked t ∧ ReaderMoved .waitingSource s t ∧ t.eng.rcnt = 0) := by
  induction k generalizing v s with
  | zero => exact .inl ⟨v, s, by rw [readLiteral], .refl s, by omega, by omega⟩
  | succ k ih =>
    unfold readLiteral
    rcases readBit_cases s with ⟨x, t, h, hm, hc⟩ | ⟨t, h, hm, -, hz, he⟩ | ⟨t, h, hm, -, hz⟩ | ⟨t, h, hm, hz⟩ <;>
      simp only [h, andThen_ok, andThen_raised, andThen_blocked]
    · have hst := hm.status
      rcases ih (v ++ [x]) t with ⟨v', u, h', hm', hl, hz⟩ | ⟨v', u, h', hm', hl, hz, he⟩ | ⟨u, h', hm', hz⟩ |
        ⟨u, h', hm', hz⟩ <;> rw [h']
      · exact .inl ⟨v', u, rfl, by rw [← hst]; exact hm.trans hm', by simp at hl; omega, by omega⟩
      · exact .inr (.inl ⟨v', u, rfl, by rw [← hst]; exact hm.trans hm', by simp at hl; omega, hz, he⟩)
      · exact .inr (.inr (.inl ⟨u, rfl, by rw [← hst]; exact hm.trans hm', hz⟩))
      · exact .inr (.inr (.inr ⟨u, rfl, hm.trans hm', hz⟩))
    · exact .inr (.inl ⟨v, t, rfl, hm, by omega, hz, he⟩)
    · exact .inr (.inr (.inl ⟨t, rfl, hm, hz⟩))
    · exact .inr (.inr (.inr ⟨t, rfl, hm, hz⟩))

theorem pathUp_length (e : Engine) (k : Nat) (h : Handle) (acc : List Bool) :
    (e.pathUp k h acc).length = (e.climb k h).length + acc.length := by
  induction k generalizing h acc with
  | zero => simp [Engine.pathUp, Engine.climb]
  | succ k ih =>
    unfold Engine.pathUp Engine.climb
    split
    · simp
    · rw [ih]; simp; omega

theorem climb_length_le (e : Engine) (k : Nat) (h : Handle) : (e.climb k h).length ≤ k := by
  induction k generalizing h with
  | zero => simp [Engine.climb]
  | succ k ih =>
    unfold Engine.climb
    split
    · simp
    · simp [ih]

/-- No path is longer than the path buffer (40_tree R128). -/
theorem pathTo_length_le (e : Engine) (h : Handle) : (e.pathTo h).length ≤ pathMax := by
  unfold Engine.pathTo
  rw [pathUp_length]
  simpa using climb_length_le e pathMax h

/-! How each command can end -/

/-- `CONTAINS` (44_query R210). -/
theorem execContains_cases (b : Byte) (s : State) :
    execContains b s = .next (reject .errFaulted s) ∨
    ∃ d, execContains b s = .next (respond .ok d 0 false s) := by
  unfold execContains prologue
  split
  · exact .inl rfl
  · exact .inr ⟨_, rfl⟩

/-- `PATHSYM` (44_query R211). -/
theorem execPathsym_cases (b : Byte) (s : State) :
    execPathsym b s = .next (reject .errFaulted s) ∨
    execPathsym b s = .next (reject .errNosym s) ∨
    ∃ h, execPathsym b s = .next (answerPath (s.eng.pathTo h) s) := by
  unfold execPathsym prologue
  split
  · exact .inl rfl
  · split
    · exact .inr (.inl rfl)
    · exact .inr (.inr ⟨_, rfl⟩)

/-- `PATHNYT` (44_query R212). -/
theorem execPathnyt_cases (s : State) :
    execPathnyt s = .next (reject .errFaulted s) ∨
    execPathnyt s = .next (answerPath (s.eng.pathTo s.eng.nyth) s) := by
  unfold execPathnyt prologue
  split
  · exact .inl rfl
  · exact .inr rfl

/-- `UPD` (40_tree R143). -/
theorem execUpd_cases (b : Byte) (s : State) :
    execUpd b s = .next (reject .errFaulted s) ∨
    execUpd b s = .next (raise .wovf s) ∨
    (∃ e, execUpd b s = .next (respond .ok b 0 (!s.eng.contains b) (s.withEng e)) ∧ s.eng.updateTree b = .done e ∧
      s.eng.fault = none ∧ (s.eng.node ROOT).weight ≠ wmax s.width) ∨
    (∃ e, execUpd b s = .next (raise .internal (s.withEng e)) ∧ s.eng.updateTree b = .internal e ∧ s.eng.fault = none ∧
      (s.eng.node ROOT).weight ≠ wmax s.width) := by
  unfold execUpd prologue
  split
  · exact .inl rfl
  · rename_i hf
    unfold checkRoom
    split
    · exact .inr (.inl rfl)
    · rename_i hw
      rcases updateTree_cases b s with ⟨e, h, h', -⟩ | ⟨e, h, h', -⟩ <;> rw [h']
      · exact .inr (.inr (.inl ⟨e, rfl, h, by simpa using hf, hw⟩))
      · exact .inr (.inr (.inr ⟨e, rfl, h, by simpa using hf, hw⟩))

/-- `CLOSE` (41_bitstream R164). -/
theorem execClose_cases (s : State) :
    execClose s = .next (reject .errFaulted s) ∨
    execClose s = .next (reject .errClosed s) ∨
    (∃ d len t, execClose s = .next (respond .ok d len false (t.withEng { t.eng with closed := true })) ∧
      WriterMoved s.ports.status s t ∧ t.eng.wcnt = 0) ∨
    (∃ t, execClose s = .next (raise .snkIo t) ∧ WriterMoved s.ports.status s t) ∨
    (∃ t, execClose s = .next t ∧ WriterMoved .waitingSink s t) := by
  unfold execClose prologue
  split
  · exact .inl rfl
  · split
    · exact .inr (.inl rfl)
    · rcases closeWriter_cases s with ⟨r, t, h, hm, hz⟩ | ⟨t, h, hm⟩ | ⟨t, h, hm⟩ <;>
        simp only [h, settle_ok, settle_raised, settle_blocked]
      · exact .inr (.inr (.inl ⟨_, _, t, rfl, hm, hz⟩))
      · exact .inr (.inr (.inr (.inl ⟨t, rfl, hm⟩)))
      · exact .inr (.inr (.inr (.inr ⟨t, rfl, hm⟩)))

/-- The state `ENC b` writes its bits from: the path part of the codeword is recorded (42_encoder R180). -/
def encStart (b : Byte) (s : State) : State := s.withEng (s.eng.recordPath (s.eng.pathTo (s.eng.codeNode b)))

/-- `ENC` (42_encoder R180). -/
theorem execEnc_cases (b : Byte) (s : State) :
    execEnc b s = .next (reject .errFaulted s) ∨
    execEnc b s = .next (reject .errClosed s) ∨
    execEnc b s = .next (raise .wovf s) ∨
    (∃ t, execEnc b s = .next (raise .snkIo t) ∧ writeBits (s.eng.codeword b) (encStart b s) = .raised .snkIo t ∧
      WriterMoved s.ports.status (encStart b s) t) ∨
    (∃ t, execEnc b s = .next t ∧ writeBits (s.eng.codeword b) (encStart b s) = .blocked t ∧
      WriterMoved .waitingSink (encStart b s) t) ∨
    (∃ t e, writeBits (s.eng.codeword b) (encStart b s) = .ok () t ∧ WriterMoved s.ports.status (encStart b s) t ∧
      s.eng.fault = none ∧ (s.eng.node ROOT).weight ≠ wmax s.width ∧
      ((t.eng.updateTree b = .done e ∧ execEnc b s =
          .next (respond .ok b (s.eng.codeword b).length (!s.eng.contains b) (t.withEng e))) ∨
       (t.eng.updateTree b = .internal e ∧ execEnc b s = .next (raise .internal (t.withEng e))))) := by
  unfold execEnc prologue
  split
  · exact .inl rfl
  · rename_i hf
    split
    · exact .inr (.inl rfl)
    · unfold checkRoom
      split
      · exact .inr (.inr (.inl rfl))
      · rename_i hw
        right; right; right
        have hcw : (s.eng.codeword b).length = (s.eng.pathTo (s.eng.codeNode b)).length + (s.eng.escape b).length := by
          simp [Engine.codeword]
        rcases writeBits_cases (s.eng.codeword b) (encStart b s) with ⟨t, h, hm⟩ | ⟨t, h, hm, -⟩ | ⟨t, h, hm⟩ <;>
          (have h' := h; unfold Engine.codeword encStart at h'; simp only [h', settle_ok, settle_raised, settle_blocked])
        · refine .inr (.inr ?_)
          rcases updateTree_cases b t with ⟨e, hu, hu', -⟩ | ⟨e, hu, hu', -⟩ <;> rw [hu']
          · exact ⟨t, e, h, hm, by simpa using hf, hw, .inl ⟨hu, by rw [hcw]; rfl⟩⟩
          · exact ⟨t, e, h, hm, by simpa using hf, hw, .inr ⟨hu, rfl⟩⟩
        · exact .inl ⟨t, rfl, h, hm⟩
        · exact .inr (.inl ⟨t, rfl, h, hm⟩)

/-- `ENC` on an engine that is not faulted nor closed and has room (42_encoder R180). -/
theorem execEnc_clear {b : Byte} {s : State} (hf : s.eng.fault = none) (hc : s.eng.closed = false)
    (hw : (s.eng.node ROOT).weight ≠ wmax s.width) :
    execEnc b s = (writeBits (s.eng.codeword b) (encStart b s)).settle fun _ t =>
      (updateTree b t).settle fun _ u =>
        .next (respond .ok b (s.eng.codeword b).length (!s.eng.contains b) u) := by
  unfold execEnc
  rw [prologue_clear hf, if_neg (by simp [hc]), checkRoom_room hw, Engine.codeword, List.length_append]
  exact congrArg _ rfl

/-- `CLOSE` on an engine that is not faulted nor closed (41_bitstream R164). -/
theorem execClose_clear {s : State} (hf : s.eng.fault = none) (hc : s.eng.closed = false) :
    execClose s = (closeWriter s).settle fun r t => .next (respond .ok (BitVec.ofNat 8 r.1) r.2 false t) := by
  unfold execClose
  rw [prologue_clear hf, if_neg (by simp [hc])]

/-- The last lines of `DEC` (43_decoder R190). -/
theorem finishDecode_cases (sym : Byte) (q : List Bool) (len : Nat) (lit : Bool) (s : State) :
    (∃ e, finishDecode sym q len lit s = .next (respond .ok sym len lit (s.withEng e)) ∧
      (s.eng.recordPath q).updateTree sym = .done e) ∨
    (∃ e, finishDecode sym q len lit s = .next (raise .internal (s.withEng e)) ∧
      (s.eng.recordPath q).updateTree sym = .internal e) := by
  unfold finishDecode
  rcases updateTree_cases sym (s.withEng (s.eng.recordPath q)) with ⟨e, h, h', -⟩ | ⟨e, h, h', -⟩ <;> rw [h']
  · exact .inl ⟨e, rfl, h⟩
  · exact .inr ⟨e, rfl, h⟩

/-- `DEC` on an engine that is not faulted and has room (43_decoder R190). -/
theorem execDec_clear {s : State} (hf : s.eng.fault = none) (hw : (s.eng.node ROOT).weight ≠ wmax s.width) :
    execDec s = (descend pathMax ROOT [] s).settle fun d t =>
      match d with
      | .ended q => endOfInput s.eng.rcnt q t
      | .reached n q => decodeAt s.eng.rcnt n q t := by
  exact (prologue_clear hf _).trans (checkRoom_room hw _)

/-- `DEC` (43_decoder R190): refused, no room, waiting, a source failure, the end of the stream, a truncation, a duplicate
literal, or a byte decoded, whose update ends in one of two ways. -/
theorem execDec_cases (s : State) :
    execDec s = .next (reject .errFaulted s) ∨
    execDec s = .next (raise .wovf s) ∨
    (∃ t, execDec s = .next t ∧ ReaderMoved .waitingSource s t ∧ t.eng.rcnt = 0) ∨
    (∃ c t, execDec s = .next (raise c t) ∧ ReaderMoved s.ports.status s t ∧ t.eng.rcnt ≤ max 7 s.eng.rcnt ∧
      (c = .srcIo ∨ c = .trunc ∨ c = .duplit)) ∨
    (∃ len t, execDec s = .next (respond .eos 0#8 len false t) ∧ ReaderMoved s.ports.status s t ∧ t.eng.rcnt = 0 ∧
      t.eng.srcEof = true) ∨
    (∃ t sym q len lit e, ReaderMoved s.ports.status s t ∧ t.eng.rcnt ≤ max 7 s.eng.rcnt ∧ q.length ≤ pathMax ∧ s.eng.fault = none ∧
      (s.eng.node ROOT).weight ≠ wmax s.width ∧
      (((t.eng.recordPath q).updateTree sym = .done e ∧ execDec s = .next (respond .ok sym len lit (t.withEng e))) ∨
       ((t.eng.recordPath q).updateTree sym = .internal e ∧ execDec s = .next (raise .internal (t.withEng e))))) := by
  unfold execDec prologue
  split
  · exact .inl rfl
  rename_i hf
  unfold checkRoom
  split
  · exact .inr (.inl rfl)
  rename_i hw
  have fin : ∀ t sym q len lit, ReaderMoved s.ports.status s t → t.eng.rcnt ≤ max 7 s.eng.rcnt → q.length ≤ pathMax →
      ∃ e, (((t.eng.recordPath q).updateTree sym = .done e ∧
        finishDecode sym q len lit t = .next (respond .ok sym len lit (t.withEng e))) ∨
       ((t.eng.recordPath q).updateTree sym = .internal e ∧
        finishDecode sym q len lit t = .next (raise .internal (t.withEng e)))) := by
    intro t sym q len lit _ _ _
    rcases finishDecode_cases sym q len lit t with ⟨e, h, hu⟩ | ⟨e, h, hu⟩
    · exact ⟨e, .inl ⟨hu, h⟩⟩
    · exact ⟨e, .inr ⟨hu, h⟩⟩
  have ended : ∀ q t, ReaderMoved s.ports.status s t → t.eng.rcnt = 0 → t.eng.srcEof = true →
      (∃ len, endOfInput s.eng.rcnt q t = .next (respond .eos 0#8 len false t)) ∨
      endOfInput s.eng.rcnt q t = .next (raise .trunc t) := by
    intro q t _ _ _
    unfold endOfInput
    split
    · exact .inl ⟨_, rfl⟩
    · exact .inr rfl
  right; right
  rcases descend_cases pathMax ROOT [] s with ⟨m, q, t, h, hm, hl, hz⟩ | ⟨q, t, h, hm, hl, hz, he⟩ | ⟨t, h, hm, hz⟩ |
    ⟨t, h, hm, hz⟩ <;> simp only [h, settle_ok, settle_raised, settle_blocked]
  · have hq : q.length ≤ pathMax := by simpa using hl
    unfold decodeAt
    split
    · rcases readLiteral_cases 8 [] t with ⟨v, u, h', hm', hl', hz'⟩ | ⟨v, u, h', hm', hl', hz', he'⟩ | ⟨u, h', hm', hz'⟩ |
        ⟨u, h', hm', hz'⟩ <;> simp only [h', settle_ok, settle_raised, settle_blocked]
      all_goals have hmm := hm.trans hm'
      all_goals try rw [hm.status] at hmm
      · simp only [if_true]
        split
        · exact .inr (.inl ⟨_, u, rfl, hmm, by omega, .inr (.inr rfl)⟩)
        · obtain ⟨e, he⟩ := fin u (byteOfBits v) q (q.length + v.length) true hmm (by omega) hq
          exact .inr (.inr (.inr ⟨u, _, q, _, _, e, hmm, by omega, hq, by simpa using hf, hw, he⟩))
      · simp only [Bool.false_eq_true, if_false]
        rcases ended (q ++ v) u hmm hz' he' with ⟨len, h''⟩ | h''
        · exact .inr (.inr (.inl ⟨len, u, h'', hmm, hz', he'⟩))
        · exact .inr (.inl ⟨_, u, h'', hmm, by omega, .inr (.inl rfl)⟩)
      · exact .inr (.inl ⟨_, u, rfl, hmm, by omega, .inl rfl⟩)
      · exact .inl ⟨u, rfl, hmm, hz'⟩
    · obtain ⟨e, he⟩ := fin t (t.eng.node m).sym q q.length false hm hz hq
      exact .inr (.inr (.inr ⟨t, _, q, _, _, e, hm, hz, hq, by simpa using hf, hw, he⟩))
  · rcases ended q t hm hz he with ⟨len, h''⟩ | h''
    · exact .inr (.inr (.inl ⟨len, t, h'', hm, hz, he⟩))
    · exact .inr (.inl ⟨_, t, h'', hm, by omega, .inr (.inl rfl)⟩)
  · exact .inr (.inl ⟨_, t, rfl, hm, by omega, .inl rfl⟩)
  · exact .inl ⟨t, rfl, hm, hz⟩

/-! What a command can do to the tree -/

theorem SameTree.refl (e : Engine) : SameTree e e := ⟨rfl, rfl, rfl, rfl, rfl⟩

theorem SameTree.trans {e f g : Engine} (h : SameTree e f) (h' : SameTree f g) : SameTree e g :=
  ⟨h'.nodes.trans h.nodes, h'.nyth.trans h.nyth, h'.nsym.trans h.nsym, h'.keylast.trans h.keylast, h'.lookup.trans h.lookup⟩

theorem WriterMoved.sameTree {st : PortStatus} {s t : State} (h : WriterMoved st s t) : SameTree s.eng t.eng := by
  obtain ⟨_, _, _, _, rfl⟩ := h; exact ⟨rfl, rfl, rfl, rfl, rfl⟩

theorem ReaderMoved.sameTree {st : PortStatus} {s t : State} (h : ReaderMoved st s t) : SameTree s.eng t.eng := by
  obtain ⟨_, _, _, _, rfl⟩ := h; exact ⟨rfl, rfl, rfl, rfl, rfl⟩

theorem WriterMoved.width {st : PortStatus} {s t : State} (h : WriterMoved st s t) : t.width = s.width := by
  obtain ⟨_, _, _, _, rfl⟩ := h; rfl

theorem ReaderMoved.width {st : PortStatus} {s t : State} (h : ReaderMoved st s t) : t.width = s.width := by
  obtain ⟨_, _, _, _, rfl⟩ := h; rfl

/-- A command ends in a next state. It leaves the tree alone; or it is `INIT`; or it runs `UpdateTree` on the tree as it was,
with room in the root's weight. -/
theorem exec_tree (i : Instr) (s : State) : ∃ t, exec i s = .next t ∧ t.width = s.width ∧
    (SameTree s.eng t.eng ∨ SameTree Engine.reset t.eng ∨
      ∃ b e, SameTree s.eng e ∧ (s.eng.node ROOT).weight ≠ wmax s.width ∧ SameTree (e.updateTree b).eng t.eng) := by
  cases i with
  | nop => exact ⟨_, rfl, rfl, .inl ⟨rfl, rfl, rfl, rfl, rfl⟩⟩
  | init => exact ⟨_, rfl, rfl, .inr (.inl ⟨rfl, rfl, rfl, rfl, rfl⟩)⟩
  | contains b =>
    rcases execContains_cases b s with h | ⟨d, h⟩
    · exact ⟨_, h, rfl, .inl ⟨rfl, rfl, rfl, rfl, rfl⟩⟩
    · exact ⟨_, h, rfl, .inl ⟨rfl, rfl, rfl, rfl, rfl⟩⟩
  | pathsym b =>
    rcases execPathsym_cases b s with h | h | ⟨k, h⟩
    · exact ⟨_, h, rfl, .inl ⟨rfl, rfl, rfl, rfl, rfl⟩⟩
    · exact ⟨_, h, rfl, .inl ⟨rfl, rfl, rfl, rfl, rfl⟩⟩
    · exact ⟨_, h, rfl, .inl ⟨rfl, rfl, rfl, rfl, rfl⟩⟩
  | pathnyt =>
    rcases execPathnyt_cases s with h | h
    · exact ⟨_, h, rfl, .inl ⟨rfl, rfl, rfl, rfl, rfl⟩⟩
    · exact ⟨_, h, rfl, .inl ⟨rfl, rfl, rfl, rfl, rfl⟩⟩
  | upd b =>
    rcases execUpd_cases b s with h | h | ⟨e, h, hu, -, hw⟩ | ⟨e, h, hu, -, hw⟩
    · exact ⟨_, h, rfl, .inl ⟨rfl, rfl, rfl, rfl, rfl⟩⟩
    · exact ⟨_, h, rfl, .inl ⟨rfl, rfl, rfl, rfl, rfl⟩⟩
    · exact ⟨_, h, rfl, .inr (.inr ⟨b, s.eng, .refl _, hw, by rw [hu]; exact ⟨rfl, rfl, rfl, rfl, rfl⟩⟩)⟩
    · exact ⟨_, h, rfl, .inr (.inr ⟨b, s.eng, .refl _, hw, by rw [hu]; exact ⟨rfl, rfl, rfl, rfl, rfl⟩⟩)⟩
  | close =>
    rcases execClose_cases s with h | h | ⟨d, len, t, h, hm, -⟩ | ⟨t, h, hm⟩ | ⟨t, h, hm⟩
    · exact ⟨_, h, rfl, .inl ⟨rfl, rfl, rfl, rfl, rfl⟩⟩
    · exact ⟨_, h, rfl, .inl ⟨rfl, rfl, rfl, rfl, rfl⟩⟩
    · exact ⟨_, h, hm.width, .inl (hm.sameTree.trans ⟨rfl, rfl, rfl, rfl, rfl⟩)⟩
    · exact ⟨_, h, hm.width, .inl (hm.sameTree.trans ⟨rfl, rfl, rfl, rfl, rfl⟩)⟩
    · exact ⟨_, h, hm.width, .inl hm.sameTree⟩
  | enc b =>
    have st : SameTree s.eng (encStart b s).eng := ⟨rfl, rfl, rfl, rfl, rfl⟩
    rcases execEnc_cases b s with h | h | h | ⟨t, h, -, hm⟩ | ⟨t, h, -, hm⟩ | ⟨t, e, -, hm, -, hw, ⟨hu, h⟩ | ⟨hu, h⟩⟩
    · exact ⟨_, h, rfl, .inl ⟨rfl, rfl, rfl, rfl, rfl⟩⟩
    · exact ⟨_, h, rfl, .inl ⟨rfl, rfl, rfl, rfl, rfl⟩⟩
    · exact ⟨_, h, rfl, .inl ⟨rfl, rfl, rfl, rfl, rfl⟩⟩
    · exact ⟨_, h, hm.width, .inl ((st.trans hm.sameTree).trans ⟨rfl, rfl, rfl, rfl, rfl⟩)⟩
    · exact ⟨_, h, hm.width, .inl (st.trans hm.sameTree)⟩
    · exact ⟨_, h, hm.width, .inr (.inr ⟨b, t.eng, st.trans hm.sameTree, hw, by rw [hu]; exact ⟨rfl, rfl, rfl, rfl, rfl⟩⟩)⟩
    · exact ⟨_, h, hm.width, .inr (.inr ⟨b, t.eng, st.trans hm.sameTree, hw, by rw [hu]; exact ⟨rfl, rfl, rfl, rfl, rfl⟩⟩)⟩
  | dec =>
    rcases execDec_cases s with h | h | ⟨t, h, hm, -⟩ | ⟨c, t, h, hm, -⟩ | ⟨len, t, h, hm, -⟩ |
      ⟨t, sym, q, len, lit, e, hm, -, -, -, hw, ⟨hu, h⟩ | ⟨hu, h⟩⟩
    · exact ⟨_, h, rfl, .inl ⟨rfl, rfl, rfl, rfl, rfl⟩⟩
    · exact ⟨_, h, rfl, .inl ⟨rfl, rfl, rfl, rfl, rfl⟩⟩
    · exact ⟨_, h, hm.width, .inl hm.sameTree⟩
    · exact ⟨_, h, hm.width, .inl (hm.sameTree.trans ⟨rfl, rfl, rfl, rfl, rfl⟩)⟩
    · exact ⟨_, h, hm.width, .inl (hm.sameTree.trans ⟨rfl, rfl, rfl, rfl, rfl⟩)⟩
    · exact ⟨_, h, hm.width, .inr (.inr ⟨sym, t.eng.recordPath q, hm.sameTree.trans ⟨rfl, rfl, rfl, rfl, rfl⟩, hw, by
        rw [hu]; exact ⟨rfl, rfl, rfl, rfl, rfl⟩⟩)⟩
    · exact ⟨_, h, hm.width, .inr (.inr ⟨sym, t.eng.recordPath q, hm.sameTree.trans ⟨rfl, rfl, rfl, rfl, rfl⟩, hw, by
        rw [hu]; exact ⟨rfl, rfl, rfl, rfl, rfl⟩⟩)⟩

/-- A step runs a command, or leaves the registers alone, or puts them at their reset values. -/
theorem step_cases (s : State) : ∃ t, step s = .next t ∧ t.width = s.width ∧
    (t.eng = s.eng ∨ t.eng = Engine.reset ∨ (∃ v, t.eng = { s.eng with lastrsp := v }) ∨
      ∃ i u, u.eng = s.eng ∧ u.width = s.width ∧ exec i u = .next t) := by
  unfold step
  rcases s.ports.host with _ | ⟨act, rest⟩
  · exact ⟨s, rfl, rfl, .inl rfl⟩
  have hrun : ∀ w, ∃ t, runCommand w (s.takeAction rest) = .next t ∧ t.width = s.width ∧
      (t.eng = s.eng ∨ t.eng = Engine.reset ∨ (∃ v, t.eng = { s.eng with lastrsp := v }) ∨
        ∃ i u, u.eng = s.eng ∧ u.width = s.width ∧ exec i u = .next t) := by
    intro w
    unfold runCommand
    split
    · rename_i i _
      obtain ⟨t, h, hw, -⟩ := exec_tree i (s.takeAction rest)
      exact ⟨t, h, hw, .inr (.inr (.inr ⟨i, s.takeAction rest, rfl, rfl, h⟩))⟩
    · exact ⟨_, rfl, rfl, .inr (.inr (.inl ⟨_, rfl⟩))⟩
  cases act with
  | command w =>
    unfold hostAction
    simp only
    split
    · exact hrun w
    · exact ⟨s, rfl, rfl, .inl rfl⟩
  | query a => exact ⟨_, rfl, by unfold hostQuery; split <;> rfl, .inl (by unfold hostQuery; split <;> rfl)⟩
  | queryInFlight a => exact ⟨_, rfl, rfl, .inl rfl⟩
  | reset => exact ⟨_, rfl, rfl, .inr (.inl rfl)⟩
  | resetDuring w =>
    unfold hostAction
    simp only
    split
    · obtain ⟨t, h, hw, -⟩ := hrun w
      unfold resetInFlight
      rw [h]
      exact ⟨_, rfl, hw, .inr (.inl rfl)⟩
    · exact ⟨_, rfl, rfl, .inr (.inl rfl)⟩
  | attachSource _ => exact ⟨_, rfl, rfl, .inl rfl⟩
  | attachSink _ => exact ⟨_, rfl, rfl, .inl rfl⟩

end Sys2Proof.Machine
end

