-- ==== Sys2Proof/Laws/Streams.lean ====
section
/-! SUPPORT. The bits of the streams (41_bitstream R160 to R168) and the paths the decoder follows (43_decoder R190, 40_tree
R127): writing appends to the stream, reading takes from it, in the same order. -/

namespace Sys2Proof.Machine

open Sys2Proof.Config

/-! The bits of a byte -/

theorem lowBits_succ (v : Byte) (k : Nat) : lowBits v (k + 1) = v.getLsbD k :: lowBits v k := by
  simp [lowBits, List.range_succ]

@[simp] theorem lowBits_zero (v : Byte) : lowBits v 0 = [] := rfl

@[simp] theorem lowBits_length (v : Byte) (k : Nat) : (lowBits v k).length = k := by simp [lowBits]

theorem msbBits_eq (v : Byte) : msbBits v = lowBits v 8 := rfl

theorem shiftIn_getLsbD (v : Byte) (x : Bool) (i : Nat) :
    (shiftIn v x).getLsbD i = if i = 0 then x else (decide (i < 8) && v.getLsbD (i - 1)) := by
  unfold shiftIn
  rw [BitVec.getLsbD_append]
  rcases i with _ | i
  · cases x <;> simp
  · simp only [show ¬ i + 1 < 1 by omega, if_false, show ¬ i + 1 = 0 by omega, Nat.add_sub_cancel, BitVec.getLsbD_extractLsb',
      Nat.zero_add]
    congr 1
    simp only [decide_eq_decide]; omega

/-- A bit shifted in stands after the bits that were there (41_bitstream R160). -/
theorem lowBits_shiftIn (v : Byte) (x : Bool) {k : Nat} (hk : k ≤ 7) : lowBits (shiftIn v x) (k + 1) = lowBits v k ++ [x] := by
  induction k with
  | zero => rw [lowBits_succ, shiftIn_getLsbD]; rfl
  | succ k ih =>
    rw [lowBits_succ, ih (by omega), lowBits_succ, shiftIn_getLsbD]
    simp; omega

theorem lowBits_shiftLeft (v : Byte) {k p : Nat} (h : k + p = 8) : lowBits (v <<< p) 8 = lowBits v k ++ List.replicate p false := by
  obtain rfl : k = 8 - p := by omega
  apply List.ext_getElem
  · simp; omega
  · intro i h1 h2
    simp only [lowBits_length] at h1
    simp only [lowBits, List.getElem_map, List.getElem_reverse, List.getElem_range, List.length_range, BitVec.getLsbD_shiftLeft,
      List.getElem_append, List.length_map, List.length_reverse, List.getElem_replicate]
    split
    · rename_i hi
      simp only [show 8 - 1 - i < 8 by omega, decide_true, Bool.true_and, show ¬ 8 - 1 - i < p by omega, decide_false, Bool.not_false]
      congr 1; omega
    · rename_i hi
      simp only [show 8 - 1 - i < p by omega, decide_true, Bool.not_true, Bool.and_false, Bool.false_and]

/-- A byte is the number its bits spell (43_decoder R190). -/
theorem byteOfBits_msbBits (v : Byte) : byteOfBits (msbBits v) = v := by
  revert v; decide

theorem msbBits_length (v : Byte) : (msbBits v).length = 8 := rfl

theorem wireBits_cons (v : Byte) (bs : List Byte) : wireBits (v :: bs) = msbBits v ++ wireBits bs := rfl

theorem wireBits_append (as bs : List Byte) : wireBits (as ++ bs) = wireBits as ++ wireBits bs := by
  simp [wireBits]

theorem wireBits_length (bs : List Byte) : (wireBits bs).length = 8 * bs.length := by
  induction bs with
  | nil => rfl
  | cons b bs ih => rw [wireBits_cons, List.length_append, ih, msbBits_length, List.length_cons]; omega

/-! Writing -/

theorem sinkBytes_append (p : Ports) (v : Byte) (xs : List SinkEvent) (h : p.sink = xs ++ [.byte v]) :
    p.sinkBytes = ({ p with sink := xs } : Ports).sinkBytes ++ [v] := by
  simp [Ports.sinkBytes, h]

/-- A sink that accepts takes what it is offered and goes on accepting. -/
theorem sinkOffer_accepts {ev : SinkEvent} {s : State} (h : s.SinkAccepts) :
    ∃ ans, sinkOffer ev s = .ok () { s with ports := { s.ports with sinkAnswers := ans, sink := s.ports.sink ++ [ev] } } ∧
      ∀ a ∈ ans, a = SnkAnswer.ok := by
  rcases sinkOffer_cases ev s with ⟨ans, h', ha⟩ | ⟨ans, -, ha⟩ | ⟨ans, kept, -, ha⟩
  · refine ⟨ans, h', ?_⟩
    rcases ha with ⟨-, rfl⟩ | ha
    · simp
    · intro a hm; exact h a (by rw [ha]; exact List.mem_cons_of_mem _ hm)
  · have := h .err (by rw [ha]; simp); simp at this
  · have := h (.never kept) (by rw [ha]; simp); simp at this

/-- With a sink that accepts, one bit goes to the end of what is written (41_bitstream R161). -/
theorem writeBit_accepts {x : Bool} {s : State} (hr : s.eng.wcnt ≤ 7) (h : s.SinkAccepts) :
    ∃ t, writeBit x s = .ok () t ∧ t.written = s.written ++ [x] ∧ t.SinkAccepts ∧
      t.eng.wcnt = (s.eng.wcnt + 1) % 8 ∧ WriterMoved s.ports.status s t ∧
      t.ports.sinkBytes.length = s.ports.sinkBytes.length + (s.eng.wcnt + 1) / 8 := by
  unfold writeBit
  split
  · rename_i h7
    obtain ⟨ans, ho, ha⟩ := sinkOffer_accepts (ev := .byte (shiftIn s.eng.wbuf x)) (s := s.withEng s.eng.clearWriter) h
    have hb : ∀ p : Ports, p.sink = s.ports.sink ++ [.byte (shiftIn s.eng.wbuf x)] →
        p.sinkBytes = s.ports.sinkBytes ++ [shiftIn s.eng.wbuf x] := by
      intro p hp; simp [Ports.sinkBytes, hp]
    refine ⟨_, ho, ?_, ha, ?_, ⟨_, _, _, _, rfl⟩, ?_⟩
    · show wireBits (Ports.sinkBytes _) ++ lowBits 0#8 0 = (wireBits s.ports.sinkBytes ++ lowBits s.eng.wbuf s.eng.wcnt) ++ [x]
      rw [hb _ rfl, wireBits_append, h7, List.append_assoc, List.append_assoc, ← lowBits_shiftIn _ _ (by omega)]
      simp [wireBits, msbBits_eq]
    · rw [h7]; rfl
    · rw [h7, hb _ rfl]; simp
  · rename_i h7
    refine ⟨_, rfl, ?_, h, ?_, ⟨_, _, _, _, rfl⟩, ?_⟩
    · show wireBits s.ports.sinkBytes ++ lowBits (shiftIn s.eng.wbuf x) (s.eng.wcnt + 1) =
        (wireBits s.ports.sinkBytes ++ lowBits s.eng.wbuf s.eng.wcnt) ++ [x]
      rw [lowBits_shiftIn _ _ (by omega), List.append_assoc]
    · show s.eng.wcnt + 1 = _; omega
    · show s.ports.sinkBytes.length = _; omega

/-- With a sink that accepts, bits go to the end of what is written, in order (41_bitstream R161). -/
theorem writeBits_accepts {xs : List Bool} {s : State} (hr : s.eng.wcnt ≤ 7) (h : s.SinkAccepts) :
    ∃ t, writeBits xs s = .ok () t ∧ t.written = s.written ++ xs ∧ t.SinkAccepts ∧
      t.eng.wcnt = (s.eng.wcnt + xs.length) % 8 ∧ WriterMoved s.ports.status s t ∧
      t.ports.sinkBytes.length = s.ports.sinkBytes.length + (s.eng.wcnt + xs.length) / 8 := by
  induction xs generalizing s with
  | nil => exact ⟨s, rfl, by simp, h, by simp; omega, .refl s, by simp; omega⟩
  | cons x xs ih =>
    obtain ⟨t, ht, h1, h3, h4, h5, h6⟩ := writeBit_accepts (x := x) hr h
    obtain ⟨u, hu, i1, i3, i4, i5, i6⟩ := ih (by omega) h3
    refine ⟨u, by unfold writeBits; rw [ht]; exact hu, by rw [i1, h1]; simp, i3, ?_, ?_, ?_⟩
    · rw [i4, h4]; simp; omega
    · rw [h5.status] at i5; exact h5.trans i5
    · rw [i6, h6, h4]; simp; omega

/-- A sink that answers `Ok` `k` times and then `a`, an `Err` or silence: writing bits stops at the byte `v` that meets `a`,
offered from `t`; the bits of the bytes before it are in the sink, and the buffer is empty (41_bitstream R160 to R162). -/
theorem writeBits_stops {xs : List Bool} {s : State} {k : Nat} {a : SnkAnswer} {rest : List SnkAnswer} (hr : s.eng.wcnt ≤ 7)
    (ha : a ≠ .ok) (hs : s.ports.sinkAnswers = List.replicate k .ok ++ a :: rest) (hl : 8 * (k + 1) ≤ s.eng.wcnt + xs.length) :
    ∃ v t, WriterMoved s.ports.status s t ∧ t.eng.wbuf = 0#8 ∧ t.eng.wcnt = 0 ∧ t.ports.sinkAnswers = a :: rest ∧
      t.ports.sinkBytes.length = s.ports.sinkBytes.length + k ∧
      wireBits t.ports.sinkBytes = (s.written ++ xs).take (8 * (s.ports.sinkBytes.length + k)) ∧
      wireBits (t.ports.sinkBytes ++ [v]) = (s.written ++ xs).take (8 * (s.ports.sinkBytes.length + k + 1)) ∧
      writeBits xs s = sinkOffer (.byte v) t := by
  induction xs generalizing s k with
  | nil => simp at hl; omega
  | cons x xs ih =>
    rw [List.length_cons] at hl
    by_cases h7 : s.eng.wcnt = 7
    · have hw : writeBit x s = sinkOffer (.byte (shiftIn s.eng.wbuf x)) (s.withEng s.eng.clearWriter) := by
        unfold writeBit; rw [if_pos h7]
      have hb : lowBits s.eng.wbuf 7 ++ [x] = msbBits (shiftIn s.eng.wbuf x) :=
        (lowBits_shiftIn _ _ (Nat.le_refl 7)).symm
      have hwr : s.written ++ x :: xs = wireBits (s.ports.sinkBytes ++ [shiftIn s.eng.wbuf x]) ++ xs := by
        show (wireBits s.ports.sinkBytes ++ lowBits s.eng.wbuf s.eng.wcnt) ++ x :: xs = _
        rw [h7, wireBits_append, List.append_cons, List.append_assoc (wireBits _), hb]
        simp [wireBits]
      rcases k with _ | k
      · refine ⟨shiftIn s.eng.wbuf x, s.withEng s.eng.clearWriter, ⟨_, _, _, _, rfl⟩, rfl, rfl, hs, rfl, ?_, ?_, ?_⟩
        · show wireBits s.ports.sinkBytes = _
          rw [hwr, wireBits_append, List.append_assoc, List.take_left' (by rw [wireBits_length]; rfl)]
        · show wireBits (s.ports.sinkBytes ++ [_]) = _
          rw [hwr, List.take_left' (by rw [wireBits_length, List.length_append]; rfl)]
        · unfold writeBits; rw [hw]
          cases a with
          | ok => exact absurd rfl ha
          | err => simp [sinkOffer, show s.ports.sinkAnswers = .err :: rest from hs]
          | never kept => simp [sinkOffer, show s.ports.sinkAnswers = .never kept :: rest from hs]
      · have hs' : s.ports.sinkAnswers = .ok :: (List.replicate k .ok ++ a :: rest) := hs
        have ho : writeBit x s = .ok () { s with
            eng := s.eng.clearWriter
            ports := { s.ports with
              sinkAnswers := List.replicate k .ok ++ a :: rest
              sink := s.ports.sink ++ [.byte (shiftIn s.eng.wbuf x)] } } := by
          rw [hw]; simp [sinkOffer, hs', State.withEng]
        generalize hu : ({ s with
            eng := s.eng.clearWriter
            ports := { s.ports with
              sinkAnswers := List.replicate k .ok ++ a :: rest
              sink := s.ports.sink ++ [.byte (shiftIn s.eng.wbuf x)] } } : State) = u at ho
        have hub : u.ports.sinkBytes = s.ports.sinkBytes ++ [shiftIn s.eng.wbuf x] := by
          subst hu; simp [Ports.sinkBytes]
        have huw : u.written ++ xs = s.written ++ x :: xs := by
          rw [hwr, ← hub]; subst hu
          show (wireBits _ ++ lowBits 0#8 0) ++ xs = _
          simp
        have hum : WriterMoved s.ports.status s u := by subst hu; exact ⟨_, _, _, _, rfl⟩
        have hu0 : u.eng.wcnt = 0 := by subst hu; rfl
        obtain ⟨v, t, h1, h2, h3, h4, h5, h6, h7', h8⟩ := ih (s := u) (k := k) (by omega) (by subst hu; rfl) (by omega)
        rw [hum.status] at h1
        have hlen : u.ports.sinkBytes.length + k = s.ports.sinkBytes.length + (k + 1) := by
          rw [hub, List.length_append, List.length_singleton]; omega
        rw [hlen] at h5 h6 h7'
        rw [huw] at h6 h7'
        exact ⟨v, t, hum.trans h1, h2, h3, h4, h5, h6, h7', by unfold writeBits; rw [ho]; exact h8⟩
    · have ho : writeBit x s = .ok () (s.withEng { s.eng with wbuf := shiftIn s.eng.wbuf x, wcnt := s.eng.wcnt + 1 }) := by
        unfold writeBit; rw [if_neg h7]
      have hw : (s.withEng { s.eng with wbuf := shiftIn s.eng.wbuf x, wcnt := s.eng.wcnt + 1 }).written ++ xs =
          s.written ++ x :: xs := by
        show (wireBits s.ports.sinkBytes ++ lowBits (shiftIn s.eng.wbuf x) (s.eng.wcnt + 1)) ++ xs =
          (wireBits s.ports.sinkBytes ++ lowBits s.eng.wbuf s.eng.wcnt) ++ x :: xs
        rw [lowBits_shiftIn _ _ hr]; simp
      obtain ⟨v, t, h1, h2, h3, h4, h5, h6, h7', h8⟩ :=
        ih (s := s.withEng { s.eng with wbuf := shiftIn s.eng.wbuf x, wcnt := s.eng.wcnt + 1 }) (k := k)
          (show s.eng.wcnt + 1 ≤ 7 by omega) hs (show 8 * (k + 1) ≤ s.eng.wcnt + 1 + xs.length by omega)
      rw [hw] at h6 h7'
      have hm : WriterMoved s.ports.status s (s.withEng { s.eng with wbuf := shiftIn s.eng.wbuf x, wcnt := s.eng.wcnt + 1 }) :=
        ⟨_, _, _, _, rfl⟩
      exact ⟨v, t, hm.trans h1, h2, h3, h4, h5, h6, h7', by unfold writeBits; rw [ho]; exact h8⟩

/-! Reading -/

/-- The bits to come are `bits`, then the source answers `rest`; `last` is the byte the buffer will hold then. -/
structure Supply (s : State) (bytes : List Byte) (rest : List SrcAnswer) (bits : List Bool) (last : Byte) : Prop where
  rcnt : s.eng.rcnt ≤ 7
  srcEof : s.eng.srcEof = false
  source : s.ports.source = bytes.map .byte ++ rest
  bits : s.eng.buffered ++ wireBits bytes = bits
  last : bytes.getLast?.getD s.eng.rbuf = last

/-- `ReadBit` takes the next bit of the supply (41_bitstream R165 to R168). -/
theorem readBit_supply {s : State} {bytes : List Byte} {rest : List SrcAnswer} {x : Bool} {bits : List Bool} {last : Byte}
    (h : Supply s bytes rest (x :: bits) last) :
    ∃ t bytes', readBit s = .ok (some x) t ∧ Supply t bytes' rest bits last ∧ ReaderMoved s.ports.status s t ∧
      (bytes = [] → bytes' = []) := by
  obtain ⟨h1, h2, h3, h4, h5⟩ := h
  unfold readBit
  split
  · rename_i h0
    rw [Engine.buffered, h0, lowBits_zero, List.nil_append] at h4
    rcases bytes with _ | ⟨v, bytes⟩
    · simp [wireBits] at h4
    · rw [if_neg (by simp [h2])]
      have hs : srcRead s = .ok (.byte v) { s with ports := { s.ports with source := bytes.map .byte ++ rest } } := by
        simp [srcRead, h3]
      rw [hs]
      rw [wireBits_cons, msbBits_eq, lowBits_succ, List.cons_append] at h4
      obtain ⟨rfl, h6⟩ := List.cons.inj h4
      have hsv : serveBit (({ s with ports := { s.ports with source := bytes.map .byte ++ rest } } : State).withEng
          { s.eng with rbuf := v, rcnt := 8 }) = .ok (some (v.getLsbD 7)) { s with
            eng := { s.eng with rbuf := v, rcnt := 7 }, ports := { s.ports with source := bytes.map .byte ++ rest } } := rfl
      refine ⟨_, bytes, hsv, ⟨by show 7 ≤ 7; omega, h2, rfl, h6, ?_⟩, ⟨_, _, _, _, rfl⟩, by simp⟩
      rw [← h5]
      rcases bytes with _ | ⟨w, bytes⟩
      · rfl
      · simp [List.getLast?_cons]
  · rename_i h0
    obtain ⟨k, hk⟩ : ∃ k, s.eng.rcnt = k + 1 := ⟨s.eng.rcnt - 1, by omega⟩
    rw [Engine.buffered, hk, lowBits_succ, List.cons_append] at h4
    obtain ⟨hx, h4⟩ := List.cons.inj h4
    have hsv : serveBit s = .ok (some x) (s.withEng { s.eng with rcnt := k }) := by
      unfold serveBit; rw [hk, ← hx]; rfl
    exact ⟨_, bytes, hsv, ⟨by show k ≤ 7; omega, h2, h3, h4, h5⟩, ⟨_, _, _, _, rfl⟩, id⟩

/-- With the supply at its end, `ReadBit` asks the source: the end is latched (41_bitstream R166). -/
theorem readBit_supply_eof {s : State} {bytes : List Byte} {tail : List SrcAnswer} {last : Byte}
    (h : Supply s bytes tail [] last) (he : tail.head? = none ∨ tail.head? = some .eof) :
    readBit s = .ok none { s with
      eng := { s.eng with srcEof := true }
      ports := { s.ports with source := tail.tail } } ∧ bytes = [] ∧ s.eng.rcnt = 0 := by
  obtain ⟨h1, h2, h3, h4, h5⟩ := h
  have h0 : s.eng.rcnt = 0 ∧ bytes = [] := by
    have := congrArg List.length h4
    rw [List.length_append, wireBits_length, Engine.buffered, lowBits_length] at this
    simp at this; exact this
  obtain ⟨h0, rfl⟩ := h0
  refine ⟨?_, rfl, h0⟩
  unfold readBit
  rw [if_pos h0, if_neg (by simp [h2])]
  rcases tail with _ | ⟨a, rest⟩
  · simp only [List.map_nil, List.nil_append] at h3
    rcases s with ⟨w, e, p⟩
    simp only at h3
    simp only [srcRead, h3, State.withEng, Res.andThen, List.tail_nil]
    rw [← h3]
  · obtain rfl : a = .eof := by simpa using he
    simp [srcRead, h3, State.withEng]

/-- With the supply at its end and a source that fails, `ReadBit` ends in `FAULT_SRC_IO` (41_bitstream R167). -/
theorem readBit_supply_err {s : State} {bytes : List Byte} {rest : List SrcAnswer} {last : Byte}
    (h : Supply s bytes (.err :: rest) [] last) :
    readBit s = .raised .srcIo { s with ports := { s.ports with source := rest } } ∧ bytes = [] ∧ s.eng.rcnt = 0 := by
  obtain ⟨h1, h2, h3, h4, h5⟩ := h
  have h0 : s.eng.rcnt = 0 ∧ bytes = [] := by
    have := congrArg List.length h4
    rw [List.length_append, wireBits_length, Engine.buffered, lowBits_length] at this
    simp at this; exact this
  obtain ⟨h0, rfl⟩ := h0
  refine ⟨?_, rfl, h0⟩
  unfold readBit
  rw [if_pos h0, if_neg (by simp [h2])]
  simp [srcRead, h3]

/-- With the supply at its end and a source that never answers, `ReadBit` waits (20_memory R67). -/
theorem readBit_supply_never {s : State} {bytes : List Byte} {rest : List SrcAnswer} {last : Byte}
    (h : Supply s bytes (.never :: rest) [] last) :
    readBit s = .blocked { s with ports := { s.ports with source := rest, status := .waitingSource } } ∧ bytes = [] ∧
      s.eng.rcnt = 0 := by
  obtain ⟨h1, h2, h3, h4, h5⟩ := h
  have h0 : s.eng.rcnt = 0 ∧ bytes = [] := by
    have := congrArg List.length h4
    rw [List.length_append, wireBits_length, Engine.buffered, lowBits_length] at this
    simp at this; exact this
  obtain ⟨h0, rfl⟩ := h0
  refine ⟨?_, rfl, h0⟩
  unfold readBit
  rw [if_pos h0, if_neg (by simp [h2])]
  simp [srcRead, h3, State.wait]

theorem ReaderMoved.nodes {st : PortStatus} {s t : State} (h : ReaderMoved st s t) (x : Handle) :
    t.eng.node x = s.eng.node x := node_congr h.sameTree.nodes x

/-! Following a path -/

/-- The node a path leads to, from a node down (40_tree R125, R127). -/
def Engine.follow (e : Engine) : Handle → List Bool → Option Handle
  | n, [] => some n
  | n, x :: xs =>
    match (e.node n).kind with
    | .internal l r => e.follow (if x then r else l) xs
    | .free | .leaf _ | .nyt => none

theorem follow_append (e : Engine) (n : Handle) (xs ys : List Bool) :
    e.follow n (xs ++ ys) = (e.follow n xs).bind fun m => e.follow m ys := by
  induction xs generalizing n with
  | nil => rfl
  | cons x xs ih =>
    simp only [List.cons_append, Engine.follow]
    cases (e.node n).kind with
    | internal l r => exact ih _
    | free => rfl
    | leaf b => rfl
    | nyt => rfl

/-- The path to a node leads to it (40_tree R127). -/
theorem TreeShape.follow_pathTo {e : Engine} (sh : TreeShape e) {h : Handle} (ht : e.InTree h) :
    e.follow ROOT (e.pathTo h) = some h ∧ (e.pathTo h).length ≤ e.nsym := by
  have main : ∀ d h, e.Depth h d → ∀ k, d ≤ k → ∀ acc, ∃ p, e.pathUp k h acc = p ++ acc ∧ e.follow ROOT p = some h ∧
      p.length = d := by
    intro d h hd
    induction hd with
    | root =>
      intro k _ acc
      refine ⟨[], ?_, rfl, rfl⟩
      cases k with
      | zero => rfl
      | succ k => unfold Engine.pathUp; rw [sh.rootTop]; rfl
    | @child h p d link _ ih =>
      intro k hk acc
      obtain ⟨k, rfl⟩ : ∃ j, k = j + 1 := ⟨k - 1, by omega⟩
      obtain ⟨q, h1, h2, h3⟩ := ih k (by omega) (((e.node p).right == some h) :: acc)
      refine ⟨q ++ [(e.node p).right == some h], ?_, ?_, by simp [h3]⟩
      · unfold Engine.pathUp; rw [link]; simp only [h1]; simp
      · rw [follow_append, h2]
        obtain ⟨l, r, hk', hlr⟩ := sh.childOf h p link
        have hne := (sh.children p l r hk').1
        simp only [Option.bind_some, Engine.follow, hk', Node.right]
        rcases hlr with rfl | rfl
        · simp [hne.symm]
        · simp
  obtain ⟨d, hd⟩ := sh.depth ht
  have h1 := sh.depth_le_nsym hd
  have h2 : e.nsym ≤ 256 := sh.nsym_le
  obtain ⟨p, hp, hf, hl⟩ := main d h hd pathMax (show d ≤ 256 by omega) []
  rw [List.append_nil] at hp
  unfold Engine.pathTo
  rw [hp]
  exact ⟨hf, by omega⟩

/-- The descent follows the bits of the supply to a leaf (43_decoder R190). -/
theorem descend_supply {p : List Bool} {k : Nat} {n m : Handle} {q : List Bool} {s : State} {bytes : List Byte}
    {rest : List SrcAnswer} {bits : List Bool} {last : Byte} (h : Supply s bytes rest (p ++ bits) last) (hk : p.length ≤ k)
    (hf : s.eng.follow n p = some m) (hm : ∀ l r, (s.eng.node m).kind ≠ .internal l r) :
    ∃ t bytes', descend k n q s = .ok (.reached m (q ++ p)) t ∧ Supply t bytes' rest bits last ∧
      ReaderMoved s.ports.status s t ∧ (bytes = [] → bytes' = []) := by
  induction p generalizing k n q s bytes with
  | nil =>
    obtain rfl := Option.some.inj hf
    refine ⟨s, bytes, ?_, h, .refl s, id⟩
    cases k with
    | zero => simp [descend]
    | succ k =>
      unfold descend
      split
      · rename_i l r hk'; exact absurd hk' (hm l r)
      all_goals simp
  | cons x p ih =>
    obtain ⟨k, rfl⟩ : ∃ j, k = j + 1 := ⟨k - 1, by simp at hk; omega⟩
    obtain ⟨t, bytes', ht, hs, hr, hb⟩ := readBit_supply h
    unfold Engine.follow at hf
    split at hf
    · rename_i l r hkind
      have hn : ∀ y, t.eng.node y = s.eng.node y := hr.nodes
      have ff : ∀ (y : Handle) (zs : List Bool), t.eng.follow y zs = s.eng.follow y zs := by
        intro y zs
        induction zs generalizing y with
        | nil => rfl
        | cons z zs ihz => simp only [Engine.follow, hn]; split <;> first | exact ihz _ | rfl
      obtain ⟨u, bytes'', hu, hs', hr', hb'⟩ := ih (k := k) (n := if x then r else l) (q := q ++ [x]) hs
        (by simpa using hk) (by rw [ff]; exact hf) (by simpa only [hn] using hm)
      refine ⟨u, bytes'', ?_, hs', by rw [hr.status] at hr'; exact hr.trans hr', fun h0 => hb' (hb h0)⟩
      unfold descend
      rw [hkind]
      simp only [ht, andThen_ok, hu, List.append_assoc, List.singleton_append]
    all_goals simp at hf

/-- The descent with the bits ending on an internal node: the next read decides. -/
theorem descend_stuck {p : List Bool} {k : Nat} {n m l r : Handle} {q : List Bool} {s : State} {bytes : List Byte}
    {rest : List SrcAnswer} {last : Byte} (h : Supply s bytes rest p last) (hk : p.length < k)
    (hf : s.eng.follow n p = some m) (hm : (s.eng.node m).kind = .internal l r) :
    ∃ t bytes', (∀ u, readBit t = .ok none u → descend k n q s = .ok (.ended (q ++ p)) u) ∧
      (∀ c u, readBit t = .raised c u → descend k n q s = .raised c u) ∧
      (∀ u, readBit t = .blocked u → descend k n q s = .blocked u) ∧
      Supply t bytes' rest [] last ∧ ReaderMoved s.ports.status s t ∧ (bytes = [] → bytes' = []) := by
  induction p generalizing k n q s bytes with
  | nil =>
    obtain rfl := Option.some.inj hf
    obtain ⟨k, rfl⟩ : ∃ j, k = j + 1 := ⟨k - 1, by simp at hk; omega⟩
    refine ⟨s, bytes, fun u hu => ?_, fun c u hu => ?_, fun u hu => ?_, h, .refl s, id⟩ <;> rw [descend, hm] <;> simp [hu]
  | cons x p ih =>
    obtain ⟨k, rfl⟩ : ∃ j, k = j + 1 := ⟨k - 1, by simp at hk; omega⟩
    obtain ⟨t, bytes', ht, hs, hr, hb⟩ := readBit_supply h
    unfold Engine.follow at hf
    split at hf
    · rename_i l' r' hkind
      have hn : ∀ y, t.eng.node y = s.eng.node y := hr.nodes
      have ff : ∀ (y : Handle) (zs : List Bool), t.eng.follow y zs = s.eng.follow y zs := by
        intro y zs
        induction zs generalizing y with
        | nil => rfl
        | cons z zs ihz => simp only [Engine.follow, hn]; split <;> first | exact ihz _ | rfl
      obtain ⟨u, bytes'', hu, hu', hv', hs', hr', hb'⟩ := ih (k := k) (n := if x then r' else l') (q := q ++ [x]) hs
        (by simpa using hk) (by rw [ff]; exact hf) (by rw [hn]; exact hm)
      refine ⟨u, bytes'', fun v hv => ?_, fun c v hv => ?_, fun v hv => ?_, hs', by rw [hr.status] at hr'; exact hr.trans hr',
        fun h0 => hb' (hb h0)⟩
      · rw [descend, hkind]
        simp only [ht, andThen_ok, hu v hv, List.append_assoc, List.singleton_append]
      · rw [descend, hkind]
        simp only [ht, andThen_ok, hu' c v hv]
      · rw [descend, hkind]
        simp only [ht, andThen_ok, hv' v hv]
    all_goals simp at hf

/-- A literal is the next bits of the supply (43_decoder R190). -/
theorem readLiteral_supply {p v : List Bool} {s : State} {bytes : List Byte} {rest : List SrcAnswer} {bits : List Bool}
    {last : Byte} (h : Supply s bytes rest (p ++ bits) last) :
    ∃ t bytes', readLiteral p.length v s = .ok { bits := v ++ p, complete := true } t ∧ Supply t bytes' rest bits last ∧
      ReaderMoved s.ports.status s t ∧ (bytes = [] → bytes' = []) := by
  induction p generalizing v s bytes with
  | nil => exact ⟨s, bytes, by simp [readLiteral], h, .refl s, id⟩
  | cons x p ih =>
    obtain ⟨t, bytes', ht, hs, hr, hb⟩ := readBit_supply h
    obtain ⟨u, bytes'', hu, hs', hr', hb'⟩ := ih (v := v ++ [x]) hs
    refine ⟨u, bytes'', ?_, hs', by rw [hr.status] at hr'; exact hr.trans hr', fun h0 => hb' (hb h0)⟩
    rw [List.length_cons, readLiteral, ht]
    simp only [andThen_ok, hu, List.append_assoc, List.singleton_append]

/-- A literal with too few bits left: the next read decides. -/
theorem readLiteral_stuck {p v : List Bool} {k : Nat} {s : State} {bytes : List Byte} {rest : List SrcAnswer} {last : Byte}
    (h : Supply s bytes rest p last) (hk : p.length < k) :
    ∃ t bytes', (∀ u, readBit t = .ok none u → readLiteral k v s = .ok { bits := v ++ p, complete := false } u) ∧
      (∀ c u, readBit t = .raised c u → readLiteral k v s = .raised c u) ∧
      (∀ u, readBit t = .blocked u → readLiteral k v s = .blocked u) ∧
      Supply t bytes' rest [] last ∧ ReaderMoved s.ports.status s t ∧ (bytes = [] → bytes' = []) := by
  induction p generalizing k v s bytes with
  | nil =>
    obtain ⟨k, rfl⟩ : ∃ j, k = j + 1 := ⟨k - 1, by simp at hk; omega⟩
    refine ⟨s, bytes, fun u hu => ?_, fun c u hu => ?_, fun u hu => ?_, h, .refl s, id⟩ <;> rw [readLiteral] <;> simp [hu]
  | cons x p ih =>
    obtain ⟨k, rfl⟩ : ∃ j, k = j + 1 := ⟨k - 1, by simp at hk; omega⟩
    obtain ⟨t, bytes', ht, hs, hr, hb⟩ := readBit_supply h
    obtain ⟨u, bytes'', hu, hu', hv', hs', hr', hb'⟩ := ih (k := k) (v := v ++ [x]) hs (by simpa using hk)
    refine ⟨u, bytes'', fun w hw => ?_, fun c w hw => ?_, fun w hw => ?_, hs', by rw [hr.status] at hr'; exact hr.trans hr',
      fun h0 => hb' (hb h0)⟩
    · rw [readLiteral, ht]
      simp only [andThen_ok, hu w hw, List.append_assoc, List.singleton_append]
    · rw [readLiteral, ht]
      simp only [andThen_ok, hu' c w hw]
    · rw [readLiteral, ht]
      simp only [andThen_ok, hv' w hw]

end Sys2Proof.Machine
end

