-- ==== Sys2Proof/Laws/Update.lean ====
section
/-! SUPPORT. The update reads the tree and nothing else (40_tree R140): on registers with the same tree each of its procedures
ends in the same way, with the same tree, and logs the same swaps. -/

namespace Sys2Proof.Machine

open Sys2Proof.Config

theorem SameTree.setNode {e f : Engine} (s : SameTree e f) (h : Handle) (nd : Node) :
    SameTree (e.setNode h nd) (f.setNode h nd) := by
  obtain ⟨h1, h2, h3, h4, h5⟩ := s
  refine ⟨?_, h2, h3, h4, h5⟩
  show f.nodes.set h.val nd h.isLt = e.nodes.set h.val nd h.isLt
  rw [h1]

/-- The swap logs agree: the same count, and the same entries below it. -/
def SameLogged (e f : Engine) : Prop :=
  f.swapcnt = e.swapcnt ∧ ∀ i : Fin swaplogN, i.val < e.swapcnt → f.swaplog.get i = e.swaplog.get i

theorem SameTree.swap {e f e' : Engine} {n m : Handle} (s : SameTree e f) (h : e.swap n m = some e') :
    ∃ f', f.swap n m = some f' ∧ SameTree e' f' ∧ e'.swapcnt = e.swapcnt ∧ f'.swapcnt = f.swapcnt ∧
      e'.swaplog = e.swaplog ∧ f'.swaplog = f.swaplog := by
  have nd := node_congr s.nodes
  rcases swap_cases e n m with h' | ⟨pn, pm, _, -, hn, hm, hs, -⟩
  · simp [h'] at h
  · unfold Engine.swap at h ⊢
    simp only [nd, hn, hm, swappable_congr s.nodes, hs, if_true] at h ⊢
    have s1 := s.setNode pn ((e.node pn).replaceChild n m)
    have s2 := s1.setNode pm (((e.setNode pn ((e.node pn).replaceChild n m)).node pm).replaceChild m n)
    simp only [node_congr s1.nodes, node_congr s2.nodes] at h ⊢
    obtain rfl := Option.some.inj h
    exact ⟨_, rfl, (s2.setNode _ _).setNode _ _, rfl, rfl, rfl, rfl⟩

theorem SameTree.swap_none {e f : Engine} {n m : Handle} (s : SameTree e f) (h : e.swap n m = none) : f.swap n m = none := by
  rcases hf : f.swap n m with _ | f'
  · rfl
  · obtain ⟨e', he, -⟩ := SameTree.swap ⟨s.nodes.symm, s.nyth.symm, s.nsym.symm, s.keylast.symm, s.lookup.symm⟩ hf
    rw [h] at he; simp at he

theorem SameTree.logSwap {e f e' : Engine} {n m : Handle} (s : SameTree e f) (l : SameLogged e f)
    (h : e.logSwap n m = .done e') : ∃ f', f.logSwap n m = .done f' ∧ SameTree e' f' ∧ SameLogged e' f' ∧
      (e.swaplog = f.swaplog → e'.swaplog = f'.swaplog) := by
  unfold Engine.logSwap at h ⊢
  obtain ⟨l1, l2⟩ := l
  split at h
  · rename_i hlt
    obtain rfl := TreeRes.done.inj h
    rw [dif_pos (by rw [l1]; exact hlt)]
    refine ⟨_, rfl, ⟨s.1, s.2, s.3, s.4, s.5⟩, ⟨congrArg (· + 1) l1, fun i hi => ?_⟩, fun hh => ?_⟩
    · have hi' : i.val < e.swapcnt + 1 := hi
      simp only [Vector.get_eq_getElem, Vector.getElem_set, l1]
      split
      · rfl
      · have := l2 i (by omega)
        simpa only [Vector.get_eq_getElem] using this
    · simp only [l1, hh]
  · simp at h

theorem SameTree.rebalance {e f e' : Engine} {n : Handle} (s : SameTree e f) (l : SameLogged e f)
    (h : e.rebalance n = .done e') : ∃ f', f.rebalance n = .done f' ∧ SameTree e' f' ∧ SameLogged e' f' ∧
      (e.swaplog = f.swaplog → e'.swaplog = f'.swaplog) := by
  have hc := candidate_congr s.nodes n
  rcases he : e.candidate n with _ | m <;> rw [he] at hc
  · rw [rebalance_none he] at h
    obtain rfl := TreeRes.done.inj h
    exact ⟨f, rebalance_none hc, s, l, id⟩
  · rcases hs : e.swap n m with _ | g
    · rw [rebalance_refused he hs] at h; simp at h
    · rw [rebalance_swap he hs] at h
      obtain ⟨g', hg, s', c1, c2, l1, l2⟩ := s.swap hs
      rw [rebalance_swap hc hg]
      obtain ⟨f', h1, h2, h3, h4⟩ := s'.logSwap ⟨by rw [c2, c1, l.1], fun i hi => by
        rw [l1, l2]; exact l.2 i (by rw [← c1]; exact hi)⟩ h
      exact ⟨f', h1, h2, h3, fun hh => h4 (by rw [l1, l2, hh])⟩

/-- The walk reads the tree only. -/
theorem SameTree.walk {k : Nat} {e f e' : Engine} {n : Handle} (s : SameTree e f) (l : SameLogged e f)
    (h : Engine.walk k e n = .done e') : ∃ f', Engine.walk k f n = .done f' ∧ SameTree e' f' ∧ SameLogged e' f' ∧
      (e.swaplog = f.swaplog → e'.swaplog = f'.swaplog) := by
  induction k generalizing e f n with
  | zero => rw [walk_zero] at h; simp at h
  | succ k ih =>
    rcases hr : e.rebalance n with e1 | e1
    · obtain ⟨f1, hf, s1, l1, g1⟩ := s.rebalance l hr
      rw [walk_succ_done hr] at h
      rw [walk_succ_done hf]
      have s2 : SameTree (e1.increment n) (f1.increment n) := by
        unfold Engine.increment
        rw [node_congr s1.nodes]
        exact s1.setNode n _
      rw [node_congr s2.nodes]
      split at h
      · rename_i hroot
        obtain rfl := TreeRes.done.inj h
        rw [if_pos hroot]
        exact ⟨_, rfl, s2, l1, g1⟩
      · rename_i hroot
        rw [if_neg hroot]
        rcases hp : ((e1.increment n).node n).parent with _ | p <;> rw [hp] at h
        · obtain rfl := TreeRes.done.inj h
          exact ⟨_, rfl, s2, l1, g1⟩
        · obtain ⟨f', h1, h2, h3, h4⟩ := ih s2 l1 h
          exact ⟨f', h1, h2, h3, fun hh => h4 (g1 hh)⟩
    · rw [walk_succ_internal hr] at h; simp at h

/-- The walk starts at the same node of the same tree, with an empty log. -/
theorem SameTree.walkStart {e f : Engine} (s : SameTree e f) (b : Byte) :
    (f.walkStart b).2 = (e.walkStart b).2 ∧ SameTree (e.walkStart b).1 (f.walkStart b).1 ∧
      (e.walkStart b).1.swapcnt = 0 ∧ (f.walkStart b).1.swapcnt = 0 ∧
      (e.walkStart b).1.swaplog = e.swaplog ∧ (f.walkStart b).1.swaplog = f.swaplog := by
  have hl : f.leafOf b = e.leafOf b := by unfold Engine.leafOf; rw [s.lookup]
  rcases walkStart_cases e b with ⟨hb, he⟩ | ⟨n, hb, he⟩ <;> rcases walkStart_cases f b with ⟨hb', hf⟩ | ⟨n', hb', hf⟩ <;>
    rw [hl, hb] at hb'
  · rw [he, hf]
    have s0 : SameTree { e with swapcnt := 0 } { f with swapcnt := 0 } := ⟨s.1, s.2, s.3, s.4, s.5⟩
    have c1 : ({ e with swapcnt := 0 } : Engine).swapcnt = 0 := rfl
    have c2 : ({ f with swapcnt := 0 } : Engine).swapcnt = 0 := rfl
    have l1 : ({ e with swapcnt := 0 } : Engine).swaplog = e.swaplog := rfl
    have l2 : ({ f with swapcnt := 0 } : Engine).swaplog = f.swaplog := rfl
    generalize ({ e with swapcnt := 0 } : Engine) = e0 at s0 c1 l1
    generalize ({ f with swapcnt := 0 } : Engine) = f0 at s0 c2 l2
    unfold Engine.split
    simp only [s0.nyth, s0.nsym, s0.keylast, s0.lookup, node_congr s0.nodes]
    exact ⟨trivial, ⟨(((s0.setNode _ _).setNode _ _).setNode _ _).nodes, rfl, rfl, rfl, rfl⟩, c1, c2, l1, l2⟩
  · simp at hb'
  · simp at hb'
  · obtain rfl := Option.some.inj hb'
    rw [he, hf]
    exact ⟨rfl, ⟨s.1, s.2, s.3, s.4, s.5⟩, rfl, rfl, rfl, rfl⟩

end Sys2Proof.Machine
end

