-- ==== Sys2Proof/Tests/Slice0.lean ====
section
/-! SUPPORT. The model's own tests. Expected values are the spec's: the encodings of 30_encoding R94, the worked examples of
95_test_vectors and of 44_query, or a hand calculation from the rules named. Then, for each obligation with hypotheses, a
state and operands that meet them. -/

namespace Sys2Proof.Tests

open Sys2Proof.Machine Sys2Proof.Config

/-! ## Small states -/

/-- The tree after `UPD 'A'`, its counts at `w` (95_test_vectors T1): I#0[NYT#1, A#2]. -/
def engA (w : Nat) : Engine :=
  { Engine.reset with
    nodes := ((Engine.reset.nodes.set 0 { kind := .internal 1 2, weight := w, key := 767, parent := none }).set 1
      { kind := .nyt, weight := 0, key := 766, parent := some 0 }).set 2
      { kind := .leaf 0x41#8, weight := w, key := 765, parent := some 0 }
    nyth := 1
    nsym := 1
    keylast := 765
    lookup := Engine.reset.lookup.set 0x41 (some 2) }

/-- The tree after `UPD 'A'`, `UPD 'B'` (95_test_vectors T2): I#0[I#1[NYT#3, B#4], A#2]. -/
def engAB : Engine :=
  { Engine.reset with
    nodes := ((((Engine.reset.nodes.set 0 { kind := .internal 1 2, weight := 2, key := 767, parent := none }).set 1
      { kind := .internal 3 4, weight := 1, key := 764, parent := some 0 }).set 2
      { kind := .leaf 0x41#8, weight := 1, key := 765, parent := some 0 }).set 3
      { kind := .nyt, weight := 0, key := 763, parent := some 1 }).set 4
      { kind := .leaf 0x42#8, weight := 1, key := 762, parent := some 1 }
    nyth := 3
    nsym := 2
    keylast := 762
    lookup := (Engine.reset.lookup.set 0x41 (some 2)).set 0x42 (some 4) }

/-- A state with given registers. -/
def withE (e : Engine) : State := { State.reset with eng := e }

def stA (w : Nat) : State := withE (engA w)

def stAB : State := withE engAB

/-- An arena that is no tree: two leaves of one weight with no parent. -/
def engBroken : Engine :=
  { Engine.reset with
    nodes := (Engine.reset.nodes.set 2 { kind := .leaf 0x41#8, weight := 1, key := 1, parent := none }).set 3
      { kind := .leaf 0x42#8, weight := 1, key := 2, parent := none }
    lookup := Engine.reset.lookup.set 0x41 (some 2) }

/-- The engine with a fault recorded. -/
def stFaulted : State := withE { engAB with fault := some .trunc, srcEof := true }

/-- What a test looks at: a value of the next state. -/
def atNext {α : Type} (r : Result) (f : State → α) : Option α :=
  match r with
  | .next t => some (f t)
  | .fault _ => none
  | .refused _ => none

/-- The responses the host has taken. -/
def resp (s : State) : List Word := s.ports.responses

/-! ## The tree of `stAB` meets the invariant -/

/-- The slots of `engAB`, written out. -/
def nodeAB (h : Handle) : Node :=
  match h.val with
  | 0 => { kind := .internal 1 2, weight := 2, key := 767, parent := none }
  | 1 => { kind := .internal 3 4, weight := 1, key := 764, parent := some 0 }
  | 2 => { kind := .leaf 0x41#8, weight := 1, key := 765, parent := some 0 }
  | 3 => { kind := .nyt, weight := 0, key := 763, parent := some 1 }
  | 4 => { kind := .leaf 0x42#8, weight := 1, key := 762, parent := some 1 }
  | _ => Node.reset

theorem engAB_node : engAB.node = nodeAB := by
  funext h
  obtain ⟨k, hk⟩ := h
  rcases k with _ | _ | _ | _ | _ | k
  all_goals simp [engAB, Engine.reset, Engine.node, Vector.get_eq_getElem, nodeAB]

/-- The slots in the tree. -/
def five : List Handle := [0, 1, 2, 3, 4]

theorem all_five {P : Handle → Prop} [∀ a, Decidable (P a)] (h : (five.all fun a => decide (P a)) = true) :
    ∀ a ∈ five, P a := by simpa using h

theorem all_five2 {P : Handle → Handle → Prop} [∀ a b, Decidable (P a b)]
    (h : (five.all fun a => five.all fun b => decide (P a b)) = true) : ∀ a ∈ five, ∀ b ∈ five, P a b := by simpa using h

theorem all_five3 {P : Handle → Handle → Handle → Prop} [∀ a b c, Decidable (P a b c)]
    (h : (five.all fun a => five.all fun b => five.all fun c => decide (P a b c)) = true) :
    ∀ a ∈ five, ∀ b ∈ five, ∀ c ∈ five, P a b c := by simpa using h

theorem mem_five (h : Handle) : h ∈ five ↔ h.val ≤ 4 := by
  simp only [five, List.mem_cons, List.not_mem_nil, or_false, Fin.ext_iff]
  show (h.val = 0 ∨ h.val = 1 ∨ h.val = 2 ∨ h.val = 3 ∨ h.val = 4) ↔ _
  omega

theorem nodeAB_free (h : Handle) (hh : h ∉ five) : nodeAB h = Node.reset := by
  rw [mem_five] at hh
  obtain ⟨k, hk⟩ := h
  rcases k with _ | _ | _ | _ | _ | k
  iterate 5 exact absurd (by simp) hh
  rfl

theorem five_of_kind {h : Handle} {k : Kind} (hk : (nodeAB h).kind = k) (hn : k ≠ .free) : h ∈ five := by
  by_contra hh
  rw [nodeAB_free h hh] at hk
  exact hn hk.symm

theorem five_of_parent {h p : Handle} (hp : (nodeAB h).parent = some p) : h ∈ five := by
  by_contra hh
  rw [nodeAB_free h hh] at hp
  simp [Node.reset] at hp

theorem engAB_inTree (h : Handle) : engAB.InTree h ↔ h ∈ five := by
  unfold Engine.InTree
  rw [engAB_node]
  constructor
  · exact fun hh => five_of_kind rfl hh
  · have : ∀ h ∈ five, (nodeAB h).kind ≠ .free := all_five (by decide)
    exact this h

theorem engAB_leafOf (b : Byte) : engAB.leafOf b = if b = 0x42#8 then some 4 else if b = 0x41#8 then some 2 else none := by
  have e : ∀ k : Nat, k < 256 → (b = BitVec.ofNat 8 k ↔ k = b.toNat) := by
    intro k hk
    constructor
    · rintro rfl; simp [Nat.mod_eq_of_lt hk]
    · rintro rfl; simp
  simp only [e 0x42 (by decide), e 0x41 (by decide)]
  simp [engAB, Engine.reset, Engine.leafOf, Vector.get_eq_getElem, Vector.getElem_set]

theorem engAB_lookup (b : Byte) (h : Handle) : engAB.leafOf b = some h ↔ (nodeAB h).kind = .leaf b := by
  rw [engAB_leafOf]
  constructor
  · intro hb
    split at hb
    · cases hb; subst b; rfl
    · split at hb
      · cases hb; subst b; rfl
      · cases hb
  · intro hk
    have hh := five_of_kind hk (by simp)
    simp only [five, List.mem_cons, List.not_mem_nil, or_false] at hh
    rcases hh with rfl | rfl | rfl | rfl | rfl <;> cases hk <;> rfl

theorem engAB_shape : TreeShape engAB where
  symbols := by decide +kernel
  slots h := by rw [engAB_inTree, mem_five]; exact Iff.rfl
  nytSlot := rfl
  freeSlots h hh := by rw [engAB_inTree] at hh; rw [engAB_node]; exact nodeAB_free h hh
  rootTop := by rw [engAB_node]; rfl
  parented h hh hr := by
    have : ∀ h ∈ five, h ≠ ROOT → (nodeAB h).parent.isSome := all_five (by decide)
    rw [engAB_inTree] at hh
    rw [engAB_node]
    exact Option.isSome_iff_exists.1 (this h hh hr)
  children p l r hk := by
    simp only [engAB_inTree]
    rw [engAB_node] at hk ⊢
    have hp := five_of_kind hk (by simp)
    simp only [five, List.mem_cons, List.not_mem_nil, or_false] at hp
    rcases hp with rfl | rfl | rfl | rfl | rfl <;> cases hk <;> decide
  childOf h p hp := by
    rw [engAB_node] at hp ⊢
    have hh := five_of_parent hp
    simp only [five, List.mem_cons, List.not_mem_nil, or_false] at hh
    rcases hh with rfl | rfl | rfl | rfl | rfl <;> cases hp <;> exact ⟨_, _, rfl, by decide⟩
  rooted h hh := by
    have u0 : engAB.UnderRoot 0 := .root
    have u1 : engAB.UnderRoot 1 := .child (p := 0) (by rw [engAB_node]; rfl) u0
    rw [engAB_inTree] at hh
    simp only [five, List.mem_cons, List.not_mem_nil, or_false] at hh
    rcases hh with rfl | rfl | rfl | rfl | rfl
    · exact u0
    · exact u1
    · exact .child (p := 0) (by rw [engAB_node]; rfl) u0
    · exact .child (p := 1) (by rw [engAB_node]; rfl) u1
    · exact .child (p := 1) (by rw [engAB_node]; rfl) u1
  nyt h := by
    rw [engAB_node]
    constructor
    · intro hk
      have hh := five_of_kind hk (by simp)
      simp only [five, List.mem_cons, List.not_mem_nil, or_false] at hh
      rcases hh with rfl | rfl | rfl | rfl | rfl <;> first | rfl | cases hk
    · rintro rfl; rfl
  leaves b h := by rw [engAB_node]; exact engAB_lookup b h
  keylast := rfl
  keyRange h hh := by
    have : ∀ h ∈ five, 762 ≤ (nodeAB h).key ∧ (nodeAB h).key ≤ key0 := all_five (by decide)
    rw [engAB_inTree] at hh
    rw [engAB_node]
    exact this h hh
  keysDistinct a b ha hb := by
    have : ∀ a ∈ five, ∀ b ∈ five, (nodeAB a).key = (nodeAB b).key → a = b := all_five2 (by decide)
    rw [engAB_inTree] at ha hb
    rw [engAB_node]
    exact this a ha b hb

/-- The pairs of children of one parent. -/
theorem engAB_siblings (a b : Handle) :
    engAB.Siblings a b ↔ a ≠ b ∧ (nodeAB a).parent ≠ none ∧ (nodeAB a).parent = (nodeAB b).parent := by
  unfold Engine.Siblings
  rw [engAB_node]
  constructor
  · rintro ⟨h, p, h1, h2⟩
    exact ⟨h, by rw [h1]; simp, by rw [h1, h2]⟩
  · rintro ⟨h, h1, h2⟩
    obtain ⟨p, hp⟩ := Option.ne_none_iff_exists'.1 h1
    exact ⟨h, p, hp, by rw [← h2, hp]⟩

theorem siblings_five {a b : Handle} (h : engAB.Siblings a b) : a ∈ five ∧ b ∈ five := by
  obtain ⟨_, p, h1, h2⟩ := h
  rw [engAB_node] at h1 h2
  exact ⟨five_of_parent h1, five_of_parent h2⟩

theorem engAB_weights : WeightOrder engAB where
  sums p l r hk := by
    rw [engAB_node] at hk ⊢
    have hp := five_of_kind hk (by simp)
    simp only [five, List.mem_cons, List.not_mem_nil, or_false] at hp
    rcases hp with rfl | rfl | rfl | rfl | rfl <;> cases hk <;> rfl
  nytZero := by rw [engAB_node]; rfl
  leafPositive h b hk := by
    rw [engAB_node] at hk ⊢
    have hp := five_of_kind hk (by simp)
    simp only [five, List.mem_cons, List.not_mem_nil, or_false] at hp
    rcases hp with rfl | rfl | rfl | rfl | rfl <;> cases hk <;> decide
  order a b ha hb hs := by
    have : ∀ a ∈ five, ∀ b ∈ five,
        ¬ (a ≠ b ∧ (nodeAB a).parent ≠ none ∧ (nodeAB a).parent = (nodeAB b).parent) →
        (nodeAB b).key < (nodeAB a).key → (nodeAB b).weight ≤ (nodeAB a).weight := all_five2 (by decide)
    rw [engAB_inTree] at ha hb
    rw [engAB_siblings] at hs
    rw [engAB_node]
    exact this a ha b hb hs
  adjacent a b x hs hx := by
    have : ∀ a ∈ five, ∀ b ∈ five, ∀ x ∈ five,
        (a ≠ b ∧ (nodeAB a).parent ≠ none ∧ (nodeAB a).parent = (nodeAB b).parent) →
        ¬ ((nodeAB a).key < (nodeAB x).key ∧ (nodeAB x).key < (nodeAB b).key) := all_five3 (by decide)
    obtain ⟨ha, hb⟩ := siblings_five hs
    rw [engAB_siblings] at hs
    rw [engAB_inTree] at hx
    rw [engAB_node]
    exact this a ha b hb x hx hs
  nytPairLowest a x ha hx h3 hs := by
    have : ∀ a ∈ five, ∀ x ∈ five,
        (a = 3 ∨ (a ≠ 3 ∧ (nodeAB a).parent ≠ none ∧ (nodeAB a).parent = (nodeAB 3).parent)) → x ≠ 3 →
        ¬ (x ≠ 3 ∧ (nodeAB x).parent ≠ none ∧ (nodeAB x).parent = (nodeAB 3).parent) →
        (nodeAB a).key < (nodeAB x).key := all_five2 (by decide)
    have hin : a ∈ five := by
      rcases ha with rfl | h
      · decide
      · exact (siblings_five h).1
    rw [engAB_siblings] at ha hs
    rw [engAB_inTree] at hx
    rw [engAB_node]
    exact this a hin x hx ha h3 hs
  nytParentNext p x hp hx h3 hs h1 := by
    have : ∀ p ∈ five, ∀ x ∈ five, (nodeAB 3).parent = some p → x ≠ 3 →
        ¬ (x ≠ 3 ∧ (nodeAB x).parent ≠ none ∧ (nodeAB x).parent = (nodeAB 3).parent) → x ≠ p →
        (nodeAB p).key < (nodeAB x).key := all_five2 (by decide)
    rw [engAB_siblings] at hs
    rw [engAB_inTree] at hx
    rw [engAB_node] at hp ⊢
    have hpf : ∀ p : Handle, (nodeAB 3).parent = some p → p ∈ five := by
      intro p h; cases h; decide
    exact this p (hpf p hp) x hx hp h3 hs h1

theorem engAB_regs : RegsInRange engAB := ⟨by decide, by decide, by decide, by decide, by decide⟩

theorem stAB_inv : Inv stAB := by
  refine ⟨engAB_regs, engAB_shape, engAB_weights, ?_⟩
  show (engAB.node ROOT).weight ≤ _
  rw [engAB_node]
  decide

/-! ## WellFormed: one ill-formed line for each check (30_encoding R105 to R107) -/

theorem test_wf_symbol_missing : (Line.command .ENC none).wellFormed = false := by decide
theorem test_wf_symbol_not_taken : (Line.command .DEC (some (.dec 1))).wellFormed = false := by decide
theorem test_wf_decimal_too_large : (Line.command .UPD (some (.dec 256))).wellFormed = false := by decide
theorem test_wf_hex_too_large : (Line.command .CONTAINS (some (.hex 0x100))).wellFormed = false := by decide
theorem test_wf_char_not_printable : (Line.command .PATHSYM (some (.chr (Char.ofNat 0x7F)))).wellFormed = false := by decide
theorem test_wf_encb_empty : (Line.encb []).wellFormed = false := by decide
theorem test_wf_encb_too_large : (Line.encb [.dec 1, .dec 300]).wellFormed = false := by decide
theorem test_wf_encs_not_ascii : (Line.encs [Char.ofNat 0xE9]).wellFormed = false := by decide
theorem test_wf_qrd_too_large : (Line.qrd 0x4000).wellFormed = false := by decide
theorem test_wf_src_too_large : (Line.src [.hex 0x1FF]).wellFormed = false := by decide
theorem test_wf_boundary : (Line.command .ENC (some (.dec 255))).wellFormed = true ∧ (Line.qrd 0x3FFF).wellFormed = true := by
  decide

/-! ## Decoding: words written out bit by bit from 30_encoding R94 -/

theorem test_decode_nop : decode 0b00000000000000000000000000000000#32 = .ok .nop := by decide
theorem test_decode_init : decode 0b00000000000000000000000000000001#32 = .ok .init := by decide
theorem test_decode_enc : decode 0b00000000000000000000010000010010#32 = .ok (.enc 0x41#8) := by decide
theorem test_decode_dec : decode 0b00000000000000000000000000000011#32 = .ok .dec := by decide
theorem test_decode_close : decode 0b00000000000000000000000000000100#32 = .ok .close := by decide
theorem test_decode_upd : decode 0b00000000000000000000100000000101#32 = .ok (.upd 0x80#8) := by decide
theorem test_decode_contains : decode 0b00000000000000000000010110100110#32 = .ok (.contains 0x5A#8) := by decide
theorem test_decode_pathsym : decode 0b00000000000000000000010001000111#32 = .ok (.pathsym 0x44#8) := by decide
theorem test_decode_pathnyt : decode 0b00000000000000000000000000001000#32 = .ok .pathnyt := by decide

/-- 95_test_vectors X1 to X7. -/
theorem test_decode_illegal :
    decode 0x00000010#32 = .error .symbolNotTaken ∧ decode 0x00001000#32 = .error .reservedBits ∧
    decode 0x00000009#32 = .error .opcodeUnassigned ∧ decode 0x0000000F#32 = .error .opcodeUnassigned ∧
    decode 0x00000013#32 = .error .symbolNotTaken ∧ decode 0x00000014#32 = .error .symbolNotTaken ∧
    decode 0x00000018#32 = .error .symbolNotTaken ∧ decode 0x80000002#32 = .error .reservedBits := by decide

theorem test_table_word : decodeTableWord 32 0x412 = some (.enc 0x41#8) ∧ decodeTableWord 32 0x10 = none := by decide

/-- 95_test_vectors P1, P2, P3: lines of listings as the spec writes them. -/
theorem test_read_lines :
    readLine "ENC 'A'      ; 0x00000412".toList = some (.command .ENC (some (.chr 'A'))) ∧
    readLine "SRC 0x41, 0xE0".toList = some (.src [.hex 0x41, .hex 0xE0]) ∧
    readLine "QRD 0x1400   ; 0x00000010".toList = some (.qrd 0x1400) ∧
    readLine "DECN 13".toList = some (.decn 13) ∧
    readLine "CLOSE        ; 0x00000004".toList = some (.command .CLOSE none) ∧
    readLine "enc 'A'".toList = none := by decide

/-- 95_test_vectors P2 and P3: comment-only lines and indented lines; log entry 16: a label, and a quoted character as a
count, are refused. -/
theorem test_read_listing :
    readListing ["; on X".toList, "".toList, "  DEC        ; 0x00000003".toList, "  ; host: if CODE = OK".toList] =
      some [.command .DEC none] ∧
    readListing ["loop:".toList] = none ∧ readLine "DECN 'A'".toList = none ∧ readLine "QRD 'A'".toList = none := by decide

/-- 30_encoding R107 for the host lines; log entry 16: an ill-formed line stands for no action. -/
theorem test_line_actions :
    lineActions (.src [.hex 0x41]) = some [.attachSource [.byte 0x41#8, .eof]] ∧
    lineActions (.decn 2) = some [.command 3#32, .command 3#32] ∧
    lineActions (.command .ENC none) = none ∧ lineActions (.command .ENC (some (.dec 256))) = none ∧
    lineActions (.qrd 0x4000) = none := by decide

/-- 95_test_vectors P5: the words of `ENCS "ABCD"`. -/
theorem test_assemble_encs :
    (Line.encs ['A', 'B', 'C', 'D']).assemble = some [0x412#32, 0x422#32, 0x432#32, 0x442#32] := by decide

/-! ## One step of each command -/

/-- 95_test_vectors K2: `NOP` on a faulted engine. -/
theorem test_nop_faulted : atNext (exec .nop stFaulted) (fun t => (resp t, statusWord t.eng)) = some ([0#32], 0x2A#32) := by
  decide +kernel

/-- 95_test_vectors K3: `INIT` on a faulted engine; `QRD 0x0001` is then 0xC0000300. -/
theorem test_init_faulted :
    atNext (exec .init stFaulted) (fun t => (resp t, statusWord t.eng, treeWord t.eng, qread t 0x0001#14)) =
      some ([0#32], 0#32, 0#32, 0xC0000300#32) := by decide +kernel

/-- 95_test_vectors 1.2: the first `ENC 0xFF`. -/
theorem test_enc_first :
    atNext (exec (.enc 0xFF#8) State.reset) (fun t => (resp t, t.ports.sink, writerWord t.eng, treeWord t.eng)) =
      some ([0x00208FF0#32], [.byte 0xFF#8], 0#32, 0x00100400#32) := by decide +kernel

/-- 95_test_vectors N2, third command (after 17 bits one 0 is pending), with the bits of 2.3 row 3's form: `00 01000011`
behind the pending 0 make the byte 0x08 and leave `011`. -/
theorem test_enc_third :
    atNext (exec (.enc 0x43#8) (withE { engAB with wcnt := 1 })) (fun t => (resp t, t.ports.sink, writerWord t.eng)) =
      some ([0x0020A430#32], [.byte 0x08#8], 0x303#32) := by decide +kernel

/-- 95_test_vectors 1.1: the fifth `DEC` of 41 E0 finds the end of the stream. -/
theorem test_dec_eos :
    atNext (exec .dec (withE { engA 4 with rbuf := 0xE0#8, rcnt := 5 }))
      (fun t => (resp t, readerWord t.eng, statusWord t.eng)) = some ([0x00005001#32], 0x0E0#32, 0x20#32) := by decide +kernel

/-- 95_test_vectors D5: the second `DEC` of 41 20 80 meets a literal for a byte that has a leaf. -/
theorem test_dec_duplit :
    atNext (exec .dec { stA 1 with ports := { Ports.reset with source := [.byte 0x20#8, .byte 0x80#8] } })
      (fun t => (resp t, readerWord t.eng, statusWord t.eng)) = some ([0x0000000B#32], 0x780#32, 0x0B#32) := by decide +kernel

/-- 41_bitstream R164, worked example: after `ENCS "AAAA"` three bits 1 are pending. -/
theorem test_close_pads :
    atNext (exec .close (withE { engA 4 with wbuf := 7#8, wcnt := 3 }))
      (fun t => (resp t, t.ports.sink, statusWord t.eng)) = some ([0x00005010#32], [.byte 0xE0#8, .close], 0x10#32) := by
  decide +kernel

/-- 95_test_vectors B10: the sink answers `Err` to the close. -/
theorem test_close_error :
    atNext (exec .close { State.reset with ports := { Ports.reset with sinkAnswers := [.err] } })
      (fun t => (resp t, statusWord t.eng)) = some ([0x00000009#32], 0x09#32) := by decide +kernel

/-- 95_test_vectors P6: the third `UPD` swaps slots 4 and 2. -/
theorem test_upd_swaps :
    atNext (exec (.upd 0x42#8) stAB)
      (fun t => resp t ++ [qread t 0x1404#14, qread t 0x1200#14, qread t 0x0011#14, qread t 0x0012#14, qread t 0x0009#14,
        qread t 0x000A#14]) =
      some [0x00000420#32, 1#32, 0x00040002#32, 0x80010AFD#32, 0x000FFFFF#32, 0x800106FA#32, 0x001FFFFF#32] := by
  decide +kernel

/-- 95_test_vectors T8: with `W` = 2 the root at 3 is full. -/
theorem test_upd_overflow :
    atNext (exec (.upd 0x03#8) { stA 3 with width := ⟨2, by decide⟩ }) (fun t => (resp t, statusWord t.eng, treeWord t.eng)) =
      some ([0x0000000C#32], 0x0C#32, 0x00100400#32) := by decide +kernel

/-- 44_query R210: `B` is in the tree of T2, `C` is not (95_test_vectors P6). -/
theorem test_contains :
    atNext (exec (.contains 0x42#8) stAB) resp = some [0x00000010#32] ∧
    atNext (exec (.contains 0x43#8) stAB) resp = some [0x00000000#32] := by decide +kernel

/-- 44_query R211 by hand: `B` is the right child of the root's left child. -/
theorem test_pathsym :
    atNext (exec (.pathsym 0x42#8) stAB) (fun t => (resp t, qread t 0x1100#14, qread t 0x1403#14)) =
      some ([0x00002000#32], 0x40000000#32, 2#32) := by decide +kernel

/-- 95_test_vectors 2.5: an absent byte. -/
theorem test_pathsym_absent : atNext (exec (.pathsym 0x5A#8) stAB) resp = some [0x00000005#32] := by decide +kernel

/-- 95_test_vectors P6: the NYT of that tree is at `00`. -/
theorem test_pathnyt :
    atNext (exec .pathnyt stAB) (fun t => (resp t, qread t 0x1100#14)) = some ([0x00002000#32], 0#32) := by decide +kernel

/-- 95_test_vectors T1, through the fetch: the word 0x00000415 runs as the first command after reset. -/
theorem test_step_fetch :
    atNext (step (State.reset.withFetchWord 32 0x415)) (fun t => (resp t, treeWord t.eng, qread t 0x1402#14)) =
      some ([0x00200410#32], 0x00100400#32, 765#32) := by decide +kernel

/-- 95_test_vectors X8: legality is checked before the fault. -/
theorem test_illegal_first : atNext (runCommand 0x00000010#32 stFaulted) resp = some [2#32] := by decide +kernel

/-- 95_test_vectors 2.5: the query space after reset. -/
theorem test_query_reset :
    qread State.reset 0x0000#14 = 0#32 ∧ qread State.reset 0x0001#14 = 0xC0000300#32 ∧
    qread State.reset 0x0002#14 = 0x3FFFFFFF#32 ∧ qread State.reset 0x0006#14 = 0x3FFFFFFF#32 ∧
    qread State.reset 0x105A#14 = 0x000003FF#32 ∧ qread State.reset 0x1201#14 = 0x03FF03FF#32 ∧
    qread State.reset 0x1408#14 = 0x41484301#32 ∧ qread State.reset 0x1409#14 = 0x00000020#32 ∧
    qread State.reset 0x3FFF#14 = 0#32 := by decide +kernel

/-- 95_test_vectors 2.5, slot 10: the word of a leaf `D` of key 753. -/
theorem test_node_word : nodeWord { kind := .leaf 0x44#8, weight := 1, key := 753, parent := some 7 } 1 = 0x800112F1#32 := by
  decide +kernel

/-! ## Witnesses: a state and operands that meet the hypotheses of each obligation that has any -/

/-- A state with given ports. -/
def withP (e : Engine) (p : Ports) : State := { State.reset with eng := e, ports := p }

/-- A command that answers a next state, and what that state meets. -/
theorem next_of {r : Result} {q : State → Bool} (h : atNext r q = some true) : ∃ t, r = .next t ∧ q t = true := by
  cases r with
  | next t => exact ⟨t, rfl, by simpa [atNext] using h⟩
  | fault _ => simp [atNext] at h
  | refused _ => simp [atNext] at h

/-- Whether an update ran to its end. -/
def TreeRes.ends : TreeRes → Bool
  | .done _ => true
  | .internal _ => false

theorem done_of {r : TreeRes} (h : TreeRes.ends r = true) : ∃ f, r = .done f := by
  cases r with
  | done f => exact ⟨f, rfl⟩
  | internal _ => simp [TreeRes.ends] at h

theorem internal_of {r : TreeRes} (h : TreeRes.ends r = false) : ∃ f, r = .internal f := by
  cases r with
  | done _ => simp [TreeRes.ends] at h
  | internal f => exact ⟨f, rfl⟩

theorem accepts_reset : State.reset.SinkAccepts := by simp [State.SinkAccepts, State.reset, Ports.reset]

theorem accepts_AB : stAB.SinkAccepts := by simp [State.SinkAccepts, stAB, withE, State.reset, Ports.reset]

theorem updates_old : ∃ f, engAB.updateTree 0x42#8 = .done f := done_of (by decide +kernel)

theorem updates_new : ∃ f, engAB.updateTree 0x43#8 = .done f := done_of (by decide +kernel)

theorem wit_ResponseWordFields : (0 : Nat) < 512 ∧ 264 < 512 ∧ 511 < 512 := by decide

theorem wit_AssemblerWritesCommandWords :
    (Line.command .ENC (some (.chr 'A'))).wellFormed = true ∧ (Line.command .PATHNYT none).wellFormed = true ∧
    (Line.encb [.dec 255, .hex 0]).wellFormed = true ∧ (Line.encs ['A', Char.ofNat 127]).wellFormed = true := by decide

theorem wit_ResetInputRestoresRegisters :
    (withP engAB { Ports.reset with host := [.reset] }).ports.host = [HostAction.reset] := rfl

theorem wit_ResetInFlightAbandonsCommand :
    let s := withP engAB { Ports.reset with host := [.resetDuring 0x412#32] }
    s.ports.status = .idle ∧ s.ports.host = [HostAction.resetDuring 0x412#32] := ⟨rfl, rfl⟩

theorem wit_StepRunsTheDecodedCommand :
    let s := withP engAB { Ports.reset with host := [.command 0x412#32] }
    s.ports.status = .idle ∧ s.ports.host = [HostAction.command 0x412#32] ∧ decode 0x412#32 = .ok (.enc 0x41#8) :=
  ⟨rfl, rfl, by decide⟩

theorem wit_StepRefusesIllegalWords :
    let s := withP { engAB with fault := some .trunc } { Ports.reset with host := [.command 0x13#32] }
    s.ports.status = .idle ∧ s.ports.host = [HostAction.command 0x13#32] ∧
      ∀ r ∈ opcodeTable, r.matches 0x13#32 = false := ⟨rfl, rfl, by decide⟩

theorem wit_IdleEngineKeepsAllState : State.reset.ports.host = [] := rfl

theorem wit_WaitingEngineKeepsAllState :
    let s := withP engAB { Ports.reset with host := [.command 3#32], status := .waitingSource }
    s.ports.status ≠ .idle ∧ s.ports.host = [HostAction.command 3#32] := ⟨by decide, rfl⟩

theorem wit_SilentSourceHoldsDec :
    let s := withP engAB { Ports.reset with source := [.never] }
    s.eng.fault = none ∧ (s.eng.node ROOT).weight ≠ wmax s.width ∧ (s.eng.node ROOT).kind = .internal 1 2 ∧
      s.eng.rcnt = 0 ∧ s.eng.srcEof = false ∧ s.ports.source = [.never] := by decide +kernel

theorem wit_SilentSourceHoldsFirstDec :
    let s := withP Engine.reset { Ports.reset with source := [.never] }
    s.eng.fault = none ∧ (s.eng.node ROOT).weight ≠ wmax s.width ∧ (s.eng.node ROOT).kind = .nyt ∧
      s.eng.rcnt = 0 ∧ s.eng.srcEof = false ∧ s.ports.source = [.never] := by decide +kernel

/-- The source silent inside the literal of `A` behind the path `00`, after one byte. -/
theorem wit_SilentSourceHoldsDecLater :
    let s := withP engAB { Ports.reset with source := [.byte 0x10#8, .never] }
    TreeShape s.eng ∧ s.eng.fault = none ∧ (s.eng.node ROOT).weight ≠ wmax s.width ∧ s.eng.rcnt ≤ 7 ∧
    s.eng.srcEof = false ∧ s.ports.source = [0x10#8].map .byte ++ .never :: [] ∧
    s.eng.buffered ++ wireBits [0x10#8] = msbBits 0x10#8 ∧ s.eng.Attempt (msbBits 0x10#8 ++ [false, true]) ∧
    [false, true] ≠ [] :=
  ⟨engAB_shape, rfl, by decide +kernel, by decide, rfl, rfl, by decide +kernel, .inr ⟨0x41#8, by decide +kernel⟩, by decide⟩

/-- CLOSE: a sink silent at the padded byte, at the close behind it, and at the close with nothing pending. -/
theorem wit_SilentSinkHoldsClose :
    (∀ n ∈ [1, 7], let s := withP { engAB with wbuf := 1#8, wcnt := n } { Ports.reset with sinkAnswers := [.never true] }
      s.eng.fault = none ∧ s.eng.closed = false ∧ 0 < s.eng.wcnt ∧ s.ports.sinkAnswers = [.never true]) ∧
    (let s := withP { engAB with wbuf := 1#8, wcnt := 7 } { Ports.reset with sinkAnswers := [.ok, .never false] }
     s.eng.fault = none ∧ s.eng.closed = false ∧ 0 < s.eng.wcnt ∧ s.ports.sinkAnswers = [.ok, .never false]) ∧
    (let s := withP engAB { Ports.reset with sinkAnswers := [.never true] }
     s.eng.fault = none ∧ s.eng.closed = false ∧ s.eng.wcnt = 0 ∧ s.ports.sinkAnswers = [.never true]) :=
  ⟨fun n hn => ⟨rfl, rfl, by show 0 < n; simp at hn; omega, rfl⟩, ⟨rfl, rfl, by decide, rfl⟩, ⟨rfl, rfl, rfl, rfl⟩⟩

/-- ENC of `C` (10 bits) with 6 bits pending: two bytes are offered, and the sink is silent at the second; with none pending
it is silent at the first. -/
theorem wit_SilentSinkHoldsEnc :
    (let s := withP { engAB with wcnt := 6 } { Ports.reset with sinkAnswers := [.ok, .never true] }
     s.eng.fault = none ∧ s.eng.closed = false ∧ (s.eng.node ROOT).weight ≠ wmax s.width ∧ s.eng.wcnt ≤ 7 ∧
     s.ports.sinkAnswers = List.replicate 1 .ok ++ .never true :: [] ∧
     8 * (1 + 1) ≤ s.eng.wcnt + (s.eng.codeword 0x43#8).length) ∧
    (let s := withP engAB { Ports.reset with sinkAnswers := [.never false] }
     s.eng.fault = none ∧ s.eng.closed = false ∧ (s.eng.node ROOT).weight ≠ wmax s.width ∧ s.eng.wcnt ≤ 7 ∧
     s.ports.sinkAnswers = List.replicate 0 .ok ++ .never false :: [] ∧
     8 * (0 + 1) ≤ s.eng.wcnt + (s.eng.codeword 0x43#8).length) :=
  ⟨⟨rfl, rfl, by decide +kernel, by decide, rfl, by decide +kernel⟩,
    ⟨rfl, rfl, by decide +kernel, by decide, rfl, by decide +kernel⟩⟩

theorem wit_EveryCommandAnswersOrWaits : stAB.ports.status = .idle := rfl

/-- One word for each of the four error codes. -/
theorem wit_ErrorResponsesChangeNothing :
    (∃ t, runCommand 0x13#32 stAB = .next t ∧ (resp t == resp stAB ++ [t.eng.lastrsp] && t.code == 2#4) = true) ∧
    (∃ t, runCommand 0x3#32 stFaulted = .next t ∧ (resp t == resp stFaulted ++ [t.eng.lastrsp] && t.code == 3#4) = true) ∧
    (∃ t, runCommand 0x4#32 (withE { engAB with closed := true }) = .next t ∧
      (resp t == [t.eng.lastrsp] && t.code == 4#4) = true) ∧
    (∃ t, runCommand 0x5A7#32 stAB = .next t ∧ (resp t == resp stAB ++ [t.eng.lastrsp] && t.code == 5#4) = true) :=
  ⟨next_of (by decide +kernel), next_of (by decide +kernel), next_of (by decide +kernel), next_of (by decide +kernel)⟩

theorem wit_FaultResponsesAreRecorded :
    ∃ t, exec (.upd 0x41#8) { stA 1 with width := ⟨1, by decide⟩ } = .next t ∧
      (resp t == [t.eng.lastrsp] && decide (0x8#4 ≤ t.code)) = true := next_of (by decide +kernel)

theorem wit_FaultedEngineRefusesCommands : stFaulted.eng.fault = some .trunc ∧ Instr.dec ≠ .nop ∧ Instr.dec ≠ .init :=
  ⟨rfl, by decide, by decide⟩

theorem wit_FaultIsStickyUntilInitOrReset :
    (Instr.nop ≠ .init ∧ stFaulted.eng.fault = some .trunc ∧ ∃ t, exec .nop stFaulted = .next t ∧ true = true) ∧
    (let act := HostAction.command 3#32
     act ≠ .reset ∧ (∀ w, act ≠ .resetDuring w) ∧ ¬ (act = .command (encode .init) ∧ PortStatus.idle = .idle) ∧
     ∃ t, step (withP stFaulted.eng { Ports.reset with host := [act] }) = .next t ∧ true = true) ∧
    (let act := HostAction.command (encode .init)
     act ≠ .reset ∧ (∀ w, act ≠ .resetDuring w) ∧ ¬ (act = .command (encode .init) ∧ PortStatus.waitingSink = .idle) ∧
     ∃ t, step (withP stFaulted.eng { Ports.reset with host := [act], status := .waitingSink }) = .next t ∧ true = true) ∧
    (∀ act ∈ [HostAction.reset, .resetDuring 3#32, .command (encode .init)],
      (withP stFaulted.eng { Ports.reset with host := [act] }).ports.host = [act] ∧
      (act = .reset ∨ (∃ w, act = .resetDuring w) ∨
        (act = .command (encode .init) ∧
          (withP stFaulted.eng { Ports.reset with host := [act] }).ports.status = .idle))) :=
  ⟨⟨by decide, rfl, next_of (by decide +kernel)⟩, ⟨by decide, by simp, by decide, next_of (by decide +kernel)⟩,
    ⟨by decide, by simp, by decide, next_of (by decide +kernel)⟩,
    fun act ha => ⟨rfl, by
      simp only [List.mem_cons, List.not_mem_nil, or_false] at ha
      rcases ha with rfl | rfl | rfl
      · exact .inl rfl
      · exact .inr (.inl ⟨_, rfl⟩)
      · exact .inr (.inr ⟨rfl, rfl⟩)⟩⟩

theorem wit_FullRootRaisesOverflow :
    let s : State := { stA 1 with width := ⟨1, by decide⟩ }
    s.eng.fault = none ∧ (s.eng.node ROOT).weight = wmax s.width ∧ s.eng.closed = false := by decide +kernel

theorem wit_ClosedWriterRefuses :
    let s : State := { withE { engA 1 with closed := true } with width := ⟨1, by decide⟩ }
    s.eng.fault = none ∧ s.eng.closed = true := ⟨rfl, rfl⟩

theorem wit_ContainsReportsMembership : stAB.eng.fault = none ∧ State.reset.eng.fault = none := ⟨rfl, rfl⟩

theorem wit_PathCommandsRecordThePath :
    stAB.eng.fault = none ∧ stAB.eng.leafOf 0x42#8 = some 4 ∧ stAB.eng.leafOf 0x43#8 = none := by decide +kernel

/-- The ends of the three ranges of addresses that read 0. -/
theorem wit_QueryReadsRegisterWords :
    let gap := fun a : QAddr =>
      (0x0804 ≤ a.toNat ∧ a.toNat ≤ 0x0FFF) ∨ (0x1108 ≤ a.toNat ∧ a.toNat ≤ 0x11FF) ∨ 0x140A ≤ a.toNat
    gap 0x0804#14 ∧ gap 0x0FFF#14 ∧ gap 0x1108#14 ∧ gap 0x11FF#14 ∧ gap 0x140A#14 ∧ gap 0x3FFF#14 ∧
      ¬ gap 0x0803#14 ∧ ¬ gap 0x1000#14 ∧ ¬ gap 0x1107#14 ∧ ¬ gap 0x1200#14 ∧ ¬ gap 0x1409#14 := by decide

theorem wit_QueryReadHasNoSideEffect :
    let p := { Ports.reset with host := [.query 0x1409#14] }
    ((withP engAB p).ports.host = [HostAction.query 0x1409#14] ∧ (withP engAB p).ports.status = .idle) ∧
    (withP engAB { p with host := [.queryInFlight 0#14] }).ports.host = [HostAction.queryInFlight 0#14] ∧
    (withP engAB { p with status := .waitingSink }).ports.status ≠ .idle := ⟨⟨rfl, rfl⟩, rfl, by decide⟩

theorem wit_WriteBitPacksAndOffers :
    (withE { engAB with wcnt := 6 }).eng.wcnt ≠ 7 ∧
    (let s := withP { engAB with wcnt := 7 } { Ports.reset with sinkAnswers := [.ok] }
     s.eng.wcnt = 7 ∧ s.ports.sinkAnswers = [.ok]) ∧
    (let s := withP { engAB with wcnt := 7 } { Ports.reset with sinkAnswers := [.err] }
     s.eng.wcnt = 7 ∧ s.ports.sinkAnswers = [.err]) := ⟨by decide, ⟨rfl, rfl⟩, ⟨rfl, rfl⟩⟩

theorem wit_WriterKeepsTheBitStream : RegsInRange stAB.eng ∧ stAB.SinkAccepts := ⟨engAB_regs, accepts_AB⟩

theorem wit_ReadBitServesAndFetches :
    (withE { engAB with rcnt := 8 }).eng.rcnt ≠ 0 ∧
    (let s := withE { engAB with srcEof := true }
     s.eng.rcnt = 0 ∧ s.eng.srcEof = true) ∧
    (∀ a : SrcAnswer, let s := withP engAB { Ports.reset with source := [a] }
      s.eng.rcnt = 0 ∧ s.eng.srcEof = false ∧ s.ports.source = [a]) := ⟨by decide, ⟨rfl, rfl⟩, fun _ => ⟨rfl, rfl, rfl⟩⟩

/-- One bit 1 written after reset and flushed makes the byte 0x80. -/
theorem wit_ReaderReturnsWhatTheWriterWrote :
    ∃ (s u v d : State) (r : Nat × Nat), s.eng.wcnt = 0 ∧ s.ports.sink = [] ∧ s.SinkAccepts ∧
      writeBits [true] s = .ok () u ∧ closeWriter u = .ok r v ∧
      d.eng.rcnt = 0 ∧ d.eng.srcEof = false ∧ d.ports.source = v.ports.sinkBytes.map .byte ++ [.eof] :=
  ⟨State.reset, _, _, withP Engine.reset { Ports.reset with source := [.byte 0x80#8, .eof] }, (1, 7), rfl, rfl,
    accepts_reset, rfl, rfl, rfl, rfl, rfl⟩

theorem wit_CloseFlushesAndCloses :
    stAB.eng.fault = none ∧ stAB.eng.closed = false ∧ RegsInRange stAB.eng ∧ stAB.SinkAccepts :=
  ⟨rfl, rfl, engAB_regs, accepts_AB⟩

theorem wit_CloseReportsSinkFailure :
    (let s := withP engAB { Ports.reset with sinkAnswers := [.err] }
     s.eng.fault = none ∧ s.eng.closed = false ∧ s.ports.sinkAnswers = [.err]) ∧
    (let s := withP { engAB with wcnt := 1 } { Ports.reset with sinkAnswers := [.ok, .err] }
     s.eng.fault = none ∧ s.eng.closed = false ∧ 0 < s.eng.wcnt ∧ s.ports.sinkAnswers = [.ok, .err]) :=
  ⟨⟨rfl, rfl, rfl⟩, ⟨rfl, rfl, by decide, rfl⟩⟩

theorem wit_StreamsAreIndependent :
    (∃ t, exec .dec stAB = .next t ∧ true = true) ∧ (∃ t, exec (.enc 0x42#8) stAB = .next t ∧ true = true) ∧
    (∃ t, exec (.upd 0x42#8) stAB = .next t ∧ true = true) ∧ (∃ t, exec .close stAB = .next t ∧ true = true) :=
  ⟨next_of (by decide +kernel), next_of (by decide +kernel), next_of (by decide +kernel), next_of (by decide +kernel)⟩

theorem wit_SplitBuildsInternalNytAndLeaf :
    (Engine.reset.nsym < 256 ∧ Engine.reset.nyth.val < 2 * Engine.reset.nsym + 1) ∧
    (let e : Engine := { engAB with nsym := 255, nyth := 509 }
     e.nsym < 256 ∧ e.nyth.val < 2 * e.nsym + 1) := by decide

/-- In the tree of T2 the candidate of `B` is `A`, and the root's left child has none (40_tree R133). -/
theorem wit_CandidateHasLargestKey : engAB.candidate 4 = some 2 ∧ engAB.candidate 1 = none := by decide +kernel

theorem wit_SwapExchangesPositionsAndKeys :
    TreeShape engAB ∧
    ((engAB.node 4).parent = some 1 ∧ (engAB.node 2).parent = some 0 ∧
      ((4 : Handle) ≠ ROOT ∧ (2 : Handle) ≠ ROOT ∧ (2 : Handle) ∉ engAB.ancestors 4 ∧ (4 : Handle) ∉ engAB.ancestors 2 ∧
        (1 : Handle) ≠ 0)) ∧
    ((engAB.node 1).parent = some 0 ∧ (engAB.node 2).parent = some 0) :=
  ⟨engAB_shape, by decide +kernel, by decide +kernel⟩

theorem wit_SwapLogAppends :
    (⟨0, by decide⟩ : Fin swaplogN).val = engAB.swapcnt ∧
    (⟨511, by decide⟩ : Fin swaplogN).val = ({ engAB with swapcnt := 511 } : Engine).swapcnt ∧
    ({ engAB with swapcnt := 512 } : Engine).swapcnt = 512 := ⟨rfl, rfl, rfl⟩

theorem wit_PathsFitThePathBuffer : TreeShape engAB ∧ engAB.InTree 4 ∧ (4 : Handle) ≠ ROOT :=
  ⟨engAB_shape, (engAB_inTree 4).2 (by decide), by decide⟩

theorem wit_UpdateCountsTheByte :
    TreeShape engAB ∧ (∃ f, engAB.updateTree 0x42#8 = .done f) ∧ ∃ f, engAB.updateTree 0x43#8 = .done f :=
  ⟨engAB_shape, updates_old, updates_new⟩

theorem wit_UpdateDependsOnlyOnTheTree :
    SameTree engAB { engAB with swapcnt := 3, wcnt := 2 } ∧ ∃ f, engAB.updateTree 0x42#8 = .done f :=
  ⟨⟨rfl, rfl, rfl, rfl, rfl⟩, updates_old⟩

theorem wit_UpdUpdatesTheTree :
    (stAB.eng.fault = none ∧ (stAB.eng.node ROOT).weight ≠ wmax stAB.width ∧ ∃ f, stAB.eng.updateTree 0x42#8 = .done f) ∧
    (let s := withE engBroken
     s.eng.fault = none ∧ (s.eng.node ROOT).weight ≠ wmax s.width ∧ ∃ f, s.eng.updateTree 0x41#8 = .internal f) :=
  ⟨⟨rfl, by decide +kernel, updates_old⟩, ⟨rfl, by decide +kernel, internal_of (by decide +kernel)⟩⟩

theorem wit_LookupEntriesAreKept :
    Instr.upd 0x43#8 ≠ .init ∧ stAB.eng.leafOf 0x42#8 = some 4 ∧ ∃ t, exec (.upd 0x43#8) stAB = .next t ∧ true = true :=
  ⟨by decide, by decide +kernel, next_of (by decide +kernel)⟩

theorem wit_EncWritesTheCodewordAndUpdates :
    stAB.eng.fault = none ∧ stAB.eng.closed = false ∧ (stAB.eng.node ROOT).weight ≠ wmax stAB.width ∧
    RegsInRange stAB.eng ∧ stAB.SinkAccepts ∧ (∃ f, stAB.eng.updateTree 0x42#8 = .done f) ∧
    ∃ f, stAB.eng.updateTree 0x43#8 = .done f :=
  ⟨rfl, rfl, by decide +kernel, engAB_regs, accepts_AB, updates_old, updates_new⟩

theorem wit_EncReportsSinkFailure :
    let s := withP engAB { Ports.reset with sinkAnswers := [.err] }
    s.eng.fault = none ∧ s.eng.closed = false ∧ (s.eng.node ROOT).weight ≠ wmax s.width ∧
    ∃ c u, writeBits (s.eng.codeword 0x43#8) { s with eng := s.eng.recordPath (s.eng.pathTo (s.eng.codeNode 0x43#8)) } =
      .raised c u := by
  refine ⟨rfl, rfl, by decide +kernel, ?_⟩
  have raised_of : ∀ r : Res Unit, (match r with | .raised _ _ => true | _ => false) = true → ∃ c u, r = .raised c u := by
    intro r h
    cases r with
    | raised c u => exact ⟨c, u, rfl⟩
    | ok _ _ => simp at h
    | blocked _ => simp at h
  exact raised_of _ (by decide +kernel)

/-- ENC of `C` (10 bits) with 6 bits pending: the sink accepts the first byte and refuses the second. -/
theorem wit_EncReportsSinkFailureAtAByte :
    let s := withP { engAB with wcnt := 6 } { Ports.reset with sinkAnswers := [.ok, .err] }
    s.eng.fault = none ∧ s.eng.closed = false ∧ (s.eng.node ROOT).weight ≠ wmax s.width ∧ s.eng.wcnt ≤ 7 ∧
    s.ports.sinkAnswers = List.replicate 1 .ok ++ .err :: [] ∧
    8 * (1 + 1) ≤ s.eng.wcnt + (s.eng.codeword 0x43#8).length :=
  ⟨rfl, rfl, by decide +kernel, by decide, rfl, by decide +kernel⟩

theorem wit_EncBoundsItsTransactions :
    RegsInRange stAB.eng ∧ ∃ t, exec (.enc 0x43#8) stAB = .next t ∧ true = true :=
  ⟨engAB_regs, next_of (by decide +kernel)⟩

/-- `B`'s codeword `01` from two buffered bits; and `C`'s codeword `00 01000011` from two source bytes. -/
theorem wit_DecInvertsEnc :
    (let s := withE { engAB with rbuf := 0x01#8, rcnt := 2 }
     TreeShape s.eng ∧ s.eng.fault = none ∧ (s.eng.node ROOT).weight ≠ wmax s.width ∧ s.eng.rcnt ≤ 7 ∧
     s.eng.srcEof = false ∧ s.ports.source = ([] : List Byte).map .byte ++ [] ∧
     s.eng.buffered ++ wireBits [] = s.eng.codeword 0x42#8 ++ [] ∧ ([] : List Bool).length < 8 ∧
     ∃ e, s.eng.updateTree 0x42#8 = .done e) ∧
    (let s := withP engAB { Ports.reset with source := [.byte 0x10#8, .byte 0xC0#8, .eof] }
     TreeShape s.eng ∧ s.eng.fault = none ∧ (s.eng.node ROOT).weight ≠ wmax s.width ∧ s.eng.rcnt ≤ 7 ∧
     s.eng.srcEof = false ∧ s.ports.source = [0x10#8, 0xC0#8].map .byte ++ [.eof] ∧
     s.eng.buffered ++ wireBits [0x10#8, 0xC0#8] = s.eng.codeword 0x43#8 ++ List.replicate 6 false ∧
     (List.replicate 6 false).length < 8 ∧ ∃ e, s.eng.updateTree 0x43#8 = .done e) := by
  refine ⟨⟨?_, rfl, by decide +kernel, by decide, rfl, rfl, by decide +kernel, by decide, done_of (by decide +kernel)⟩,
    ⟨engAB_shape, rfl, by decide +kernel, by decide, rfl, rfl, by decide +kernel, by decide, updates_new⟩⟩
  obtain ⟨h1, h2, h3, h4, h5, h6, h7, h8, h9, h10, h11, h12, h13, h14⟩ := engAB_shape
  exact ⟨h1, h2, h3, h4, h5, h6, h7, h8,
    fun h hh => by
      have conv : ∀ {x}, engAB.UnderRoot x → Engine.UnderRoot { engAB with rbuf := 0x01#8, rcnt := 2 } x := by
        intro x u
        induction u with
        | root => exact .root
        | child link _ ih => exact .child link ih
      exact conv (h9 h hh),
    h10, h11, h12, h13, h14⟩

/-- The path `00` to the NYT, and the literal of `A`, which has a leaf. -/
theorem wit_DecRefusesDuplicateLiteral :
    let s := withP engAB { Ports.reset with source := [.byte 0x10#8, .byte 0x40#8] }
    TreeShape s.eng ∧ s.eng.fault = none ∧ (s.eng.node ROOT).weight ≠ wmax s.width ∧ s.eng.rcnt ≤ 7 ∧
    s.eng.srcEof = false ∧ s.ports.source = [0x10#8, 0x40#8].map .byte ++ [] ∧
    s.eng.buffered ++ wireBits [0x10#8, 0x40#8] = s.eng.pathTo s.eng.nyth ++ msbBits 0x41#8 ++ List.replicate 6 false ∧
    (List.replicate 6 false).length < 8 ∧ s.eng.leafOf 0x41#8 = some 2 :=
  ⟨engAB_shape, rfl, by decide +kernel, by decide, rfl, rfl, by decide +kernel, by decide, by decide +kernel⟩

theorem wit_DecReportsEndOfStream :
    (let s := stAB
     s.eng.fault = none ∧ (s.eng.node ROOT).weight ≠ wmax s.width ∧ (s.eng.node ROOT).kind = .internal 1 2 ∧
     s.eng.rcnt = 0 ∧ s.SourceAtEnd) ∧
    (let s := withE { Engine.reset with srcEof := true }
     s.eng.fault = none ∧ (s.eng.node ROOT).weight ≠ wmax s.width ∧ (s.eng.node ROOT).kind = .nyt ∧
     s.eng.rcnt = 0 ∧ s.eng.srcEof = true) :=
  ⟨⟨rfl, by decide +kernel, by decide +kernel, rfl, .inl rfl⟩, ⟨rfl, by decide +kernel, by decide +kernel, rfl, rfl⟩⟩

theorem wit_PaddingNeverLooksTruncated :
    Inv stAB ∧ stAB.eng.fault = none ∧ (stAB.eng.node ROOT).weight ≠ wmax stAB.width ∧
    stAB.eng.buffered = List.replicate stAB.eng.rcnt false ∧ stAB.SourceAtEnd :=
  ⟨stAB_inv, rfl, by decide +kernel, by decide +kernel, .inl rfl⟩

/-- The source ends inside the literal of `A` behind the path `00`: 8 of 10 bits were there. -/
theorem wit_DecReportsTruncation :
    let s := withP engAB { Ports.reset with source := [.byte 0x10#8] }
    TreeShape s.eng ∧ s.eng.fault = none ∧ (s.eng.node ROOT).weight ≠ wmax s.width ∧ s.eng.rcnt ≤ 7 ∧
    s.eng.srcEof = false ∧ s.ports.source = [0x10#8].map .byte ++ [] ∧ ([] : List SrcAnswer).head? = none ∧
    s.eng.buffered ++ wireBits [0x10#8] = msbBits 0x10#8 ∧ s.eng.Attempt (msbBits 0x10#8 ++ [false, true]) ∧
    [false, true] ≠ [] ∧ [0x10#8] ≠ [] :=
  ⟨engAB_shape, rfl, by decide +kernel, by decide, rfl, rfl, rfl, by decide +kernel,
    .inr ⟨0x41#8, by decide +kernel⟩, by decide, by decide⟩

/-- The source fails at once on the way to `A`'s leaf. -/
theorem wit_DecReportsSourceFailure :
    let s := withP engAB { Ports.reset with source := [.err] }
    TreeShape s.eng ∧ s.eng.fault = none ∧ (s.eng.node ROOT).weight ≠ wmax s.width ∧ s.eng.rcnt ≤ 7 ∧
    s.eng.srcEof = false ∧ s.ports.source = ([] : List Byte).map .byte ++ .err :: [] ∧
    s.eng.buffered ++ wireBits [] = [] ∧ s.eng.Attempt ([] ++ [true]) ∧ [true] ≠ [] :=
  ⟨engAB_shape, rfl, by decide +kernel, by decide, rfl, rfl, by decide +kernel,
    .inl ⟨0x41#8, 2, by decide +kernel, by decide +kernel⟩, by decide⟩

/-- For the obligations StepKeepsRegistersInRange, StepKeepsTheTreeShape, StepKeepsTheSiblingProperty and
InvariantGivesTheSiblingProperty. -/
theorem wit_StepKeepsTheInvariants :
    let s := withP engAB { Ports.reset with host := [.command 0x435#32] }
    Inv s ∧ RegsInRange s.eng ∧ TreeShape s.eng ∧ ∃ t, step s = .next t ∧ true = true :=
  ⟨⟨engAB_regs, engAB_shape, engAB_weights, stAB_inv.room⟩, engAB_regs, engAB_shape, next_of (by decide +kernel)⟩

theorem wit_UpdateTreeNeverEndsInInternalFault : TreeShape engAB ∧ WeightOrder engAB := ⟨engAB_shape, engAB_weights⟩

/-- The clauses of InvariantGivesTheSiblingProperty at one pair of siblings, the NYT and `B`. -/
theorem wit_InvariantGivesTheSiblingProperty :
    Inv stAB ∧ stAB.eng.Siblings 3 4 ∧ stAB.eng.InTree 2 ∧ (stAB.eng.node 0).kind = .internal 1 2 ∧
    ¬ stAB.eng.Siblings 2 4 ∧ (stAB.eng.node 4).key < (stAB.eng.node 2).key := by
  refine ⟨stAB_inv, (engAB_siblings 3 4).2 (by decide), (engAB_inTree 2).2 (by decide), by decide +kernel, ?_, by decide +kernel⟩
  rw [show stAB.eng = engAB from rfl, engAB_siblings]
  decide

end Sys2Proof.Tests
end

section
/-! The architectural state (10_state): the values after reset (R40), and what every step keeps: the tree (R24, R25, R28 to
R30), the ranges of the stream, path and log registers (R31 to R34), the lookup entries once valid (R30). -/

namespace Sys2Proof.Machine

open Sys2Proof.Config

/-! The arena after reset: the root is the NYT and the only node of the tree -/

theorem reset_node (h : Handle) : Engine.reset.node h = if h = ROOT then Node.resetNyt else Node.reset := by
  show Vector.get ((Vector.replicate nnodes Node.reset).set 0 Node.resetNyt) h = _
  rw [Vector.get_eq_getElem, Vector.getElem_set]
  by_cases hh : h = ROOT
  · subst hh; rfl
  · have hv : 0 ≠ h.val := fun h0 => hh (Fin.ext h0.symm)
    rw [if_neg hv, if_neg hh, Vector.getElem_replicate]

@[simp] theorem reset_node_root : Engine.reset.node ROOT = Node.resetNyt := by rw [reset_node, if_pos rfl]

theorem reset_node_ne {h : Handle} (hh : h ≠ ROOT) : Engine.reset.node h = Node.reset := by rw [reset_node, if_neg hh]

@[simp] theorem reset_leafOf (b : Byte) : Engine.reset.leafOf b = none := by
  simp [Engine.leafOf, Engine.reset, Vector.get_eq_getElem]

@[simp] theorem reset_inTree (h : Handle) : Engine.reset.InTree h ↔ h = ROOT := by
  unfold Engine.InTree
  rw [reset_node]
  split <;> simp [Node.resetNyt, Node.reset, *]

@[simp] theorem reset_parent (h : Handle) : (Engine.reset.node h).parent = none := by
  rw [reset_node]; split <;> rfl

theorem reset_kind (h : Handle) : (Engine.reset.node h).kind = if h = ROOT then .nyt else .free := by
  rw [reset_node]; split <;> rfl

theorem reset_kind_ne_internal (h l r : Handle) : (Engine.reset.node h).kind ≠ .internal l r := by
  rw [reset_kind]; split <;> nofun

theorem reset_kind_ne_leaf (h : Handle) (b : Byte) : (Engine.reset.node h).kind ≠ .leaf b := by
  rw [reset_kind]; split <;> nofun

theorem reset_not_siblings (a b : Handle) : ¬ Engine.reset.Siblings a b := by
  rintro ⟨-, p, hp, -⟩
  simp at hp

theorem reset_regs : RegsInRange Engine.reset := ⟨by decide, by decide, by decide, by decide, by decide⟩

/-- The tree after reset is a tree (10_state R40). -/
theorem reset_shape : TreeShape Engine.reset where
  symbols := by simp [Engine.reset]
  slots h := by rw [reset_inTree, Fin.ext_iff]; exact Nat.le_zero.symm
  nytSlot := rfl
  freeSlots h hh := reset_node_ne fun hr => hh ((reset_inTree h).2 hr)
  rootTop := reset_parent ROOT
  parented h hh hr := absurd ((reset_inTree h).1 hh) hr
  children p l r hk := absurd hk (reset_kind_ne_internal p l r)
  childOf h p hp := by simp at hp
  rooted h hh := by rw [(reset_inTree h).1 hh]; exact .root
  nyt h := by
    rw [reset_kind]
    show _ ↔ h = ROOT
    split <;> simp [*]
  leaves b h := by
    rw [reset_leafOf]
    exact ⟨nofun, fun hk => absurd hk (reset_kind_ne_leaf h b)⟩
  keylast := rfl
  keyRange h hh := by
    rw [(reset_inTree h).1 hh, reset_node_root]
    exact ⟨Nat.le_refl _, Nat.le_refl _⟩
  keysDistinct a b ha hb _ := ((reset_inTree a).1 ha).trans ((reset_inTree b).1 hb).symm

/-- The one node of the tree after reset has nothing to be in order with (40_tree R138). -/
theorem reset_weights : WeightOrder Engine.reset where
  sums p l r hk := absurd hk (reset_kind_ne_internal p l r)
  nytZero := by show (Engine.reset.node ROOT).weight = 0; rw [reset_node_root]; rfl
  leafPositive h b hk := absurd hk (reset_kind_ne_leaf h b)
  order a b ha hb _ hk := by
    rw [(reset_inTree a).1 ha, (reset_inTree b).1 hb] at hk
    exact absurd hk (Nat.lt_irrefl _)
  adjacent a b _ s _ := absurd s (reset_not_siblings a b)
  nytPairLowest a x _ hx hn _ := absurd ((reset_inTree x).1 hx) hn
  nytParentNext p x hp _ _ _ _ := by simp at hp

/-! What every command but `INIT` keeps -/

/-- The lookup entries that are valid stay as they are, and the registers stay in range. -/
structure Kept (e f : Engine) : Prop where
  leaf : ∀ (b : Byte) (h : Handle), e.leafOf b = some h → f.leafOf b = some h
  range : RegsInRange e → RegsInRange f

theorem Kept.refl (e : Engine) : Kept e e := ⟨fun _ _ h => h, id⟩

theorem Kept.trans {e f g : Engine} (h : Kept e f) (h' : Kept f g) : Kept e g :=
  ⟨fun b n hb => h'.leaf b n (h.leaf b n hb), h'.range ∘ h.range⟩

/-- Registers with the same lookup table, the same path length and the same swap count: the buffers decide. -/
theorem Kept.of_buffers {e f : Engine} (hl : f.lookup = e.lookup) (hp : f.pathlen = e.pathlen) (hs : f.swapcnt = e.swapcnt)
    (hw : WriterInRange e → WriterInRange f) (hr : e.rcnt ≤ 7 → f.rcnt ≤ 7) : Kept e f where
  leaf b h hb := by unfold Engine.leafOf at hb ⊢; rw [hl]; exact hb
  range r :=
    have w := hw ⟨r.wcnt, r.wbuf⟩
    ⟨w.1, w.2, hr r.rcnt, hp ▸ r.pathlen, hs ▸ r.swapcnt⟩

theorem respond_kept (c : Code) (d : Byte) (len : Nat) (lit : Bool) (s : State) :
    Kept s.eng (respond c d len lit s).eng := .of_buffers rfl rfl rfl id id

theorem raise_kept (c : FaultCode) (s : State) : Kept s.eng (raise c s).eng := .of_buffers rfl rfl rfl id id

theorem closed_kept (e : Engine) (c : Bool) : Kept e { e with closed := c } := .of_buffers rfl rfl rfl id id

theorem recordPath_kept (e : Engine) {p : List Bool} (hp : p.length ≤ pathMax) : Kept e (e.recordPath p) :=
  ⟨fun _ _ h => h, fun r => ⟨r.wcnt, r.wbuf, r.rcnt, hp, r.swapcnt⟩⟩

theorem answerPath_kept (s : State) (h : Handle) : Kept s.eng (answerPath (s.eng.pathTo h) s).eng :=
  (recordPath_kept s.eng (pathTo_length_le s.eng h)).trans (respond_kept _ _ _ _ (s.withEng _))

theorem WriterMoved.kept {st : PortStatus} {s t : State} (h : WriterMoved st s t)
    (hw : WriterInRange s.eng → WriterInRange t.eng) : Kept s.eng t.eng := by
  obtain ⟨_, _, _, _, rfl⟩ := h
  exact .of_buffers rfl rfl rfl hw id

theorem ReaderMoved.kept {st : PortStatus} {s t : State} (h : ReaderMoved st s t)
    (hr : t.eng.rcnt ≤ max 7 s.eng.rcnt) : Kept s.eng t.eng := by
  obtain ⟨_, _, _, _, rfl⟩ := h
  exact .of_buffers rfl rfl rfl id fun h7 => hr.trans (max_le le_rfl h7)

/-! `UpdateTree` adds a lookup entry only for a byte that has none, and `LogSwap` stops at a full log -/

theorem setNode_kept (e : Engine) (h : Handle) (nd : Node) : Kept e (e.setNode h nd) := .of_buffers rfl rfl rfl id id

theorem swap_kept {e f : Engine} {n m : Handle} (h : e.swap n m = some f) : Kept e f := by
  rcases swap_cases e n m with h' | ⟨_, _, g, h', -, -, -, nodes, rfl⟩
  · simp [h'] at h
  · obtain rfl := Option.some.inj (h'.symm.trans h)
    exact .of_buffers rfl rfl rfl id id

theorem logged_kept (e : Engine) {c : Nat} (hc : c ≤ swaplogN) (log : Vector SwapEntry swaplogN) :
    Kept e { e with swapcnt := c, swaplog := log } :=
  ⟨fun _ _ h => h, fun r => ⟨r.wcnt, r.wbuf, r.rcnt, r.pathlen, hc⟩⟩

theorem rebalance_kept (e : Engine) (n : Handle) : Kept e (e.rebalance n).eng := by
  rcases rebalance_cases e n with ⟨h, -⟩ | ⟨m, -, -, h⟩ | ⟨m, f, log, -, hs, hl, h⟩ | ⟨m, f, -, hs, -, h⟩ <;> rw [h]
  · exact .refl e
  · exact .refl e
  · exact (swap_kept hs).trans (logged_kept f hl log)
  · exact swap_kept hs

theorem walk_kept (k : Nat) (e : Engine) (n : Handle) : Kept e (Engine.walk k e n).eng :=
  walk_rel Kept .refl .trans rebalance_kept (fun e n => setNode_kept e n _) k e n

theorem split_kept {e : Engine} {b : Byte} (hb : e.leafOf b = none) : Kept e (e.split b).1 where
  leaf c h hc := by
    have hne : c ≠ b := by rintro rfl; simp [hb] at hc
    rw [split_leafOf, if_neg hne, hc]
  range r := ⟨r.wcnt, r.wbuf, r.rcnt, r.pathlen, r.swapcnt⟩

theorem walkStart_kept (e : Engine) (b : Byte) : Kept e (e.walkStart b).1 := by
  have h0 := logged_kept e (Nat.zero_le swaplogN) e.swaplog
  rcases walkStart_cases e b with ⟨hb, h⟩ | ⟨n, -, h⟩ <;> rw [h]
  · exact h0.trans (split_kept hb)
  · exact h0

theorem updateTree_kept (e : Engine) (b : Byte) : Kept e (e.updateTree b).eng := by
  unfold Engine.updateTree
  generalize walkBound = k
  exact (walkStart_kept e b).trans (walk_kept k _ _)

/-! `Close` keeps the writer in range, however it ends -/

theorem Res.Leaves.andThen {α β : Type} {P Q : State → Prop} {r : Res α} {k : α → State → Res β} (h : r.Leaves P)
    (stop : ∀ t, P t → Q t) (go : ∀ a t, P t → (k a t).Leaves Q) : (r.andThen k).Leaves Q := by
  cases r with
  | ok a t => exact go a t h
  | raised c t => exact stop t h
  | blocked t => exact stop t h

theorem sinkOffer_eng (ev : SinkEvent) (s : State) : (sinkOffer ev s).Leaves fun t => t.eng = s.eng := by
  rcases sinkOffer_cases ev s with ⟨_, h, -⟩ | ⟨_, h, -⟩ | ⟨_, _, h, -⟩ <;> rw [h] <;> exact rfl

/-- The last lines of `Close`: the sink is told, and `CLOSED` is set. -/
theorem sinkClose_range {s : State} (h : WriterInRange s.eng) (r : Nat × Nat) :
    ((sinkOffer .close s).andThen fun _ u => .ok r (u.withEng { u.eng with closed := true })).Leaves
      fun t => WriterInRange t.eng := by
  have keep : ∀ t : State, t.eng = s.eng → WriterInRange t.eng := fun t ht => ht ▸ h
  exact (sinkOffer_eng .close s).andThen keep fun _ u hu => keep u hu

theorem closeWriter_range {s : State} (h : WriterInRange s.eng) : (closeWriter s).Leaves fun t => WriterInRange t.eng := by
  unfold closeWriter
  split
  · have empty : ∀ t : State, t.eng = s.eng.clearWriter → WriterInRange t.eng := by
      intro t ht; rw [ht]; simp [WriterInRange]
    exact (sinkOffer_eng _ _).andThen empty fun _ t ht => sinkClose_range (empty t ht) _
  · exact sinkClose_range h _

theorem execClose_range {s t : State} (h : execClose s = .next t) (hw : WriterInRange s.eng) : WriterInRange t.eng := by
  have hr := closeWriter_range hw
  unfold execClose prologue at h
  split at h
  · cases h; exact hw
  · split at h
    · cases h; exact hw
    · rcases hc : closeWriter s with ⟨r, u⟩ | ⟨c, u⟩ | u <;> rw [hc] at h hr <;> cases h <;> exact hr

/-! The commands -/

theorem execUpd_kept {b : Byte} {s t : State} (h : execUpd b s = .next t) : Kept s.eng t.eng := by
  have hk := updateTree_kept s.eng b
  rcases execUpd_cases b s with h' | h' | ⟨e, h', hu, -⟩ | ⟨e, h', hu, -⟩ <;> cases h'.symm.trans h
  · exact respond_kept _ _ _ _ s
  · exact raise_kept _ s
  · rw [hu] at hk; exact hk.trans (respond_kept _ _ _ _ (s.withEng e))
  · rw [hu] at hk; exact hk.trans (raise_kept _ (s.withEng e))

theorem execClose_kept {s t : State} (h : execClose s = .next t) : Kept s.eng t.eng := by
  have hw := execClose_range h
  rcases execClose_cases s with h' | h' | ⟨d, len, u, h', hm, -⟩ | ⟨u, h', hm⟩ | ⟨u, h', hm⟩ <;> cases h'.symm.trans h
  · exact respond_kept _ _ _ _ s
  · exact respond_kept _ _ _ _ s
  · exact (hm.kept hw).trans ((closed_kept u.eng true).trans (respond_kept _ _ _ _ (u.withEng _)))
  · exact (hm.kept hw).trans (raise_kept _ u)
  · exact hm.kept hw

theorem encStart_kept (b : Byte) (s : State) : Kept s.eng (encStart b s).eng :=
  recordPath_kept s.eng (pathTo_length_le s.eng _)

theorem execEnc_kept {b : Byte} {s t : State} (h : execEnc b s = .next t) : Kept s.eng t.eng := by
  have hr := fun hw => writeBits_range (xs := s.eng.codeword b) (s := encStart b s) hw
  rcases execEnc_cases b s with h' | h' | h' | ⟨u, h', hb, hm⟩ | ⟨u, h', hb, hm⟩ |
    ⟨u, e, hb, hm, -, -, ⟨hu, h'⟩ | ⟨hu, h'⟩⟩ <;> cases h'.symm.trans h
  · exact respond_kept _ _ _ _ s
  · exact respond_kept _ _ _ _ s
  · exact raise_kept _ s
  all_goals
    rw [hb] at hr
    have hk := (encStart_kept b s).trans (hm.kept hr)
  · exact hk.trans (raise_kept _ u)
  · exact hk
  all_goals
    have ht := updateTree_kept u.eng b
    rw [hu] at ht
  · exact hk.trans (ht.trans (respond_kept _ _ _ _ (u.withEng e)))
  · exact hk.trans (ht.trans (raise_kept _ (u.withEng e)))

theorem execDec_kept {s t : State} (h : execDec s = .next t) : Kept s.eng t.eng := by
  rcases execDec_cases s with h' | h' | ⟨u, h', hm, hz⟩ | ⟨c, u, h', hm, hr, -⟩ | ⟨len, u, h', hm, hz, -⟩ |
    ⟨u, sym, q, len, lit, e, hm, hr, hq, -, -, ⟨hu, h'⟩ | ⟨hu, h'⟩⟩ <;> cases h'.symm.trans h
  · exact respond_kept _ _ _ _ s
  · exact raise_kept _ s
  · exact hm.kept (by omega)
  · exact (hm.kept hr).trans (raise_kept c u)
  · exact (hm.kept (by omega)).trans (respond_kept _ _ _ _ u)
  all_goals
    have ht := (recordPath_kept u.eng hq).trans (updateTree_kept _ sym)
    rw [hu] at ht
    have hk := (hm.kept hr).trans ht
  · exact hk.trans (respond_kept _ _ _ _ (u.withEng e))
  · exact hk.trans (raise_kept _ (u.withEng e))

/-- Every command but `INIT` keeps the valid lookup entries and the ranges of the registers. -/
theorem exec_kept {i : Instr} {s t : State} (hi : i ≠ .init) (h : exec i s = .next t) : Kept s.eng t.eng := by
  cases i with
  | nop => cases h; exact respond_kept _ _ _ _ s
  | init => exact absurd rfl hi
  | enc b => exact execEnc_kept h
  | dec => exact execDec_kept h
  | close => exact execClose_kept h
  | upd b => exact execUpd_kept h
  | contains b =>
    rcases execContains_cases b s with h' | ⟨d, h'⟩ <;> cases h'.symm.trans h <;> exact respond_kept _ _ _ _ s
  | pathsym b =>
    rcases execPathsym_cases b s with h' | h' | ⟨n, h'⟩ <;> cases h'.symm.trans h
    · exact respond_kept _ _ _ _ s
    · exact respond_kept _ _ _ _ s
    · exact answerPath_kept s n
  | pathnyt =>
    rcases execPathnyt_cases s with h' | h' <;> cases h'.symm.trans h
    · exact respond_kept _ _ _ _ s
    · exact answerPath_kept s s.eng.nyth

/-- Every command, `INIT` among them, keeps the registers in range. -/
theorem exec_range {i : Instr} {s t : State} (h : exec i s = .next t) (r : RegsInRange s.eng) : RegsInRange t.eng := by
  by_cases hi : i = .init
  · subst hi
    cases h
    exact (respond_kept _ _ _ _ (resetState s)).range reset_regs
  · exact (exec_kept hi h).range r

/-- Every command keeps the tree a tree, also one that ends in a fault or waits. -/
theorem exec_shape {i : Instr} {s t : State} (h : exec i s = .next t) (sh : TreeShape s.eng) : TreeShape t.eng := by
  obtain ⟨t', h', -, same⟩ := exec_tree i s
  cases h'.symm.trans h
  rcases same with same | same | ⟨b, e, se, -, same⟩
  · exact same.shape sh
  · exact same.shape reset_shape
  · exact same.shape ((se.shape sh).updateTree b)

/-! The statements -/

/-- Settles O56: every command keeps the tree a tree, and what a step does besides a command leaves the tree registers alone or
resets them. -/
theorem stepKeepsTheTreeShape : Obligations.StepKeepsTheTreeShape := by
  intro s t sh h
  obtain ⟨t', h', -, eng⟩ := step_cases s
  cases h'.symm.trans h
  rcases eng with eng | eng | ⟨v, eng⟩ | ⟨i, u, hu, -, hx⟩
  · rw [eng]; exact sh
  · rw [eng]; exact reset_shape
  · rw [eng]; exact SameTree.shape (e := s.eng) ⟨rfl, rfl, rfl, rfl, rfl⟩ sh
  · exact exec_shape hx (hu ▸ sh)

/-- Settles O44: only `Split` writes a lookup entry, and only the one of a byte that has none. -/
theorem lookupEntriesAreKept : Obligations.LookupEntriesAreKept :=
  fun _ _ _ b h hi hx hb => (exec_kept hi hx).leaf b h hb

/-- Settles O55: the width by the inversion of a step, the ranges command by command. -/
theorem stepKeepsRegistersInRange : Obligations.StepKeepsRegistersInRange := by
  intro s t h
  obtain ⟨t', h', hw, eng⟩ := step_cases s
  cases h'.symm.trans h
  refine ⟨hw, fun r => ?_⟩
  rcases eng with eng | eng | ⟨v, eng⟩ | ⟨i, u, hu, -, hx⟩
  · rw [eng]; exact r
  · rw [eng]; exact reset_regs
  · rw [eng]; exact ⟨r.wcnt, r.wbuf, r.rcnt, r.pathlen, r.swapcnt⟩
  · exact exec_range hx (hu ▸ r)

/-- Settles O6: the arena, the lookup table, the path cells and the swap log entry by entry, the other registers as written. -/
theorem resetRegisters : Obligations.ResetRegisters := by
  refine ⟨reset_node_root, fun _ hh => reset_node_ne hh, rfl, rfl, rfl, rfl, reset_leafOf, rfl, fun i => ?_, rfl, fun i => ?_,
    rfl, rfl, rfl, rfl, rfl, rfl, rfl, rfl⟩
  · exact Vector.getElem_replicate i.isLt
  · exact Vector.getElem_replicate i.isLt

/-- Settles O59: registers, shape and weights after reset, and a root of weight 0, which no width forbids. -/
theorem resetMeetsTheInvariant : Obligations.ResetMeetsTheInvariant := fun w =>
  { regs := reset_regs
    shape := reset_shape
    weights := reset_weights
    room := by
      show (Engine.reset.node ROOT).weight ≤ wmax w
      rw [reset_node_root]
      exact Nat.zero_le _ }

end Sys2Proof.Machine
end

section
/-! The agents and the query port (20_memory): an agent that never answers holds the command in flight (R67, R69), and a query
read changes nothing (R64, R76). -/

namespace Sys2Proof.Machine

open Sys2Proof.Config

/-! The query port -/

theorem step_cons {s : State} {act : HostAction} {rest : List HostAction} (h : s.ports.host = act :: rest) :
    step s = hostAction act s (s.takeAction rest) := by
  unfold step; rw [h]

theorem hostQuery_idle {s : State} (h : s.ports.status = .idle) (a : QAddr) : hostQuery a s = deliverQuery (qread s a) s :=
  if_pos h

theorem hostQuery_inFlight {s : State} (h : s.ports.status ≠ .idle) (a : QAddr) : hostQuery a s = freeQueryRead a s :=
  if_neg h

theorem registerWord_congr {s t : State} (he : t.eng = s.eng) (hw : t.width = s.width) (k : Nat) :
    registerWord t k = registerWord s k := by
  unfold registerWord; rw [he, hw]

/-- The query space shows the registers and the width, and nothing of the ports (44_query R214). -/
theorem qread_congr {s t : State} (he : t.eng = s.eng) (hw : t.width = s.width) (a : QAddr) : qread t a = qread s a := by
  simp only [qread, he, registerWord_congr he hw]

/-- Settles O27: a read is answered by the state before it, or by the free value, and only the port's own fields move. -/
theorem queryReadHasNoSideEffect : Obligations.QueryReadHasNoSideEffect := by
  intro s a rest
  refine ⟨fun hh hi => ?_, fun hh => ?_⟩
  · rw [step_cons hh, hostAction, hostQuery_idle (s := s.takeAction rest) hi,
      qread_congr (takeAction_eng s rest) (takeAction_width s rest)]
    rfl
  · rcases hh with hh | ⟨hh, hb⟩
    · rw [step_cons hh]; rfl
    · rw [step_cons hh, hostAction, hostQuery_inFlight (s := s.takeAction rest) hb]
      rfl

/-! A `DEC` whose bits run out -/

/-- The bits lead into an attempt of `DEC` but not to its end: to an internal node, or into a literal behind the path to the
NYT (43_decoder R190, R192). -/
inductive Engine.Unfinished (e : Engine) : List Bool → Prop where
  | inPath {bits : List Bool} {m l r : Handle} (len : bits.length < pathMax) (leads : e.follow ROOT bits = some m)
      (kind : (e.node m).kind = .internal l r) : e.Unfinished bits
  | inLiteral {path literal : List Bool} {n : Handle} (len : path.length ≤ pathMax) (leads : e.follow ROOT path = some n)
      (kind : (e.node n).kind = .nyt) (short : literal.length < 8) : e.Unfinished (path ++ literal)

/-- Bits that stop short on the path to a node lead to an internal node (40_tree R127). -/
theorem TreeShape.unfinished_path {e : Engine} (sh : TreeShape e) {h : Handle} (ht : e.InTree h) {bits missing : List Bool}
    (hp : bits ++ missing = e.pathTo h) (hm : missing ≠ []) : e.Unfinished bits := by
  have hf := (sh.follow_pathTo ht).1
  have hl := pathTo_length_le e h
  obtain ⟨x, xs, rfl⟩ := List.exists_cons_of_ne_nil hm
  rw [← hp, follow_append] at hf
  obtain ⟨m, hm, hx⟩ := Option.bind_eq_some_iff.1 hf
  cases hk : (e.node m).kind with
  | internal l r =>
    rw [← hp, List.length_append, List.length_cons] at hl
    exact .inPath (by omega) hm hk
  | free | leaf b | nyt => simp [Engine.follow, hk] at hx

/-- An attempt with bits missing at its end is unfinished. -/
theorem TreeShape.unfinished {e : Engine} (sh : TreeShape e) {bits missing : List Bool} (ha : e.Attempt (bits ++ missing))
    (hm : missing ≠ []) : e.Unfinished bits := by
  rcases ha with ⟨b, h, hb, hp⟩ | ⟨v, hp⟩
  · exact sh.unfinished_path (sh.leafIn hb) hp hm
  · have inLiteral : ∀ literal : List Bool, literal.length < 8 → e.Unfinished (e.pathTo e.nyth ++ literal) := fun _ =>
      .inLiteral (pathTo_length_le e _) (sh.follow_pathTo sh.nytIn).1 ((sh.nyt _).2 rfl)
    rcases List.append_eq_append_iff.1 hp with ⟨rest, hpath, -⟩ | ⟨literal, rfl, hlit⟩
    · by_cases hr : rest = []
      · rw [hr, List.append_nil] at hpath
        simpa [hpath] using inLiteral []
      · exact sh.unfinished_path sh.nytIn hpath.symm hr
    · have hlen := congrArg List.length hlit
      have hpos := List.length_pos_of_ne_nil hm
      rw [msbBits_length, List.length_append] at hlen
      exact inLiteral literal (by omega)

/-- `DEC` with a supply that ends inside the attempt uses it up, and the read that comes then decides how it ends: in the end of
input, in a fault, or in a wait (43_decoder R190, R192). -/
theorem execDec_unfinished {s : State} {bytes : List Byte} {rest : List SrcAnswer} {bits : List Bool} {last : Byte}
    (hf : s.eng.fault = none) (hw : (s.eng.node ROOT).weight ≠ wmax s.width) (h : Supply s bytes rest bits last)
    (hu : s.eng.Unfinished bits) :
    ∃ t bytes', Supply t bytes' rest [] last ∧ ReaderMoved s.ports.status s t ∧
      (∀ u, readBit t = .ok none u → execDec s = endOfInput s.eng.rcnt bits u) ∧
      (∀ c u, readBit t = .raised c u → execDec s = .next (raise c u)) ∧
      (∀ u, readBit t = .blocked u → execDec s = .next u) := by
  rw [execDec_clear hf hw]
  cases hu with
  | inPath len leads kind =>
    obtain ⟨t, bytes', hend, hraise, hwait, hs, hr, -⟩ := descend_stuck (q := []) h len leads kind
    exact ⟨t, bytes', hs, hr, fun u hu => by rw [hend u hu]; rfl, fun c u hu => by rw [hraise c u hu]; rfl,
      fun u hu => by rw [hwait u hu]; rfl⟩
  | @inLiteral path literal n len leads kind short =>
    obtain ⟨t, bytes', hd, hs, hr, -⟩ := descend_supply (q := []) h len leads (by simp [kind])
    obtain ⟨u, bytes'', hend, hraise, hwait, hs', hr', -⟩ := readLiteral_stuck (v := []) hs short
    rw [hr.status] at hr'
    simp only [hd, settle_ok, List.nil_append, decodeAt, hr.nodes n, kind, if_true]
    exact ⟨u, bytes'', hs', hr.trans hr', fun w hw => by rw [hend w hw]; rfl, fun c w hw => by rw [hraise c w hw]; rfl,
      fun w hw => by rw [hwait w hw]; rfl⟩

/-- A `DEC` with a source that falls silent inside the attempt waits, with every bit it was given consumed (20_memory R67). -/
theorem execDec_silent {s : State} {bytes : List Byte} {rest : List SrcAnswer} {bits : List Bool} {last : Byte}
    (hf : s.eng.fault = none) (hw : (s.eng.node ROOT).weight ≠ wmax s.width) (h : Supply s bytes (.never :: rest) bits last)
    (hu : s.eng.Unfinished bits) :
    execDec s = .next
      { s with
        eng := { s.eng with rbuf := last, rcnt := 0 }
        ports := { s.ports with source := rest, status := .waitingSource } } := by
  obtain ⟨t, bytes', hs, ⟨rbuf, rcnt, srcEof, source, rfl⟩, -, -, hwait⟩ := execDec_unfinished hf hw h hu
  obtain ⟨hread, rfl, hcnt⟩ := readBit_supply_never hs
  obtain rfl : srcEof = s.eng.srcEof := hs.srcEof.trans h.srcEof.symm
  obtain rfl : rbuf = last := hs.last
  obtain rfl : rcnt = 0 := hcnt
  exact hwait _ hread

/-! A sink that answers, and one that does not -/

theorem sinkOffer_ok {ev : SinkEvent} {s : State} {rest : List SnkAnswer} (h : s.ports.sinkAnswers = .ok :: rest) :
    sinkOffer ev s = .ok () { s with ports := { s.ports with sinkAnswers := rest, sink := s.ports.sink ++ [ev] } } := by
  simp [sinkOffer, h]

theorem sinkOffer_never {ev : SinkEvent} {s : State} {kept : Bool} {rest : List SnkAnswer}
    (h : s.ports.sinkAnswers = .never kept :: rest) :
    sinkOffer ev s = .blocked { s with ports := { s.ports with
      sinkAnswers := rest, status := .waitingSink, sink := s.ports.sink ++ (if kept then [ev] else []) } } := by
  cases kept <;> simp [sinkOffer, h, State.wait]

theorem closeWriter_pending {s : State} (h : 0 < s.eng.wcnt) :
    closeWriter s = (sinkOffer (.byte (s.eng.wbuf <<< (8 - s.eng.wcnt))) (s.withEng s.eng.clearWriter)).andThen fun _ t =>
      (sinkOffer .close t).andThen fun _ u => .ok (1, 8 - s.eng.wcnt) (u.withEng { u.eng with closed := true }) :=
  if_pos h

theorem closeWriter_empty {s : State} (h : s.eng.wcnt = 0) :
    closeWriter s = (sinkOffer .close s).andThen fun _ u => .ok (0, 0) (u.withEng { u.eng with closed := true }) :=
  if_neg (by omega)

/-- `CLOSE` waits when `Close()` does. -/
theorem execClose_waits {s t : State} (hf : s.eng.fault = none) (hc : s.eng.closed = false) (h : closeWriter s = .blocked t) :
    execClose s = .next t := by
  rw [execClose_clear hf hc, h, settle_blocked]

/-! The path an `ENC` records, and where a silent sink stops it -/

theorem overlay_get (p : List Bool) (cells : Vector Bool pathMax) (i : Fin pathMax) :
    (overlay p cells).get i = if h : i.val < p.length then p[i.val] else cells.get i := by
  simp only [overlay, Vector.get_eq_getElem, Vector.getElem_mk, List.getElem_toArray, List.getElem_take, List.getElem_append,
    List.getElem_drop, Vector.getElem_toList]
  split
  · rfl
  · congr 1; omega

/-- Recording a path leaves it in the path registers (10_state R31). -/
theorem recordPath_holdsPath (e : Engine) (p : List Bool) : HoldsPath p e (e.recordPath p) :=
  ⟨rfl, overlay_get p e.path⟩

theorem sinkBytes_offered (p : Ports) (v : Byte) (kept : Bool) :
    ({ p with sink := p.sink ++ (if kept then [.byte v] else []) } : Ports).sinkBytes =
      p.sinkBytes ++ (if kept then [v] else []) := by
  cases kept <;> simp [Ports.sinkBytes]

/-- `ENC` with a sink that falls silent after `k` bytes waits before it updates the tree (20_memory R69, 42_encoder R180). -/
theorem execEnc_silent {b : Byte} {s : State} {k : Nat} {kept : Bool} {rest : List SnkAnswer} (hf : s.eng.fault = none)
    (hc : s.eng.closed = false) (hw : (s.eng.node ROOT).weight ≠ wmax s.width) (hr : s.eng.wcnt ≤ 7)
    (hs : s.ports.sinkAnswers = List.replicate k .ok ++ .never kept :: rest)
    (hl : 8 * (k + 1) ≤ s.eng.wcnt + (s.eng.codeword b).length) :
    ∃ sink, execEnc b s = .next
        { s with
          eng := (encStart b s).eng.clearWriter
          ports := { s.ports with sinkAnswers := rest, sink := sink, status := .waitingSink } } ∧
      wireBits ({ s.ports with sink := sink } : Ports).sinkBytes =
        (s.written ++ s.eng.codeword b).take (8 * (s.ports.sinkBytes.length + k + if kept then 1 else 0)) := by
  obtain ⟨v, t, hm, hbuf, hcnt, hans, -, hfull, hoffered, hstop⟩ :=
    writeBits_stops (s := encStart b s) (xs := s.eng.codeword b) (a := .never kept) hr (by simp) hs hl
  obtain ⟨wbuf, wcnt, ans, sink, rfl⟩ := hm
  obtain rfl : wbuf = 0#8 := hbuf
  obtain rfl : wcnt = 0 := hcnt
  refine ⟨sink ++ if kept then [.byte v] else [], ?_, ?_⟩
  · rw [execEnc_clear hf hc hw, hstop, sinkOffer_never hans]
    rfl
  · refine (congrArg wireBits (sinkBytes_offered { s.ports with sink := sink } v kept)).trans ?_
    cases kept with
    | true => exact hoffered
    | false => exact (congrArg wireBits (List.append_nil _)).trans hfull

/-- Settles O12: `DEC` by the supply that ends inside its attempt, `CLOSE` by the answers to its one or two offers, `ENC` by the
byte at which writing its codeword stops. -/
theorem silentAgentsHoldTheCommand : Obligations.SilentAgentsHoldTheCommand := by
  refine ⟨?_, ?_, ?_, ?_, ?_, ?_⟩
  · intro s rest l r hf hw hroot hcnt heof hsrc
    have supply : Supply s [] (.never :: rest) [] s.eng.rbuf :=
      ⟨by omega, heof, hsrc, by simp [Engine.buffered, hcnt, wireBits], rfl⟩
    have unfinished : s.eng.Unfinished [] := by
      rcases hroot with hk | hk
      · exact .inPath (by decide) rfl hk
      · exact .inLiteral (path := []) (literal := []) (by decide) rfl hk (by decide)
    have hd := execDec_silent hf hw supply unfinished
    rw [← hcnt] at hd
    exact hd
  · intro s bytes rest done missing sh hf hw hcnt heof hsrc hdone hattempt hmissing
    exact execDec_silent hf hw ⟨hcnt, heof, hsrc, hdone, rfl⟩ (sh.unfinished hattempt hmissing)
  · intro s kept rest hf hc hpos hans
    refine execClose_waits hf hc ?_
    rw [closeWriter_pending hpos, sinkOffer_never (s := s.withEng s.eng.clearWriter) hans]
    rfl
  · intro s kept rest hf hc hpos hans
    refine execClose_waits hf hc ?_
    rw [closeWriter_pending hpos, sinkOffer_ok (s := s.withEng s.eng.clearWriter) hans, andThen_ok, sinkOffer_never rfl]
    rfl
  · intro s kept rest hf hc hz hans
    refine execClose_waits hf hc ?_
    rw [closeWriter_empty hz, sinkOffer_never hans]
    rfl
  · intro b s k kept rest hf hc hw hr hans hl
    obtain ⟨sink, hx, hbits⟩ := execEnc_silent hf hc hw hr hans hl
    have path := recordPath_holdsPath s.eng (s.eng.pathTo (s.eng.codeNode b))
    exact ⟨_, hx, rfl, ⟨path.pathlen, path.cells⟩, rfl, hbits⟩

end Sys2Proof.Machine
end

section
/-! The command words (30_encoding): a word is a command exactly when its three fields are that command's (R90 to R96), and what
the assembler writes (R105, R106). -/

namespace Sys2Proof

/-! A word by its fields -/

/-- Two words with the same three fields are the same word (30_encoding R90). -/
theorem word_eq_iff_fields (w v : Word) :
    w = v ↔ rsvField w = rsvField v ∧ symField w = symField v ∧ opcField w = opcField v where
  mp h := h ▸ ⟨rfl, rfl, rfl⟩
  mpr := fun ⟨hr, hs, ho⟩ => by rw [word_fields w, word_fields v, hr, hs, ho]

theorem rsvField_and (w v : Word) : rsvField (w &&& v) = rsvField w &&& rsvField v := BitVec.extractLsb'_and
theorem symField_and (w v : Word) : symField (w &&& v) = symField w &&& symField v := BitVec.extractLsb'_and
theorem opcField_and (w v : Word) : opcField (w &&& v) = opcField w &&& opcField v := BitVec.extractLsb'_and

/-! A command by its mnemonic and its symbol -/

theorem instr_of_mnemonic (i : Instr) : i.mnemonic.instr i.sym = i := by cases i <;> rfl

@[simp] theorem mnemonic_instr (m : Mnemonic) (b : Byte) : (m.instr b).mnemonic = m := by cases m <;> rfl

/-- A command keeps the byte it is written with if it takes one, and has symbol 0 otherwise (30_encoding R92). -/
theorem sym_instr (m : Mnemonic) (b : Byte) : (m.instr b).sym = if m.takesSymbol then b else 0#8 := by cases m <;> rfl

theorem sym_eq_zero {i : Instr} (h : i.mnemonic.takesSymbol = false) : i.sym = 0#8 := by
  rw [← instr_of_mnemonic i, sym_instr, h, if_neg Bool.false_ne_true]

/-! The decoder -/

theorem withoutSymbol_ok_iff {b : Byte} {i j : Instr} : withoutSymbol b j = .ok i ↔ b = 0#8 ∧ j = i := by
  unfold withoutSymbol
  split <;> simp [*]

/-- The opcode map on the fields (30_encoding R94): a command is found exactly under its own opcode and symbol. -/
theorem decodeFields_ok_iff {o : BitVec 4} {b : Byte} {i : Instr} :
    decodeFields o b = .ok i ↔ o = i.mnemonic.opc ∧ b = i.sym where
  mp h := by
    unfold decodeFields at h
    split at h
    case h_3 ho | h_6 ho | h_7 ho | h_8 ho => cases h; exact ⟨BitVec.eq_of_toNat_eq ho, rfl⟩
    case h_10 => cases h
    case h_1 ho | h_2 ho | h_4 ho | h_5 ho | h_9 ho =>
      obtain ⟨rfl, rfl⟩ := withoutSymbol_ok_iff.1 h
      exact ⟨BitVec.eq_of_toNat_eq ho, rfl⟩
  mpr := by
    rintro ⟨rfl, rfl⟩
    cases i <;> rfl

/-- A word decodes to a command exactly when its fields are that command's (30_encoding R91 to R95). -/
theorem decode_ok_iff_fields (w : Word) (i : Instr) :
    decode w = .ok i ↔ rsvField w = 0#20 ∧ symField w = i.sym ∧ opcField w = i.mnemonic.opc := by
  unfold decode
  split
  case isTrue hr => rw [decodeFields_ok_iff]; tauto
  case isFalse hr => simp [hr]

/-- The fields of a command's word (30_encoding R90). -/
theorem encode_fields (i : Instr) :
    rsvField (encode i) = 0#20 ∧ symField (encode i) = i.sym ∧ opcField (encode i) = i.mnemonic.opc :=
  fields_of_word 0#20 i.sym i.mnemonic.opc

/-- Settles O1: both sides say that the three fields of the word are those of the command. -/
theorem decodeExactlyInvertsEncode : Obligations.DecodeExactlyInvertsEncode := by
  intro w i
  obtain ⟨hr, hs, ho⟩ := encode_fields i
  rw [decode_ok_iff_fields, eq_comm (a := encode i), word_eq_iff_fields, hr, hs, ho]

/-! The opcode map -/

/-- The row of a mnemonic in the opcode map (30_encoding R94): `SYM` is masked out where a symbol is taken. -/
def Mnemonic.row (m : Mnemonic) : OpcodeRow :=
  ⟨m, encode (m.instr 0#8), if m.takesSymbol then 0xFFFFF00F#32 else 0xFFFFFFFF#32⟩

theorem opcodeTable_eq_rows : opcodeTable = Mnemonic.all.map Mnemonic.row := by decide

theorem mem_opcodeTable {r : OpcodeRow} : r ∈ opcodeTable ↔ ∃ m : Mnemonic, m.row = r := by
  have all : ∀ m : Mnemonic, m ∈ Mnemonic.all := by rintro ⟨⟩ <;> decide
  simp [opcodeTable_eq_rows, all]

theorem row_matchBits_fields (m : Mnemonic) :
    rsvField m.row.matchBits = 0#20 ∧ symField m.row.matchBits = 0#8 ∧ opcField m.row.matchBits = m.opc := by
  cases m <;> decide

theorem row_maskBits_fields (m : Mnemonic) :
    rsvField m.row.maskBits = BitVec.allOnes 20 ∧
    symField m.row.maskBits = (if m.takesSymbol then 0#8 else BitVec.allOnes 8) ∧
    opcField m.row.maskBits = BitVec.allOnes 4 := by
  cases m <;> decide

/-- A word matches a row when `RSV` is 0, `OPC` is the row's, and `SYM` is 0 unless the row takes a symbol (30_encoding R94). -/
theorem row_matches_iff (m : Mnemonic) (w : Word) : m.row.matches w = true ↔
    rsvField w = 0#20 ∧ (m.takesSymbol = false → symField w = 0#8) ∧ opcField w = m.opc := by
  obtain ⟨hr, hs, ho⟩ := row_matchBits_fields m
  obtain ⟨kr, ks, ko⟩ := row_maskBits_fields m
  rw [OpcodeRow.matches, beq_iff_eq, word_eq_iff_fields, rsvField_and, symField_and, opcField_and, hr, hs, ho, kr, ks, ko,
    BitVec.and_allOnes, BitVec.and_allOnes]
  cases m.takesSymbol with
  | false => rw [if_neg Bool.false_ne_true, BitVec.and_allOnes]; simp
  | true => simp

/-- Settles O2: a matching row says of the three fields what the command of that row says of them. -/
theorem decodeReadsTheOpcodeMap : Obligations.DecodeReadsTheOpcodeMap := by
  intro w i
  rw [decode_ok_iff_fields]
  constructor
  · rintro ⟨hr, hs, ho⟩
    refine ⟨i.mnemonic.row, mem_opcodeTable.2 ⟨_, rfl⟩, (row_matches_iff _ w).2 ⟨hr, ?_, ho⟩, ?_⟩
    · exact fun h => hs.trans (sym_eq_zero h)
    · rw [hs]; exact (instr_of_mnemonic i).symm
  · rintro ⟨r, hmem, hmatch, rfl⟩
    obtain ⟨m, rfl⟩ := mem_opcodeTable.1 hmem
    obtain ⟨hr, hs, ho⟩ := (row_matches_iff m w).1 hmatch
    refine ⟨hr, ?_, ho.trans (congrArg Mnemonic.opc (mnemonic_instr m _).symm)⟩
    show symField w = (m.instr (symField w)).sym
    rw [sym_instr]
    split
    case isTrue => rfl
    case isFalse h => exact hs (Bool.eq_false_iff.2 h)

/-- A word that matches no row is no command (30_encoding R95). -/
theorem decode_error_of_no_row {w : Word} (h : ∀ r ∈ opcodeTable, r.matches w = false) : ∃ e, decode w = .error e := by
  cases hd : decode w with
  | error e => exact ⟨e, rfl⟩
  | ok i =>
    obtain ⟨r, hmem, hmatch, -⟩ := (decodeReadsTheOpcodeMap w i).1 hd
    simp [h r hmem] at hmatch

/-- Settles O3: twelve closed words. -/
theorem sampleWordsDecode : Obligations.SampleWordsDecode := by
  unfold Obligations.SampleWordsDecode
  decide

/-! The assembler -/

theorem assemble_wellFormed {l : Line} (h : l.wellFormed = true) : l.assemble = some (l.commands.map encode) := if_pos h

/-- The word of a command that takes a symbol (30_encoding R105). -/
theorem encode_instr_symbol {m : Mnemonic} (h : m.takesSymbol = true) (b : Byte) :
    encode (m.instr b) = 0#20 ++ b ++ m.opc := by
  rw [encode, mnemonic_instr, sym_instr, if_pos h]

/-- The word of a command that takes none is its opcode (30_encoding R105). -/
theorem encode_instr_bare {m : Mnemonic} (h : m.takesSymbol = false) (b : Byte) : encode (m.instr b) = 0#28 ++ m.opc := by
  rw [encode, mnemonic_instr, sym_instr, h, if_neg Bool.false_ne_true]
  rfl

/-- Settles O5: a well-formed line gives the words of its commands, and each of these is its symbol over its opcode. -/
theorem assemblerWritesCommandWords : Obligations.AssemblerWritesCommandWords := by
  refine ⟨fun m o h => ?_, fun m h => ?_, fun bs h => ?_, fun text h => ?_, fun n => ?_⟩
  · obtain ⟨hm, -⟩ := Bool.and_eq_true_iff.1 h
    rw [assemble_wellFormed h, Line.commands, List.map_singleton, encode_instr_symbol hm, Operand.byte]
  · have hm : m.takesSymbol = false := by simpa [Line.wellFormed] using h
    rw [assemble_wellFormed h, Line.commands, List.map_singleton, encode_instr_bare hm]
  · rw [assemble_wellFormed h, Line.commands, List.map_map]
    rfl
  · rw [assemble_wellFormed h, Line.commands, List.map_map]
    rfl
  · rw [assemble_wellFormed rfl, Line.commands, List.map_replicate]
    rfl

end Sys2Proof
end

section
/-! The response words (30_encoding R97, R98): their fields, an answer or a wait for every command, and the refusal of a word that
is no command (R95). -/

namespace Sys2Proof.Machine

/-- Settles O4: `LEN` is the one field that can lose bits, and 9 of them hold a number below 512. -/
theorem responseWordFields : Obligations.ResponseWordFields := by
  intro code data len lit hlen
  obtain ⟨hcode, hdata, hl, hlit, hzero⟩ := responseWord_fields code data len lit
  exact ⟨hcode, hdata, by rw [hl, BitVec.toNat_ofNat, Nat.mod_eq_of_lt hlen], hlit, hzero⟩

/-- No status code is one of the reserved numbers (30_encoding R98). -/
theorem code_bits_not_reserved (c : Code) : c.bits ≠ 0x6#4 ∧ c.bits ≠ 0x7#4 ∧ c.bits ≠ 0xE#4 ∧ c.bits ≠ 0xF#4 := by
  cases c with
  | fault f => cases f <;> decide
  | ok | eos | errIllegal | errFaulted | errClosed | errNosym => decide

/-! A command answers or waits -/

/-- How a command that started in `s` leaves the response port: one answer, given in a state where nothing had been given yet and
no agent was waited for; or a wait, with nothing given (30_encoding R97, 20_memory R67, R69). -/
inductive AnswersOrWaits (s : State) : State → Prop where
  | answers {u : State} (code : Code) (data : Byte) (len : Nat) (lit : Bool)
      (status : u.ports.status = s.ports.status) (responses : u.ports.responses = s.ports.responses) :
      AnswersOrWaits s (respond code data len lit u)
  | waits {t : State} (status : t.ports.status ≠ .idle) (responses : t.ports.responses = s.ports.responses)
      (lastrsp : t.eng.lastrsp = s.eng.lastrsp) : AnswersOrWaits s t

theorem WriterMoved.responses {st : PortStatus} {s t : State} (h : WriterMoved st s t) :
    t.ports.responses = s.ports.responses := by
  obtain ⟨_, _, _, _, rfl⟩ := h; rfl

theorem ReaderMoved.responses {st : PortStatus} {s t : State} (h : ReaderMoved st s t) :
    t.ports.responses = s.ports.responses := by
  obtain ⟨_, _, _, _, rfl⟩ := h; rfl

theorem WriterMoved.lastrsp {st : PortStatus} {s t : State} (h : WriterMoved st s t) : t.eng.lastrsp = s.eng.lastrsp := by
  obtain ⟨_, _, _, _, rfl⟩ := h; rfl

theorem ReaderMoved.lastrsp {st : PortStatus} {s t : State} (h : ReaderMoved st s t) : t.eng.lastrsp = s.eng.lastrsp := by
  obtain ⟨_, _, _, _, rfl⟩ := h; rfl

theorem execUpd_answersOrWaits (b : Byte) (s : State) : ∃ t, execUpd b s = .next t ∧ AnswersOrWaits s t := by
  rcases execUpd_cases b s with h | h | ⟨e, h, -⟩ | ⟨e, h, -⟩ <;> exact ⟨_, h, .answers _ _ _ _ rfl rfl⟩

theorem execClose_answersOrWaits (s : State) : ∃ t, execClose s = .next t ∧ AnswersOrWaits s t := by
  rcases execClose_cases s with h | h | ⟨d, len, t, h, hm, -⟩ | ⟨t, h, hm⟩ | ⟨t, h, hm⟩
  · exact ⟨_, h, .answers _ _ _ _ rfl rfl⟩
  · exact ⟨_, h, .answers _ _ _ _ rfl rfl⟩
  · exact ⟨_, h, .answers _ _ _ _ hm.status hm.responses⟩
  · exact ⟨_, h, .answers _ _ _ _ hm.status hm.responses⟩
  · exact ⟨_, h, .waits (by simp [hm.status]) hm.responses hm.lastrsp⟩

theorem execEnc_answersOrWaits (b : Byte) (s : State) : ∃ t, execEnc b s = .next t ∧ AnswersOrWaits s t := by
  rcases execEnc_cases b s with h | h | h | ⟨t, h, -, hm⟩ | ⟨t, h, -, hm⟩ | ⟨t, e, -, hm, -, -, ⟨-, h⟩ | ⟨-, h⟩⟩
  · exact ⟨_, h, .answers _ _ _ _ rfl rfl⟩
  · exact ⟨_, h, .answers _ _ _ _ rfl rfl⟩
  · exact ⟨_, h, .answers _ _ _ _ rfl rfl⟩
  · exact ⟨_, h, .answers _ _ _ _ hm.status hm.responses⟩
  · exact ⟨_, h, .waits (by simp [hm.status]) hm.responses hm.lastrsp⟩
  · exact ⟨_, h, .answers _ _ _ _ hm.status hm.responses⟩
  · exact ⟨_, h, .answers _ _ _ _ hm.status hm.responses⟩

theorem execDec_answersOrWaits (s : State) : ∃ t, execDec s = .next t ∧ AnswersOrWaits s t := by
  rcases execDec_cases s with h | h | ⟨t, h, hm, -⟩ | ⟨c, t, h, hm, -⟩ | ⟨len, t, h, hm, -⟩ |
    ⟨t, sym, q, len, lit, e, hm, -, -, -, -, ⟨-, h⟩ | ⟨-, h⟩⟩
  · exact ⟨_, h, .answers _ _ _ _ rfl rfl⟩
  · exact ⟨_, h, .answers _ _ _ _ rfl rfl⟩
  · exact ⟨_, h, .waits (by simp [hm.status]) hm.responses hm.lastrsp⟩
  all_goals exact ⟨_, h, .answers _ _ _ _ hm.status hm.responses⟩

/-- Every command gives one answer, or waits (30_encoding R97). -/
theorem exec_answersOrWaits (i : Instr) (s : State) : ∃ t, exec i s = .next t ∧ AnswersOrWaits s t := by
  cases i with
  | nop => exact ⟨_, rfl, .answers _ _ _ _ rfl rfl⟩
  | init => exact ⟨_, rfl, .answers _ _ _ _ rfl rfl⟩
  | enc b => exact execEnc_answersOrWaits b s
  | dec => exact execDec_answersOrWaits s
  | close => exact execClose_answersOrWaits s
  | upd b => exact execUpd_answersOrWaits b s
  | contains b => rcases execContains_cases b s with h | ⟨d, h⟩ <;> exact ⟨_, h, .answers _ _ _ _ rfl rfl⟩
  | pathsym b => rcases execPathsym_cases b s with h | h | ⟨n, h⟩ <;> exact ⟨_, h, .answers _ _ _ _ rfl rfl⟩
  | pathnyt => rcases execPathnyt_cases s with h | h <;> exact ⟨_, h, .answers _ _ _ _ rfl rfl⟩

/-- Settles O13: an answer is a response word, whose fields are its code and zeros at the top. -/
theorem everyCommandAnswersOrWaits : Obligations.EveryCommandAnswersOrWaits := by
  intro i s idle
  obtain ⟨t, hx, ht⟩ := exec_answersOrWaits i s
  refine ⟨t, hx, ?_⟩
  cases ht with
  | answers code data len lit status responses =>
    obtain ⟨hcode, -, -, -, hzero⟩ := responseWord_fields code data len lit
    refine .inr ⟨status.trans idle, congrArg (· ++ _) responses, hzero, ?_⟩
    rw [State.code, respond_lastrsp, hcode]
    exact code_bits_not_reserved code
  | waits status responses lastrsp => exact .inl ⟨status, responses, lastrsp⟩

/-! A word that is no command -/

theorem runCommand_error {w : Word} {e : Illegal} (h : decode w = .error e) (s : State) :
    runCommand w s = .next (reject .errIllegal s) := by
  unfold runCommand; rw [h]

theorem hostAction_command_idle {s : State} (h : s.ports.status = .idle) (w : Word) (t : State) :
    hostAction (.command w) s t = runCommand w t := if_pos h

/-- Settles O10: such a word decodes to an error, and its refusal writes the code 0x2 to LASTRSP and to the response port. -/
theorem stepRefusesIllegalWords : Obligations.StepRefusesIllegalWords := by
  intro s w rest idle hh hrows
  obtain ⟨e, he⟩ := decode_error_of_no_row hrows
  have word : responseWord .errIllegal 0#8 0 false = 2#32 := responseWord_bare .errIllegal
  rw [step_cons hh, hostAction_command_idle idle, runCommand_error he, reject, respond, word]
  rfl

end Sys2Proof.Machine
end

section
/-! The sibling property (40_tree R137 to R139): `UpdateTree` keeps it and runs to its end, every step keeps it, and what it says
of a tree in the spec's own words. -/

namespace Sys2Proof.Machine

open Sys2Proof.Config

/-! `UpdateTree` keeps the weights in order -/

/-- From where `UpdateTree` starts, the walk ends well, with the weights in order. After a split the new leaf takes one round more,
which swaps nothing. -/
theorem walk_from_walkStart {e : Engine} (sh : TreeShape e) (wo : WeightOrder e) (b : Byte) {k : Nat} (hk : 514 ≤ k) :
    ∃ f, Engine.walk k (e.walkStart b).1 (e.walkStart b).2 = .done f ∧ TreeShape f ∧ WeightOrder f := by
  have s : SameTree e { e with swapcnt := 0 } := ⟨rfl, rfl, rfl, rfl, rfl⟩
  rcases walkStart_cases e b with ⟨hb, hw⟩ | ⟨n, hb, hw⟩ <;> rw [hw]
  · obtain ⟨k, rfl⟩ : ∃ j, k = j + 1 := ⟨k - 1, by omega⟩
    obtain ⟨hc, inv, hroot, hp⟩ := walkInv_split (s.shape sh) (s.weights wo) hb
    obtain ⟨y, l, hl, g⟩ := (s.shape sh).grown hb
    have hlin : ({ e with swapcnt := 0 }.split b).1.InTree ({ e with swapcnt := 0 }.split b).2 :=
      (g.inTree _).2 (.inr (.inr hl))
    rw [walk_succ_done (rebalance_none hc), if_neg hroot, (increment_sameLinks hlin).parent, hp]
    exact inv.walk (Nat.zero_le _) (by omega)
  · exact (walkInv_leaf (s.shape sh) (s.weights wo) hb).walk (Nat.zero_le _) (by omega)

/-- `UpdateTree` runs to its end and leaves a tree with its weights in order. -/
theorem WeightOrder.updateTree {e : Engine} (wo : WeightOrder e) (sh : TreeShape e) (b : Byte) :
    ∃ f, e.updateTree b = .done f ∧ TreeShape f ∧ WeightOrder f :=
  walk_from_walkStart sh wo b (by decide)

/-- Settles O58: the walk starts where the invariant of its rounds holds, and the rank of its node bounds rounds and swaps. -/
theorem updateTreeNeverEndsInInternalFault : Obligations.UpdateTreeNeverEndsInInternalFault := by
  intro e b sh wo
  obtain ⟨f, hf, -⟩ := wo.updateTree sh b
  exact ⟨f, hf⟩

/-- An update adds 1 to the root (40_tree R139). -/
theorem TreeShape.updateTree_root {e f : Engine} (sh : TreeShape e) {b : Byte} (h : e.updateTree b = .done f) :
    (f.node ROOT).weight = (e.node ROOT).weight + 1 := by
  obtain ⟨sh', hl⟩ := sh.walkStart b
  obtain ⟨hroot, -⟩ := sh'.walk_counts (sh'.leafIn hl) h
  rw [hroot, sh.walkStart_weight b sh.rootIn]

/-! Every step keeps the invariant -/

/-- The invariant reads the width and the registers. -/
theorem Inv.congr {s t : State} (iv : Inv s) (he : t.eng = s.eng) (hw : t.width = s.width) : Inv t :=
  ⟨he ▸ iv.regs, he ▸ iv.shape, he ▸ iv.weights, he ▸ hw ▸ iv.room⟩

/-- The weights of the tree are in order, and the root has at most the weight `W` allows. -/
def Engine.Weighed (w : WeightWidth) (e : Engine) : Prop := WeightOrder e ∧ (e.node ROOT).weight ≤ wmax w

theorem SameTree.weighed {w : WeightWidth} {e f : Engine} (s : SameTree e f) (h : e.Weighed w) : f.Weighed w :=
  ⟨s.weights h.1, by rw [node_congr s.nodes]; exact h.2⟩

theorem reset_weighed (w : WeightWidth) : Engine.reset.Weighed w :=
  let iv := resetMeetsTheInvariant w
  ⟨iv.weights, iv.room⟩

/-- With room in the root's weight, the one that an update adds fits (40_tree R139). -/
theorem updateTree_weighed {w : WeightWidth} {e : Engine} (sh : TreeShape e) (h : e.Weighed w)
    (hr : (e.node ROOT).weight ≠ wmax w) (b : Byte) : (e.updateTree b).eng.Weighed w := by
  obtain ⟨f, hf, -, wo⟩ := h.1.updateTree sh b
  rw [hf]
  refine ⟨wo, ?_⟩
  show (f.node ROOT).weight ≤ _
  rw [sh.updateTree_root hf]
  exact Nat.lt_of_le_of_ne h.2 hr

/-- Every command keeps the weights in order and within the width. -/
theorem exec_weighed {i : Instr} {s t : State} (h : exec i s = .next t) (iv : Inv s) : t.eng.Weighed t.width := by
  have ws : s.eng.Weighed s.width := ⟨iv.weights, iv.room⟩
  obtain ⟨t', h', hw, same⟩ := exec_tree i s
  cases h'.symm.trans h
  rw [hw]
  rcases same with same | same | ⟨b, e, se, hr, same⟩
  · exact same.weighed ws
  · exact same.weighed (reset_weighed _)
  · exact same.weighed (updateTree_weighed (se.shape iv.shape) (se.weighed ws) (by rwa [node_congr se.nodes]) b)

theorem exec_inv {i : Instr} {s t : State} (h : exec i s = .next t) (iv : Inv s) : Inv t :=
  have w := exec_weighed h iv
  ⟨exec_range h iv.regs, exec_shape h iv.shape, w.1, w.2⟩

/-- Settles O57: a step runs a command, which keeps the invariant, or leaves the tree alone, or puts the registers at their reset
values. -/
theorem stepKeepsTheSiblingProperty : Obligations.StepKeepsTheSiblingProperty := by
  intro s t iv h
  obtain ⟨t', h', hw, eng⟩ := step_cases s
  cases h'.symm.trans h
  rcases eng with eng | eng | ⟨v, eng⟩ | ⟨i, u, hu, hwu, hx⟩
  · exact iv.congr eng hw
  · exact (resetMeetsTheInvariant t.width).congr eng rfl
  · have iv' : Inv (s.withEng { s.eng with lastrsp := v }) :=
      have same : SameTree s.eng { s.eng with lastrsp := v } := ⟨rfl, rfl, rfl, rfl, rfl⟩
      have r := iv.regs
      ⟨⟨r.wcnt, r.wbuf, r.rcnt, r.pathlen, r.swapcnt⟩, same.shape iv.shape, same.weights iv.weights, iv.room⟩
    exact iv'.congr eng hw
  · exact exec_inv hx (iv.congr hu hwu)

/-! The sibling property in the spec's words -/

/-- A parent weighs at least what its child does (40_tree R137). -/
theorem WeightOrder.child_weight_le {e : Engine} (wo : WeightOrder e) (sh : TreeShape e) {h p : Handle}
    (hp : (e.node h).parent = some p) : (e.node h).weight ≤ (e.node p).weight := by
  obtain ⟨l, r, hk, hlr⟩ := sh.childOf h p hp
  have := wo.sums p l r hk
  rcases hlr with rfl | rfl <;> omega

/-- No slot weighs more than the root; one that is not in the tree weighs nothing. -/
theorem WeightOrder.weight_le_root {e : Engine} (wo : WeightOrder e) (sh : TreeShape e) (h : Handle) :
    (e.node h).weight ≤ (e.node ROOT).weight := by
  by_cases ht : e.InTree h
  · induction sh.rooted h ht with
    | root => exact Nat.le_refl _
    | child link _ ih => exact (wo.child_weight_le sh link).trans (ih (sh.linkIn link).1)
  · rw [sh.freeSlots h ht]
    exact Nat.zero_le _

/-- Weights before keys: the order of 40_tree R138 (e). -/
def Engine.Before (e : Engine) (a b : Handle) : Prop :=
  (e.node a).weight < (e.node b).weight ∨ ((e.node a).weight = (e.node b).weight ∧ (e.node a).key < (e.node b).key)

/-- In a tree with its weights in order, what stands before in weight stands before in key, siblings excepted. -/
theorem WeightOrder.key_le_of_before {e : Engine} (wo : WeightOrder e) {a b : Handle} (ha : e.InTree a) (hb : e.InTree b)
    (hs : ¬ e.Siblings a b) (h : e.Before a b) : (e.node a).key ≤ (e.node b).key := by
  by_contra hk
  have := wo.order a b ha hb hs (by omega)
  rcases h with h | ⟨-, h⟩ <;> omega

/-- No node stands between two siblings, in weight and then in key (40_tree R138 (e)). -/
theorem WeightOrder.none_between {e : Engine} (wo : WeightOrder e) (sh : TreeShape e) {a b x : Handle} (s : e.Siblings a b)
    (hx : e.InTree x) (hxa : x ≠ a) (hxb : x ≠ b) : ¬ (e.Before a x ∧ e.Before x b) := by
  rintro ⟨hax, hxb'⟩
  obtain ⟨p, pa, pb, -⟩ := sh.siblings_kind s
  have ia := (sh.linkIn pa).2
  have ib := (sh.linkIn pb).2
  have kax := wo.key_le_of_before ia hx (fun s' => hxb (sh.siblings_unique (siblings_symm s') (siblings_symm s))) hax
  have kxb := wo.key_le_of_before hx ib (fun s' => hxa (sh.siblings_unique s' s)) hxb'
  have nax : (e.node a).key ≠ (e.node x).key := fun h => hxa (sh.keysDistinct _ _ ia hx h).symm
  have nxb : (e.node x).key ≠ (e.node b).key := fun h => hxb (sh.keysDistinct _ _ hx ib h)
  exact wo.adjacent a b x s hx ⟨by omega, by omega⟩

/-- Settles O60: the bound from the root's, (a) to (d) from the shape and the weights, (e) from the keys of siblings. -/
theorem invariantGivesTheSiblingProperty : Obligations.InvariantGivesTheSiblingProperty := by
  rintro s ⟨-, sh, wo, room⟩
  refine ⟨fun h => (wo.weight_le_root sh h).trans room, fun a b ha hb hne hk => hne (sh.keysDistinct a b ha hb hk),
    fun p l r hk => ?_, wo.order, fun h ht => ⟨fun h0 => ?_, fun hn => hn ▸ wo.nytZero⟩,
    fun a b x hs hx hxa hxb => ⟨wo.adjacent a b x hs hx, wo.none_between sh hs hx hxa hxb⟩⟩
  · obtain ⟨-, -, -, pl, pr⟩ := sh.children p l r hk
    exact ⟨wo.parentKey sh pl, wo.parentKey sh pr⟩
  · by_contra hn
    exact (wo.positive sh ht hn).ne' h0

end Sys2Proof.Machine
end

section
/-! The procedures of `UpdateTree` one by one (40_tree R131 to R136): what `Split`, `Swap` and `LogSwap` write, and which node
`Candidate` names. -/

namespace Sys2Proof.Machine

open Sys2Proof.Config

/-! Split -/

/-- Settles O36: with fewer than 256 symbols the two new slots exist, and the old NYT's slot is another one. -/
theorem splitBuildsInternalNytAndLeaf : Obligations.SplitBuildsInternalNytAndLeaf := by
  intro e b hsym hnyt
  have val1 : (slot (2 * e.nsym + 1)).val = 2 * e.nsym + 1 := slot_val (by show _ < 513; omega)
  have val2 : (slot (2 * e.nsym + 2)).val = 2 * e.nsym + 2 := slot_val (by show _ < 513; omega)
  refine ⟨val2, fun y l hy hl => ?_, rfl, rfl, fun c hc => by rw [split_leafOf, if_neg hc], ⟨rfl, rfl⟩, ⟨rfl, rfl⟩,
    ⟨rfl, rfl, rfl⟩, ⟨rfl, rfl, rfl⟩, rfl, rfl⟩
  have ey : slot (2 * e.nsym + 1) = y := Fin.ext (val1.trans hy.symm)
  have el : slot (2 * e.nsym + 2) = l := Fin.ext (val2.trans hl.symm)
  have iy : e.nyth ≠ y := fun h => by rw [h] at hnyt; omega
  have il : e.nyth ≠ l := fun h => by rw [h] at hnyt; omega
  have yl : y ≠ l := fun h => by rw [h] at hy; omega
  have node := split_node e b
  rw [ey, el] at node
  refine ⟨?_, ?_, ?_, fun h hi hny hnl => ?_, ey, ?_⟩
  · rw [node, if_neg il, if_neg iy, if_pos rfl]
  · rw [node, if_neg yl, if_pos rfl]
  · rw [node, if_pos rfl]
  · rw [node, if_neg hnl, if_neg hny, if_neg hi]
  · rw [split_leafOf, if_pos rfl, el]

/-! Candidate -/

/-- Settles O37: what the loop of `Candidate` found is eligible, and no eligible slot has a larger key; a larger key than the
node's own rules the node itself out. -/
theorem candidateHasLargestKey : Obligations.CandidateHasLargestKey := by
  intro e n qualifies
  have qualifies_eligible : ∀ x, qualifies x → e.eligible n x (e.node x) = true := by
    rintro x ⟨hx, hw, hk, hr, hs, ha⟩
    exact (eligible_iff e n x).2 ⟨hx, hw, fun h => by rw [h] at hk; exact Nat.lt_irrefl _ hk, hr, hs, ha⟩
  refine ⟨fun m hm => ?_, fun hc x hx => ?_⟩
  · obtain ⟨he, hk, largest⟩ := candidate_some hm
    obtain ⟨hin, hw, -, hr, hs, ha⟩ := (eligible_iff e n m).1 he
    exact ⟨⟨hin, hw, hk, hr, hs, ha⟩, fun x hx => largest x (qualifies_eligible x hx)⟩
  · exact absurd (candidate_none hc x (qualifies_eligible x hx)) (Nat.not_le.2 hx.2.2.1)

/-! Swap -/

/-- The slots after a `Swap` of two nodes that are neither each other nor either one's parent (40_tree R134). -/
theorem swap_node {e : Engine} {n m pn pm : Handle} (hn : (e.node n).parent = some pn) (hm : (e.node m).parent = some pm)
    (hs : e.swappable n m = true) (npn : n ≠ pn) (npm : n ≠ pm) (mpn : m ≠ pn) (mpm : m ≠ pm) (pp : pn ≠ pm) :
    ∃ f, e.swap n m = some f ∧ f = { e with nodes := f.nodes } ∧ ∀ h, f.node h =
      if h = m then { e.node m with parent := some pn, key := (e.node n).key }
      else if h = n then { e.node n with parent := some pm, key := (e.node m).key }
      else if h = pm then (e.node pm).replaceChild m n
      else if h = pn then (e.node pn).replaceChild n m
      else e.node h := by
  unfold Engine.swap
  simp only [hn, hm, hs, if_true]
  refine ⟨_, rfl, rfl, fun h => ?_⟩
  simp only [node_setNode, if_neg npn, if_neg npm, if_neg mpn, if_neg mpm, if_neg pp.symm]

/-- `Swap` of nodes with parents is allowed exactly when the spec's precondition holds (40_tree R134). -/
theorem swappable_iff_of_parents {e : Engine} {n m pn pm : Handle} (hn : (e.node n).parent = some pn)
    (hm : (e.node m).parent = some pm) :
    e.swappable n m = true ↔ n ≠ ROOT ∧ m ≠ ROOT ∧ m ∉ e.ancestors n ∧ n ∉ e.ancestors m ∧ pn ≠ pm := by
  simp [Engine.swappable, hn, hm, and_assoc]

/-- Settles O38: in a tree neither node is its own parent, and one that is the other's is excluded with the ancestors. -/
theorem swapExchangesPositionsAndKeys : Obligations.SwapExchangesPositionsAndKeys := by
  intro e n m pn pm sh hn hm
  rw [← swappable_iff_of_parents hn hm]
  refine ⟨fun hs => ?_, fun hs => ?_⟩
  · obtain ⟨-, -, hmn, hnm, pp⟩ := (swappable_iff_of_parents hn hm).1 hs
    rw [sh.mem_ancestors (sh.linkIn hn).2] at hmn
    rw [sh.mem_ancestors (sh.linkIn hm).2] at hnm
    have npn : n ≠ pn := (sh.parent_ne hn).symm
    have mpm : m ≠ pm := (sh.parent_ne hm).symm
    have npm : n ≠ pm := fun h => hnm (.parent (h ▸ hm))
    have mpn : m ≠ pn := fun h => hmn (.parent (h ▸ hn))
    have nm : n ≠ m := fun h => pp (Option.some.inj (by rw [← hn, ← hm, h]))
    obtain ⟨f, hf, frame, node⟩ := swap_node hn hm hs npn npm mpn mpm pp
    refine ⟨f, hf, ?_, ?_, ?_, ?_, fun h h1 h2 h3 h4 => ?_, frame⟩
    · rw [node, if_neg nm, if_pos rfl]
    · rw [node, if_pos rfl]
    · rw [node, if_neg mpn.symm, if_neg npn.symm, if_neg pp, if_pos rfl]
    · rw [node, if_neg mpm.symm, if_neg npm.symm, if_pos rfl]
    · rw [node, if_neg h2, if_neg h1, if_neg h4, if_neg h3]
  · rcases swap_cases e n m with h | ⟨_, _, _, -, -, -, h, -⟩
    · exact h
    · exact absurd h hs

/-! LogSwap -/

/-- Settles O39: below 512 the entry goes to the cell `SWAPCNT` and to no other; at 512 there is no cell. -/
theorem swapLogAppends : Obligations.SwapLogAppends := by
  intro e n m
  refine ⟨fun i hi => ?_, fun hc => ?_⟩
  · have hlt : e.swapcnt < swaplogN := hi ▸ i.isLt
    refine ⟨_, dif_pos hlt, rfl, ?_, fun j hj => ?_, rfl⟩
    · rw [Vector.get_eq_getElem, Vector.getElem_set, if_pos hi.symm]
    · have hne : e.swapcnt ≠ j.val := fun h => hj (Fin.ext (h.symm.trans hi.symm))
      rw [Vector.get_eq_getElem, Vector.getElem_set, if_neg hne]
      rfl
  · exact dif_neg (by rw [hc]; exact Nat.lt_irrefl _)

end Sys2Proof.Machine
end

section
/-! Paths, and `UpdateTree` as a whole (40_tree R128, R139 to R143): how long a path is, what an update counts, what it depends on,
and the command `UPD` that runs it. -/

namespace Sys2Proof.Machine

open Sys2Proof.Config

/-- Settles O40: no node is deeper than there are symbols, so 256 links are as good a climb as 513. -/
theorem pathsFitThePathBuffer : Obligations.PathsFitThePathBuffer := by
  intro e h sh ht
  obtain ⟨d, hd⟩ := sh.depth ht
  have hd256 : d ≤ 256 := (sh.depth_le_nsym hd).trans sh.nsym_le
  have hup : (e.pathTo h).length = d := by
    unfold Engine.pathTo
    rw [pathUp_length, climb_length sh.rootTop hd hd256]
    rfl
  have hall : (e.ancestors h).length = d := climb_length sh.rootTop hd (hd256.trans (by decide))
  exact ⟨pathTo_length_le e h, hup.trans hall.symm, fun hr => (sh.mem_ancestors ht).2 (sh.root_above ht hr)⟩

/-! What an update counts -/

/-- The leaf the walk starts at weighs what it weighed, or 0 when it is new (40_tree R131). -/
theorem walkStart_leaf_weight (e : Engine) (b : Byte) :
    ((e.walkStart b).1.node (e.walkStart b).2).weight = (e.leafOf b).elim 0 fun h => (e.node h).weight := by
  rcases walkStart_cases e b with ⟨hb, h⟩ | ⟨n, hb, h⟩ <;> rw [h, hb]
  · exact congrArg Node.weight ((split_node _ b _).trans (if_pos rfl))
  · rfl

/-- Settles O41: the walk counts the root and the leaf it starts at, and a split gives no old node another weight. -/
theorem updateCountsTheByte : Obligations.UpdateCountsTheByte := by
  intro e f b sh h
  obtain ⟨sh', hl⟩ := sh.walkStart b
  obtain ⟨-, lookup, leaf⟩ := sh'.walk_counts (sh'.leafIn hl) h
  have leafOf : ∀ c, f.leafOf c = (e.walkStart b).1.leafOf c := fun c => by unfold Engine.leafOf; rw [lookup]
  refine ⟨sh.updateTree_root h, ⟨(e.walkStart b).2, (leafOf b).trans hl, ?_⟩, fun c x hc hx => ?_⟩
  · obtain ⟨kind, weight⟩ := leaf _ b ((sh'.leaves _ _).1 hl)
    refine ⟨kind, ?_⟩
    rw [weight, if_pos rfl, walkStart_leaf_weight]
    cases e.leafOf b <;> rfl
  · have hx' := (walkStart_kept e b).leaf c x hx
    have hne : x ≠ (e.walkStart b).2 := by
      intro hn
      have hb := (sh'.leaves b x).1 (hn ▸ hl)
      rw [(sh'.leaves c x).1 hx'] at hb
      exact hc (Kind.leaf.inj hb)
    obtain ⟨kind, weight⟩ := leaf x c ((sh'.leaves c x).1 hx')
    exact ⟨(leafOf c).trans hx', kind, by rw [weight, if_neg hne, sh.walkStart_weight b (sh.leafIn hx)]; rfl⟩

/-! What an update depends on -/

/-- The registers outside the tree and the swap log stay (40_tree R140). -/
theorem TreeMoved.frame {e f : Engine} (h : TreeMoved e f) :
    SamePath e f ∧ SameWriter e f ∧ SameReader e f ∧ f.fault = e.fault ∧ f.lastrsp = e.lastrsp := by
  obtain ⟨_, _, _, _, _, _, _, rfl⟩ := h
  exact ⟨⟨rfl, rfl⟩, ⟨rfl, rfl, rfl⟩, ⟨rfl, rfl, rfl⟩, rfl, rfl⟩

/-- Settles O42: both walks start at one node of one tree with an empty log, and read the tree only. -/
theorem updateDependsOnlyOnTheTree : Obligations.UpdateDependsOnlyOnTheTree := by
  intro e f e' b s h
  obtain ⟨hn, s', ce, cf, -, -⟩ := s.walkStart b
  have logged : SameLogged (e.walkStart b).1 (f.walkStart b).1 :=
    ⟨cf.trans ce.symm, fun i hi => by rw [ce] at hi; exact absurd hi (Nat.not_lt_zero _)⟩
  obtain ⟨f', hf, same, ⟨cnt, log⟩, -⟩ := s'.walk logged h
  rw [← hn] at hf
  have moved := updateTree_moved f b
  rw [show f.updateTree b = .done f' from hf] at moved
  exact ⟨f', hf, same, cnt, log, moved.frame⟩

/-! UPD -/

theorem updateTree_done {b : Byte} {s : State} {e : Engine} (h : s.eng.updateTree b = .done e) :
    updateTree b s = .ok () (s.withEng e) := by
  unfold updateTree; rw [h]

theorem updateTree_internal {b : Byte} {s : State} {e : Engine} (h : s.eng.updateTree b = .internal e) :
    updateTree b s = .raised .internal (s.withEng e) := by
  unfold updateTree; rw [h]

/-- `UPD` on an engine that is not faulted and has room (40_tree R143). -/
theorem exec_upd_clear {b : Byte} {s : State} (hf : s.eng.fault = none) (hw : (s.eng.node ROOT).weight ≠ wmax s.width) :
    exec (.upd b) s = (updateTree b s).settle fun _ t => .next (respond .ok b 0 (!s.eng.contains b) t) :=
  (prologue_clear hf _).trans (checkRoom_room hw _)

/-- Settles O43: the two ends of `UpdateTree` are the two ends of the command. -/
theorem updUpdatesTheTree : Obligations.UpdUpdatesTheTree := by
  intro b s e hf hw
  rw [exec_upd_clear hf hw]
  refine ⟨fun hu => ?_, fun hu => ?_⟩
  · have lit : (!s.eng.contains b) = (s.eng.leafOf b).isNone := by simp [Engine.contains]
    rw [updateTree_done hu, settle_ok, lit]
    exact ⟨_, rfl, rfl, rfl, rfl⟩
  · have word : responseWord (.fault .internal) 0#8 0 false = 0xD#32 := responseWord_bare (.fault .internal)
    rw [updateTree_internal hu, settle_raised, ← word]
    exact ⟨_, rfl, rfl, rfl, rfl⟩

end Sys2Proof.Machine
end

section
/-! The bit streams (41_bitstream): what one `WriteBit` and one `ReadBit` do (R160 to R162, R165 to R167), `Close` on a sink that
takes everything and on one that fails (R163, R164), the way back from the sink's bytes to the bits written (R168), and what the
commands leave alone (R169). -/

namespace Sys2Proof.Machine

/-! The agents' answers -/

theorem sinkOffer_err {ev : SinkEvent} {s : State} {rest : List SnkAnswer} (h : s.ports.sinkAnswers = .err :: rest) :
    sinkOffer ev s = .raised .snkIo { s with ports := { s.ports with sinkAnswers := rest } } := by
  simp [sinkOffer, h]

theorem srcRead_byte {v : Byte} {s : State} {rest : List SrcAnswer} (h : s.ports.source = .byte v :: rest) :
    srcRead s = .ok (.byte v) { s with ports := { s.ports with source := rest } } := by
  simp [srcRead, h]

theorem srcRead_eof {s : State} {rest : List SrcAnswer} (h : s.ports.source = .eof :: rest) :
    srcRead s = .ok .eof { s with ports := { s.ports with source := rest } } := by
  simp [srcRead, h]

theorem srcRead_err {s : State} {rest : List SrcAnswer} (h : s.ports.source = .err :: rest) :
    srcRead s = .ok .err { s with ports := { s.ports with source := rest } } := by
  simp [srcRead, h]

/-! `WriteBit` -/

theorem writeBit_packs {x : Bool} {s : State} (h : s.eng.wcnt ≠ 7) :
    writeBit x s = .ok () (s.withEng { s.eng with wbuf := shiftIn s.eng.wbuf x, wcnt := s.eng.wcnt + 1 }) :=
  if_neg h

theorem writeBit_offers {x : Bool} {s : State} (h : s.eng.wcnt = 7) :
    writeBit x s = sinkOffer (.byte (shiftIn s.eng.wbuf x)) (s.withEng s.eng.clearWriter) :=
  if_pos h

/-- Settles O29: below seven pending bits the buffer takes the bit; at seven the sink's answer decides, with the buffer empty. -/
theorem writeBitPacksAndOffers : Obligations.WriteBitPacksAndOffers := by
  intro x s
  refine ⟨writeBit_packs, fun rest h7 hans => ?_, fun rest h7 hans => ?_⟩
  · rw [writeBit_offers h7, sinkOffer_ok (s := s.withEng s.eng.clearWriter) hans]
    rfl
  · rw [writeBit_offers h7, sinkOffer_err (s := s.withEng s.eng.clearWriter) hans]
    rfl

/-- Settles O30: bit by bit, the buffer in range takes it or the accepting sink takes the full byte. -/
theorem writerKeepsTheBitStream : Obligations.WriterKeepsTheBitStream := by
  intro xs s regs accepts
  obtain ⟨t, hw, written, accepts', hcnt, -, bytes⟩ := writeBits_accepts (xs := xs) regs.wcnt accepts
  exact ⟨t, hw, written, by omega, accepts', hcnt, bytes⟩

/-! `ReadBit` -/

theorem readBit_buffered {s : State} (h : s.eng.rcnt ≠ 0) : readBit s = serveBit s := if_neg h

theorem readBit_latched {s : State} (h : s.eng.rcnt = 0) (he : s.eng.srcEof = true) : readBit s = .ok none s :=
  (if_pos h).trans (if_pos he)

/-- An empty buffer before the end makes `ReadBit` ask the source (41_bitstream R165). -/
theorem readBit_asks {s : State} (h : s.eng.rcnt = 0) (he : s.eng.srcEof = false) :
    readBit s = (srcRead s).andThen fun r t =>
      match r with
      | .err => .raised .srcIo t
      | .eof => .ok none (t.withEng { t.eng with srcEof := true })
      | .byte v => serveBit (t.withEng { t.eng with rbuf := v, rcnt := 8 }) :=
  (if_pos h).trans (if_neg (by simp [he]))

/-- Settles O31: a buffered bit and a latched end need no source; else the source's answer decides. -/
theorem readBitServesAndFetches : Obligations.ReadBitServesAndFetches := by
  intro s
  refine ⟨readBit_buffered, readBit_latched, fun v rest h0 he hsrc => ?_, fun rest h0 he hsrc => ?_, fun rest h0 he hsrc => ?_⟩
  · rw [readBit_asks h0 he, srcRead_byte hsrc]
    rfl
  · rw [readBit_asks h0 he, srcRead_eof hsrc]
    rfl
  · rw [readBit_asks h0 he, srcRead_err hsrc]
    rfl

/-! `Close` on a sink that takes everything -/

theorem sinkBytes_close (p : Ports) : ({ p with sink := p.sink ++ [.close] } : Ports).sinkBytes = p.sinkBytes := by
  simp [Ports.sinkBytes]

theorem sinkBytes_byte_close (p : Ports) (v : Byte) :
    ({ p with sink := p.sink ++ [.byte v] ++ [.close] } : Ports).sinkBytes = p.sinkBytes ++ [v] := by
  simp [Ports.sinkBytes]

/-- With nothing pending, an accepting sink is told that the stream ends, and gets no byte (41_bitstream R163). -/
theorem closeWriter_accepts_empty {s : State} (h0 : s.eng.wcnt = 0) (h : s.SinkAccepts) :
    ∃ ans, closeWriter s = .ok (0, 0)
      { s with
        eng := { s.eng with wcnt := 0, closed := true }
        ports := { s.ports with sinkAnswers := ans, sink := s.ports.sink ++ [.close] } } := by
  obtain ⟨ans, ho, -⟩ := sinkOffer_accepts (ev := .close) h
  refine ⟨ans, ?_⟩
  rw [closeWriter_empty h0, ho, ← h0]
  rfl

/-- With bits pending, an accepting sink gets them, padded with 0 bits to a byte, before it is told (41_bitstream R163). -/
theorem closeWriter_accepts_pending {s : State} (h0 : 0 < s.eng.wcnt) (h : s.SinkAccepts) :
    ∃ ans, closeWriter s = .ok (1, 8 - s.eng.wcnt)
      { s with
        eng := { s.eng with wbuf := 0#8, wcnt := 0, closed := true }
        ports := { s.ports with
          sinkAnswers := ans
          sink := s.ports.sink ++ [.byte (s.eng.wbuf <<< (8 - s.eng.wcnt))] ++ [.close] } } := by
  obtain ⟨ans, ho, accepts⟩ :=
    sinkOffer_accepts (ev := .byte (s.eng.wbuf <<< (8 - s.eng.wcnt))) (s := s.withEng s.eng.clearWriter) h
  obtain ⟨ans', ho', -⟩ := sinkOffer_accepts (ev := .close)
    (s := { s with
      eng := s.eng.clearWriter
      ports := { s.ports with
        sinkAnswers := ans
        sink := s.ports.sink ++ [.byte (s.eng.wbuf <<< (8 - s.eng.wcnt))] } }) accepts
  refine ⟨ans', ?_⟩
  rw [closeWriter_pending h0, ho, andThen_ok]
  exact congrArg (Res.andThen · _) ho'

/-- The pending bits are those of the padded byte, but for the padding (41_bitstream R163). -/
theorem written_padded {s : State} (h0 : 0 < s.eng.wcnt) (h7 : s.eng.wcnt ≤ 7) :
    wireBits (s.ports.sinkBytes ++ [s.eng.wbuf <<< (8 - s.eng.wcnt)]) =
      s.written ++ List.replicate ((8 - s.eng.wcnt) % 8) false := by
  have byte : wireBits [s.eng.wbuf <<< (8 - s.eng.wcnt)] = s.eng.pending ++ List.replicate (8 - s.eng.wcnt) false := by
    rw [wireBits_cons, msbBits_eq, lowBits_shiftLeft (k := s.eng.wcnt) _ (by omega)]
    exact List.append_nil _
  rw [wireBits_append, byte, ← List.append_assoc, Nat.mod_eq_of_lt (by omega : 8 - s.eng.wcnt < 8)]
  rfl

/-- `Close` on an accepting sink: what it returns, the registers it leaves, the padded stream, and the last thing the sink is
told (41_bitstream R163). -/
theorem closeWriter_accepts {s : State} (h7 : s.eng.wcnt ≤ 7) (h : s.SinkAccepts) :
    ∃ wbuf ans sink, closeWriter s = .ok (if s.eng.wcnt = 0 then 0 else 1, (8 - s.eng.wcnt) % 8)
        { s with
          eng := { s.eng with wbuf := wbuf, wcnt := 0, closed := true }
          ports := { s.ports with sinkAnswers := ans, sink := sink } } ∧
      (s.eng.wbuf.toNat < 2 ^ s.eng.wcnt → wbuf = 0#8) ∧
      wireBits ({ s.ports with sinkAnswers := ans, sink := sink } : Ports).sinkBytes =
        s.written ++ List.replicate ((8 - s.eng.wcnt) % 8) false ∧
      sink.getLast? = some .close := by
  rcases Nat.eq_zero_or_pos s.eng.wcnt with h0 | h0
  · obtain ⟨ans, hc⟩ := closeWriter_accepts_empty h0 h
    have pad : (8 - s.eng.wcnt) % 8 = 0 := by rw [h0]
    have written : s.written = wireBits s.ports.sinkBytes := by
      rw [State.written, Engine.pending, h0, lowBits_zero, List.append_nil]
    refine ⟨s.eng.wbuf, ans, s.ports.sink ++ [.close], ?_, fun hbuf => ?_, ?_, List.getLast?_concat⟩
    · rw [hc, if_pos h0, pad]
    · rw [h0] at hbuf
      exact BitVec.eq_of_toNat_eq (by simpa using hbuf)
    · refine (congrArg wireBits (sinkBytes_close s.ports)).trans ?_
      rw [written, pad, List.replicate_zero, List.append_nil]
  · obtain ⟨ans, hc⟩ := closeWriter_accepts_pending h0 h
    refine ⟨0#8, ans, s.ports.sink ++ [.byte (s.eng.wbuf <<< (8 - s.eng.wcnt))] ++ [.close], ?_, fun _ => rfl, ?_,
      List.getLast?_concat⟩
    · rw [hc, if_neg (by omega), Nat.mod_eq_of_lt (by omega : 8 - s.eng.wcnt < 8)]
    · exact (congrArg wireBits (sinkBytes_byte_close s.ports _)).trans (written_padded h0 h7)

/-- Settles O33: the command answers with what `Close` returns, and adds only LASTRSP to what `Close` leaves. -/
theorem closeFlushesAndCloses : Obligations.CloseFlushesAndCloses := by
  intro s hf hc regs accepts
  obtain ⟨wbuf, ans, sink, hw, hbuf, stream, last⟩ := closeWriter_accepts regs.wcnt accepts
  obtain rfl := hbuf regs.wbuf
  have data : BitVec.ofNat 8 (if s.eng.wcnt = 0 then 0 else 1) = if s.eng.wcnt = 0 then 0#8 else 1#8 :=
    apply_ite (BitVec.ofNat 8) _ 0 1
  have hx := execClose_clear hf hc
  rw [hw, settle_ok, data] at hx
  exact ⟨_, hx, rfl, rfl, stream, last, rfl, rfl, rfl⟩

/-- Settles O32: the sink's bytes are the bits written and the padding, and reading takes them in order, up to the End behind
them. -/
theorem readerReturnsWhatTheWriterWrote : Obligations.ReaderReturnsWhatTheWriterWrote := by
  intro xs s u v d r h0 hsink accepts hw hc d0 deof dsrc
  obtain ⟨u', hw', written, accepts', hcnt, -⟩ := writeBits_accepts (xs := xs) (by omega : s.eng.wcnt ≤ 7) accepts
  cases hw'.symm.trans hw
  obtain ⟨wbuf, ans, sink, hc', -, stream, -⟩ := closeWriter_accepts (by omega : u.eng.wcnt ≤ 7) accepts'
  cases hc'.symm.trans hc
  have start : s.written = [] := by simp [State.written, Ports.sinkBytes, hsink, wireBits, Engine.pending, h0]
  rw [written, start, List.nil_append] at stream
  have supply : Supply d ({ u.ports with sinkAnswers := ans, sink := sink } : Ports).sinkBytes [.eof]
      ((xs ++ List.replicate ((8 - u.eng.wcnt) % 8) false) ++ []) _ :=
    ⟨by omega, deof, dsrc, by rw [Engine.buffered, d0, lowBits_zero, List.nil_append, stream, List.append_nil], rfl⟩
  obtain ⟨d1, bytes, hread, supply', -⟩ := readLiteral_supply (v := []) supply
  obtain ⟨hend, -⟩ := readBit_supply_eof supply' (.inr rfl)
  rw [List.length_append, List.length_replicate, List.nil_append] at hread
  exact ⟨d1, _, hread, hend, by rw [hcnt, h0, Nat.zero_add]⟩

/-! `Close` on a sink that fails -/

/-- A sink that fails at the padded byte or at the close ends `Close` in FAULT_SNK_IO, with nothing pending and `CLOSED` as it
was (41_bitstream R163). -/
theorem closeWriter_fails {s : State} {rest : List SnkAnswer}
    (h : s.ports.sinkAnswers = .err :: rest ∨ (0 < s.eng.wcnt ∧ s.ports.sinkAnswers = .ok :: .err :: rest)) :
    ∃ t, closeWriter s = .raised .snkIo t ∧ WriterMoved s.ports.status s t ∧ t.eng.closed = s.eng.closed ∧ t.eng.wcnt = 0 ∧
      (0 < s.eng.wcnt → t.eng.wbuf = 0#8) := by
  rcases Nat.eq_zero_or_pos s.eng.wcnt with h0 | h0
  · have hans := h.resolve_right fun hp => absurd hp.1 (by omega)
    rw [closeWriter_empty h0, sinkOffer_err hans]
    exact ⟨_, rfl, ⟨_, _, _, _, rfl⟩, rfl, h0, fun hp => absurd hp (by omega)⟩
  · rw [closeWriter_pending h0]
    rcases h with hans | ⟨-, hans⟩
    · rw [sinkOffer_err (s := s.withEng s.eng.clearWriter) hans]
      exact ⟨_, rfl, ⟨_, _, _, _, rfl⟩, rfl, rfl, fun _ => rfl⟩
    · rw [sinkOffer_ok (s := s.withEng s.eng.clearWriter) hans, andThen_ok, sinkOffer_err rfl]
      exact ⟨_, rfl, ⟨_, _, _, _, rfl⟩, rfl, rfl, fun _ => rfl⟩

/-- Settles O34: the command raises the fault `Close` ends in, and only the writer and the sink have moved. -/
theorem closeReportsSinkFailure : Obligations.CloseReportsSinkFailure := by
  intro s rest hf hc hans
  obtain ⟨t, hw, ⟨_, _, _, _, rfl⟩, closed, cnt, buf⟩ := closeWriter_fails hans
  have hx := execClose_clear hf hc
  rw [hw, settle_raised] at hx
  exact ⟨_, hx, rfl, closed.trans hc, rfl, responseWord_bare (.fault .snkIo), buf, cnt, ⟨rfl, rfl, rfl, rfl, rfl⟩,
    ⟨rfl, rfl, rfl⟩, ⟨rfl, rfl⟩⟩

/-! What the commands leave alone -/

/-- `UpdateTree` moves the tree and the swap log only, however it ends. -/
theorem TreeMoved.of_updateTree {e : Engine} {b : Byte} {r : TreeRes} (h : e.updateTree b = r) : TreeMoved e r.eng :=
  h ▸ updateTree_moved e b

/-- `DEC` leaves the writer and the sink alone (43_decoder R190). -/
theorem execDec_frame {s t : State} (h : execDec s = .next t) :
    SameWriter s.eng t.eng ∧ t.ports.sink = s.ports.sink ∧ t.ports.sinkAnswers = s.ports.sinkAnswers := by
  rcases execDec_cases s with h' | h' | ⟨u, h', ⟨_, _, _, _, rfl⟩, -⟩ | ⟨c, u, h', ⟨_, _, _, _, rfl⟩, -⟩ |
    ⟨len, u, h', ⟨_, _, _, _, rfl⟩, -⟩ |
    ⟨u, sym, q, len, lit, e, ⟨_, _, _, _, rfl⟩, -, -, -, -, ⟨hu, h'⟩ | ⟨hu, h'⟩⟩ <;> cases h'.symm.trans h
  iterate 5 exact ⟨⟨rfl, rfl, rfl⟩, rfl, rfl⟩
  all_goals
    obtain ⟨-, ⟨wbuf, wcnt, closed⟩, -⟩ := (TreeMoved.of_updateTree hu).frame
    exact ⟨⟨wbuf, wcnt, closed⟩, rfl, rfl⟩

/-- `ENC` leaves the reader, `CLOSED` and the source alone (42_encoder R180). -/
theorem execEnc_frame {b : Byte} {s t : State} (h : execEnc b s = .next t) :
    SameReader s.eng t.eng ∧ t.eng.closed = s.eng.closed ∧ t.ports.source = s.ports.source := by
  rcases execEnc_cases b s with h' | h' | h' | ⟨u, h', -, ⟨_, _, _, _, rfl⟩⟩ | ⟨u, h', -, ⟨_, _, _, _, rfl⟩⟩ |
    ⟨u, e, -, ⟨_, _, _, _, rfl⟩, -, -, ⟨hu, h'⟩ | ⟨hu, h'⟩⟩ <;> cases h'.symm.trans h
  iterate 5 exact ⟨⟨rfl, rfl, rfl⟩, rfl, rfl⟩
  all_goals
    obtain ⟨-, writer, ⟨rbuf, rcnt, srcEof⟩, -⟩ := (TreeMoved.of_updateTree hu).frame
    exact ⟨⟨rbuf, rcnt, srcEof⟩, writer.closed, rfl⟩

/-- `UPD` leaves both streams and the path alone (40_tree R143). -/
theorem execUpd_frame {b : Byte} {s t : State} (h : execUpd b s = .next t) :
    SameReader s.eng t.eng ∧ SameWriter s.eng t.eng ∧ SamePath s.eng t.eng ∧ t.ports.source = s.ports.source ∧
      t.ports.sink = s.ports.sink := by
  rcases execUpd_cases b s with h' | h' | ⟨e, h', hu, -⟩ | ⟨e, h', hu, -⟩ <;> cases h'.symm.trans h
  iterate 2 exact ⟨⟨rfl, rfl, rfl⟩, ⟨rfl, rfl, rfl⟩, ⟨rfl, rfl⟩, rfl, rfl⟩
  all_goals
    obtain ⟨⟨len, path⟩, ⟨wbuf, wcnt, closed⟩, ⟨rbuf, rcnt, srcEof⟩, -⟩ := (TreeMoved.of_updateTree hu).frame
    exact ⟨⟨rbuf, rcnt, srcEof⟩, ⟨wbuf, wcnt, closed⟩, ⟨len, path⟩, rfl, rfl⟩

/-- `CLOSE` leaves the reader, the source, the tree, the path and the swap log alone (41_bitstream R163, R164). -/
theorem execClose_frame {s t : State} (h : execClose s = .next t) :
    SameReader s.eng t.eng ∧ SameTree s.eng t.eng ∧ SamePath s.eng t.eng ∧ SameSwapLog s.eng t.eng ∧
      t.ports.source = s.ports.source := by
  rcases execClose_cases s with h' | h' | ⟨d, len, u, h', ⟨_, _, _, _, rfl⟩, -⟩ | ⟨u, h', ⟨_, _, _, _, rfl⟩⟩ |
    ⟨u, h', ⟨_, _, _, _, rfl⟩⟩ <;> cases h'.symm.trans h
  all_goals exact ⟨⟨rfl, rfl, rfl⟩, ⟨rfl, rfl, rfl, rfl, rfl⟩, ⟨rfl, rfl⟩, ⟨rfl, rfl⟩, rfl⟩

/-- Settles O35: command by command, over the ways each can end. -/
theorem streamsAreIndependent : Obligations.StreamsAreIndependent :=
  fun _ _ => ⟨execDec_frame, fun _ => execEnc_frame, fun _ => execUpd_frame, execClose_frame⟩

end Sys2Proof.Machine
end

section
/-! The encoder (42_encoder): what `ENC` writes and which tree it leaves (R180, R181), what a failing sink leaves (R183), the
bounds on its bits and bytes (R181, R283), the first `ENC` after reset (R182), and the commands a closed writer refuses (R184). -/

namespace Sys2Proof.Machine

open Sys2Proof.Config

/-! After a close -/

theorem execClose_closed {s : State} (hf : s.eng.fault = none) (hc : s.eng.closed = true) :
    execClose s = .next (reject .errClosed s) :=
  (prologue_clear hf _).trans (if_pos hc)

/-- A closed writer refuses `ENC` before the root's weight is looked at (60_exceptions R242). -/
theorem execEnc_closed {b : Byte} {s : State} (hf : s.eng.fault = none) (hc : s.eng.closed = true) :
    execEnc b s = .next (reject .errClosed s) :=
  (prologue_clear hf _).trans (if_pos hc)

/-- Settles O19: both commands look at CLOSED right after the prologue, and the refusal writes its code and nothing else. -/
theorem closedWriterRefuses : Obligations.ClosedWriterRefuses := by
  intro s i hf hc hi
  have refused : exec i s = .next (reject .errClosed s) := by
    rcases hi with rfl | ⟨b, rfl⟩
    · exact execClose_closed hf hc
    · exact execEnc_closed hf hc
  have word : responseWord .errClosed 0#8 0 false = 4#32 := responseWord_bare .errClosed
  rw [refused, reject, respond, word]
  rfl

/-! `ENC` that writes its whole codeword -/

/-- An update depends on the tree only, and leaves the same log on the same log (40_tree R140). -/
theorem SameTree.updateTree {e f e' : Engine} {b : Byte} (s : SameTree e f) (log : f.swaplog = e.swaplog)
    (h : e.updateTree b = .done e') : ∃ f', f.updateTree b = .done f' ∧ SameTree e' f' ∧ SameSwapLog e' f' := by
  obtain ⟨start, s', ce, cf, le, lf⟩ := s.walkStart b
  have logged : SameLogged (e.walkStart b).1 (f.walkStart b).1 :=
    ⟨cf.trans ce.symm, fun i hi => by rw [ce] at hi; exact absurd hi (Nat.not_lt_zero _)⟩
  obtain ⟨f', hf, same, ⟨cnt, -⟩, logs⟩ := s'.walk logged h
  rw [← start] at hf
  exact ⟨f', hf, same, cnt, (logs (by rw [le, lf, log])).symm⟩

theorem encStart_holdsPath (b : Byte) (s : State) :
    HoldsPath (s.eng.pathTo (s.eng.codeNode b)) s.eng (encStart b s).eng :=
  recordPath_holdsPath s.eng _

theorem WriterMoved.swaplog {st : PortStatus} {s t : State} (h : WriterMoved st s t) : t.eng.swaplog = s.eng.swaplog := by
  obtain ⟨_, _, _, _, rfl⟩ := h; rfl

/-- `ENC` once its bits are written, in `u`: the update of the tree before the command runs on `u`'s registers (42_encoder
R180). -/
theorem execEnc_done {b : Byte} {s u : State} {e : Engine} {st : PortStatus} (hf : s.eng.fault = none)
    (hc : s.eng.closed = false) (hw : (s.eng.node ROOT).weight ≠ wmax s.width)
    (hx : writeBits (s.eng.codeword b) (encStart b s) = .ok () u) (hm : WriterMoved st (encStart b s) u)
    (he : s.eng.updateTree b = .done e) :
    ∃ f, execEnc b s =
        .next (respond .ok b (s.eng.codeword b).length (s.eng.leafOf b).isNone (u.withEng f)) ∧
      SameTree e f ∧ SameSwapLog e f ∧ TreeMoved u.eng f := by
  have start : SameTree s.eng (encStart b s).eng := ⟨rfl, rfl, rfl, rfl, rfl⟩
  obtain ⟨f, hu, tree, log⟩ := (start.trans hm.sameTree).updateTree hm.swaplog he
  have lit : (!s.eng.contains b) = (s.eng.leafOf b).isNone := by simp [Engine.contains]
  refine ⟨f, ?_, tree, log, .of_updateTree hu⟩
  rw [execEnc_clear hf hc hw, hx, settle_ok, updateTree_done hu, settle_ok, lit]

/-- An update writes nothing to the stream. -/
theorem TreeMoved.written {s : State} {f : Engine} (h : TreeMoved s.eng f) : (s.withEng f).written = s.written := by
  obtain ⟨_, _, _, _, _, _, _, rfl⟩ := h; rfl

/-- Settles O45: an accepting sink lets the whole codeword be written, and the update leaves the stream and path registers
alone. -/
theorem encWritesTheCodewordAndUpdates : Obligations.EncWritesTheCodewordAndUpdates := by
  intro b s e hf hc hw regs accepts he
  obtain ⟨u, hx, written, -, cnt, ⟨wbuf, wcnt, ans, sink, rfl⟩, -⟩ :=
    writeBits_accepts (xs := s.eng.codeword b) (s := encStart b s) regs.wcnt accepts
  have path := encStart_holdsPath b s
  obtain ⟨f, ht, tree, log, moved⟩ := execEnc_done hf hc hw hx ⟨_, _, _, _, rfl⟩ he
  obtain ⟨⟨len, cells⟩, writer, reader, fault, -⟩ := moved.frame
  refine ⟨_, ht, rfl, rfl, ?_, ?_, ⟨tree.nodes, tree.nyth, tree.nsym, tree.keylast, tree.lookup⟩,
    ⟨log.swapcnt, log.swaplog⟩, ⟨len.trans path.pathlen, fun i => ?_⟩, ⟨reader.rbuf, reader.rcnt, reader.srcEof⟩,
    writer.closed.trans hc, fault.trans hf, rfl⟩
  · exact moved.written.trans written
  · have range : f.wcnt = _ % 8 := writer.wcnt.trans cnt
    show f.wcnt ≤ 7
    omega
  · exact (congrArg (Vector.get · i) cells).trans (path.cells i)

/-! `ENC` with a sink that fails -/

/-- A writer that fails ends `ENC` before the tree is updated (42_encoder R183). -/
theorem execEnc_raised {b : Byte} {s u : State} {c : FaultCode} (hf : s.eng.fault = none) (hc : s.eng.closed = false)
    (hw : (s.eng.node ROOT).weight ≠ wmax s.width)
    (hx : writeBits (s.eng.codeword b) (encStart b s) = .raised c u) : execEnc b s = .next (raise c u) := by
  rw [execEnc_clear hf hc hw, hx, settle_raised]

/-- The one fault of the writer, which leaves its buffer empty (41_bitstream R162). -/
theorem writeBits_raised {xs : List Bool} {s u : State} {c : FaultCode} (h : writeBits xs s = .raised c u) :
    c = .snkIo ∧ WriterMoved s.ports.status s u ∧ u.eng.wbuf = 0#8 ∧ u.eng.wcnt = 0 := by
  rcases writeBits_cases xs s with ⟨t, h', -⟩ | ⟨t, h', moved, empty⟩ | ⟨t, h', -⟩ <;> cases h'.symm.trans h
  exact ⟨rfl, moved, empty⟩

/-- Settles O46: the writer's fault ends the command with only the path recorded and the writer moved; with the sink's answers
given, the bits before the refused byte are those `k` accepted bytes hold. -/
theorem encReportsSinkFailure : Obligations.EncReportsSinkFailure := by
  have word : responseWord (.fault .snkIo) 0#8 0 false = 9#32 := responseWord_bare (.fault .snkIo)
  refine ⟨fun b s u c hf hc hw hx => ?_, fun b s k rest hf hc hw hr hans hl => ?_⟩
  · have path := encStart_holdsPath b s
    obtain ⟨rfl, ⟨_, _, _, _, rfl⟩, buf, cnt⟩ := writeBits_raised hx
    exact ⟨_, execEnc_raised hf hc hw hx, rfl, rfl, word, buf, cnt, rfl, ⟨rfl, rfl, rfl, rfl, rfl⟩, ⟨rfl, rfl⟩,
      ⟨path.pathlen, path.cells⟩, ⟨rfl, rfl, rfl⟩, hc⟩
  · have path := encStart_holdsPath b s
    obtain ⟨v, t, ⟨wbuf, wcnt, ans, sink, rfl⟩, buf, cnt, hans', bytes, bits, -, hstop⟩ :=
      writeBits_stops (s := encStart b s) (xs := s.eng.codeword b) (a := .err) hr (by simp) hans hl
    obtain rfl : wbuf = 0#8 := buf
    obtain rfl : wcnt = 0 := cnt
    have hx := execEnc_raised hf hc hw (hstop.trans (sinkOffer_err hans'))
    refine ⟨_, hx, rfl, ?_, ⟨path.pathlen, path.cells⟩, rfl, bytes, bits⟩
    rw [← word]
    rfl

/-! How much `ENC` writes -/

theorem escape_length_le (e : Engine) (b : Byte) : (e.escape b).length ≤ 8 := by
  unfold Engine.escape
  split
  · exact Nat.zero_le 8
  · exact Nat.le_refl 8

/-- A path of at most 256 bits and a literal of at most 8 (42_encoder R181). -/
theorem codeword_length_le (e : Engine) (b : Byte) : (e.codeword b).length ≤ 264 := by
  have hp : (e.pathTo (e.codeNode b)).length ≤ 256 := pathTo_length_le e _
  have he := escape_length_le e b
  rw [Engine.codeword, List.length_append]
  omega

/-- The bits that have come through the writer: 8 for each event of the sink, and those pending. A close counts as a byte does:
only the growth of this count is of use. -/
def State.bitCount (s : State) : Nat := 8 * s.ports.sink.length + s.eng.wcnt

/-- An offer, whatever is answered, is at most one more event of the sink. -/
theorem sinkOffer_bitCount (ev : SinkEvent) (s : State) : (sinkOffer ev s).Leaves fun t => t.bitCount ≤ s.bitCount + 8 := by
  unfold State.bitCount
  rcases sinkOffer_cases ev s with ⟨ans, h, -⟩ | ⟨ans, h, -⟩ | ⟨ans, kept, h, -⟩ <;> rw [h]
  · show 8 * (s.ports.sink ++ [ev]).length + s.eng.wcnt ≤ _
    rw [List.length_append, List.length_singleton]
    omega
  · exact Nat.le_add_right _ 8
  · show 8 * (if kept then s.ports.sink ++ [ev] else s.ports.sink).length + s.eng.wcnt ≤ _
    split
    · rw [List.length_append, List.length_singleton]
      omega
    · exact Nat.le_add_right _ 8

theorem Res.Leaves.mono {α : Type} {P Q : State → Prop} {r : Res α} (h : r.Leaves P) (hq : ∀ t, P t → Q t) : r.Leaves Q := by
  cases r <;> exact hq _ h

/-- A bit is pending, or it fills a byte whose other bits were pending. -/
theorem writeBit_bitCount (x : Bool) (s : State) : (writeBit x s).Leaves fun t => t.bitCount ≤ s.bitCount + 1 := by
  by_cases h7 : s.eng.wcnt = 7
  · rw [writeBit_offers h7]
    have emptied : (s.withEng s.eng.clearWriter).bitCount + 7 = s.bitCount := by
      unfold State.bitCount; rw [h7]; rfl
    exact (sinkOffer_bitCount _ _).mono fun t ht => by omega
  · rw [writeBit_packs h7]
    exact Nat.le_refl _

theorem writeBits_bitCount (xs : List Bool) (s : State) :
    (writeBits xs s).Leaves fun t => t.bitCount ≤ s.bitCount + xs.length := by
  induction xs generalizing s with
  | nil => exact Nat.le_refl _
  | cons x xs ih =>
    rw [List.length_cons]
    exact (writeBit_bitCount x s).andThen (fun t ht => by omega) fun _ t ht => (ih t).mono fun u hu => by omega

/-- However `ENC` ends, the sink has no more than its bytes of before and what the pending bits and the codeword's can fill. -/
theorem execEnc_sink_length {b : Byte} {s t : State} (h : execEnc b s = .next t) :
    8 * t.ports.sink.length ≤ s.bitCount + (s.eng.codeword b).length := by
  have hb := writeBits_bitCount (s.eng.codeword b) (encStart b s)
  have unwritten : 8 * s.ports.sink.length ≤ s.bitCount + (s.eng.codeword b).length :=
    (Nat.le_add_right _ _).trans (Nat.le_add_right _ _)
  rcases execEnc_cases b s with h' | h' | h' | ⟨u, h', hx, -⟩ | ⟨u, h', hx, -⟩ |
    ⟨u, e, hx, -, -, -, ⟨-, h'⟩ | ⟨-, h'⟩⟩ <;> cases h'.symm.trans h
  iterate 3 exact unwritten
  all_goals
    rw [hx] at hb
    exact (Nat.le_add_right _ _).trans hb

/-- Settles O48: at most 7 bits pending and a codeword of at most 264 fill at most 33 bytes. -/
theorem encBoundsItsTransactions : Obligations.EncBoundsItsTransactions := by
  intro b s t regs h
  have bits := codeword_length_le s.eng b
  have sink : _ ≤ 8 * s.ports.sink.length + s.eng.wcnt + _ := execEnc_sink_length h
  have pending := regs.wcnt
  exact ⟨bits, by omega⟩

/-! The first `ENC` after reset -/

/-- The root's path is empty (40_tree R127). -/
theorem pathTo_root {e : Engine} (h : (e.node ROOT).parent = none) : e.pathTo ROOT = [] := by
  show e.pathUp (255 + 1) ROOT [] = []
  rw [Engine.pathUp, h]

/-- After reset a byte is coded by its literal alone (42_encoder R182). -/
theorem reset_codeword (b : Byte) : Engine.reset.codeword b = msbBits b := by
  have node : Engine.reset.codeNode b = ROOT := by rw [Engine.codeNode, reset_leafOf]; rfl
  have literal : Engine.reset.escape b = msbBits b := if_neg (by simp [Engine.contains])
  rw [Engine.codeword, node, literal, pathTo_root (reset_parent ROOT), List.nil_append]

/-- Bits that fill the buffer exactly are offered as one byte (41_bitstream R160). -/
theorem writeBits_fills {xs : List Bool} {s : State} (h7 : s.eng.wcnt ≤ 7) (h : s.eng.wcnt + xs.length = 8) :
    writeBits xs s = sinkOffer (.byte (xs.foldl shiftIn s.eng.wbuf)) (s.withEng s.eng.clearWriter) := by
  induction xs generalizing s with
  | nil => rw [List.length_nil] at h; omega
  | cons x xs ih =>
    rw [List.length_cons] at h
    rw [writeBits]
    by_cases hc : s.eng.wcnt = 7
    · obtain rfl : xs = [] := List.eq_nil_of_length_eq_zero (by omega)
      rw [writeBit_offers hc, List.foldl_cons, List.foldl_nil]
      cases sinkOffer _ _ <;> rfl
    · rw [writeBit_packs hc, andThen_ok]
      exact ih (show s.eng.wcnt + 1 ≤ 7 by omega) (show s.eng.wcnt + 1 + xs.length = 8 by omega)

theorem sinkOffer_unscripted {ev : SinkEvent} {s : State} (h : s.ports.sinkAnswers = []) :
    sinkOffer ev s = .ok () { s with ports := { s.ports with sink := s.ports.sink ++ [ev] } } := by
  simp [sinkOffer, h]

/-- After reset the literal fills the empty buffer, and the sink, to which nothing is connected, takes the byte (42_encoder R182,
log entry 1). -/
theorem reset_writeBits (b : Byte) : ∃ u, writeBits (Engine.reset.codeword b) (encStart b State.reset) = .ok () u ∧
    WriterMoved .idle (encStart b State.reset) u ∧ u.ports.sink = [.byte b] ∧ u.eng.wcnt = 0 := by
  have byte : (msbBits b).foldl shiftIn (encStart b State.reset).eng.wbuf = b := byteOfBits_msbBits b
  rw [reset_codeword, writeBits_fills (Nat.zero_le 7) rfl, byte, sinkOffer_unscripted rfl]
  exact ⟨_, rfl, ⟨_, _, _, _, rfl⟩, rfl, rfl⟩

/-- The registers after reset and the update for the byte `b`: its leaf and the root above it are counted (40_tree R131, R135;
`reset_updateTree`). -/
def firstTree (b : Byte) : Engine := ((Engine.reset.split b).1.increment 2).increment ROOT

/-- The first update swaps nothing (40_tree R135). -/
theorem reset_updateTree (b : Byte) : Engine.reset.updateTree b = .done (firstTree b) := by
  obtain ⟨leafTop, inv, -, parent⟩ := walkInv_split reset_shape reset_weights (reset_leafOf b)
  have start : Engine.reset.walkStart b = Engine.reset.split b := by
    rcases walkStart_cases Engine.reset b with ⟨-, h⟩ | ⟨n, hn, -⟩
    · exact h
    · rw [reset_leafOf] at hn; cases hn
  have leaf : (Engine.reset.split b).2 = 2 := rfl
  rw [leaf] at leafTop inv parent
  have up : (((Engine.reset.split b).1.increment 2).node 2).parent = some ROOT := by
    rw [increment_node, if_pos rfl]; exact parent
  have rootTop : ((Engine.reset.split b).1.increment 2).candidate ROOT = none := by
    refine inv.settled ?_
    show (((Engine.reset.split b).1.increment 2).node 1).parent = some ROOT
    rw [increment_node, if_neg (by decide), split_node]
    rfl
  obtain ⟨k, hk⟩ : ∃ k, walkBound = k + 1 + 1 := ⟨walkBound - 2, by decide⟩
  rw [Engine.updateTree, start, leaf, hk, walk_succ_done (rebalance_none leafTop), if_neg (by decide), up]
  exact (walk_succ_done (rebalance_none rootTop)).trans (if_pos rfl)

/-- The slots in use after the first update (40_tree R131, R135). -/
theorem firstTree_nodes (b : Byte) :
    (firstTree b).node ROOT = { kind := .internal 1 2, weight := 1, key := 767, parent := none } ∧
    (firstTree b).node 1 = { kind := .nyt, weight := 0, key := 766, parent := some ROOT } ∧
    (firstTree b).node 2 = { kind := .leaf b, weight := 1, key := 765, parent := some ROOT } := by
  unfold firstTree
  refine ⟨?_, ?_, ?_⟩
  · rw [increment_node, if_pos rfl, increment_node, if_neg (by decide), split_node]
    rfl
  · rw [increment_node, if_neg (by decide), increment_node, if_neg (by decide), split_node]
    rfl
  · rw [increment_node, if_neg (by decide), increment_node, if_pos rfl, split_node]
    rfl

/-- Settles O47: the literal fills the empty buffer, the sink takes the byte, and the update is that of the tree after reset. -/
theorem firstEncodeCostsEightBits : Obligations.FirstEncodeCostsEightBits := by
  intro b
  have room : (Engine.reset.node ROOT).weight ≠ wmax conformingWidth := by rw [reset_node_root]; decide
  obtain ⟨u, hx, hm, sink, cnt⟩ := reset_writeBits b
  obtain ⟨f, ht, tree, -, moved⟩ := execEnc_done (s := State.reset) rfl rfl room hx hm (reset_updateTree b)
  obtain ⟨-, writer, -⟩ := moved.frame
  obtain ⟨root, nyt, leaf⟩ := firstTree_nodes b
  refine ⟨_, ht, ?_, sink, writer.wcnt.trans cnt, ?_, ?_, ?_⟩
  · show responseWord .ok b (Engine.reset.codeword b).length (Engine.reset.leafOf b).isNone = _
    rw [reset_codeword, reset_leafOf]
    rfl
  · exact (node_congr tree.nodes 0).trans root
  · exact (node_congr tree.nodes 1).trans nyt
  · exact (node_congr tree.nodes 2).trans leaf

end Sys2Proof.Machine
end

section
/-! The decoder (43_decoder): `DEC` on bits that begin with a codeword (R190 to R194), on a literal for a byte that has a leaf
(R193), and on bits that run out: at the end of the stream (R197, R198), in the padding (R199), inside a codeword (R196), and on a
source that fails (R200). -/

namespace Sys2Proof.Machine

open Sys2Proof.Config

/-! Where the descent ends -/

/-- `DEC` goes on at the node its descent reaches (43_decoder R190). -/
theorem execDec_reached {s t : State} {n : Handle} {q : List Bool} (hf : s.eng.fault = none)
    (hw : (s.eng.node ROOT).weight ≠ wmax s.width) (h : descend pathMax ROOT [] s = .ok (.reached n q) t) :
    execDec s = decodeAt s.eng.rcnt n q t := by
  rw [execDec_clear hf hw, h, settle_ok]

theorem decodeAt_leaf {r0 : Nat} {n : Handle} {q : List Bool} {s : State} {b : Byte} (h : (s.eng.node n).kind = .leaf b) :
    decodeAt r0 n q s = finishDecode b q q.length false s := by
  have sym : (s.eng.node n).sym = b := by rw [Node.sym, h]
  rw [decodeAt, if_neg (by simp [h]), sym]

/-- At the NYT, a whole literal either names a byte that has a leaf or is decoded (43_decoder R192, R193). -/
theorem decodeAt_literal {r0 : Nat} {n : Handle} {q : List Bool} {s t : State} {v : Byte} (h : (s.eng.node n).kind = .nyt)
    (hread : readLiteral 8 [] s = .ok { bits := msbBits v, complete := true } t) :
    decodeAt r0 n q s =
      if t.eng.contains v then .next (raise .duplit t) else finishDecode v q (q.length + 8) true t := by
  rw [decodeAt, if_pos h, hread, settle_ok, if_pos rfl, byteOfBits_msbBits, msbBits_length]

/-- `DEC` on a supply that begins with the path to a leaf (43_decoder R190, R191). -/
theorem execDec_leaf_supply {s : State} {bytes : List Byte} {rest : List SrcAnswer} {more : List Bool} {last b : Byte}
    {h : Handle} (sh : TreeShape s.eng) (hf : s.eng.fault = none) (hw : (s.eng.node ROOT).weight ≠ wmax s.width)
    (hb : s.eng.leafOf b = some h) (supply : Supply s bytes rest (s.eng.pathTo h ++ more) last) :
    ∃ t bytes', execDec s = finishDecode b (s.eng.pathTo h) (s.eng.pathTo h).length false t ∧
      Supply t bytes' rest more last ∧ ReaderMoved s.ports.status s t := by
  have leaf := (sh.leaves b h).1 hb
  obtain ⟨t, bytes', hd, supply', moved, -⟩ := descend_supply (q := []) supply (pathTo_length_le s.eng h)
    (sh.follow_pathTo (sh.leafIn hb)).1 (by simp [leaf])
  refine ⟨t, bytes', ?_, supply', moved⟩
  rw [execDec_reached hf hw hd, List.nil_append, decodeAt_leaf (by rw [moved.nodes, leaf])]

/-- `DEC` on a supply that begins with the path to the NYT and a literal (43_decoder R192, R193). -/
theorem execDec_literal_supply {s : State} {bytes : List Byte} {rest : List SrcAnswer} {more : List Bool} {last v : Byte}
    (sh : TreeShape s.eng) (hf : s.eng.fault = none) (hw : (s.eng.node ROOT).weight ≠ wmax s.width)
    (supply : Supply s bytes rest (s.eng.pathTo s.eng.nyth ++ msbBits v ++ more) last) :
    ∃ t bytes', (execDec s = if s.eng.contains v then .next (raise .duplit t)
          else finishDecode v (s.eng.pathTo s.eng.nyth) ((s.eng.pathTo s.eng.nyth).length + 8) true t) ∧
      Supply t bytes' rest more last ∧ ReaderMoved s.ports.status s t := by
  have nyt : (s.eng.node s.eng.nyth).kind = .nyt := (sh.nyt _).2 rfl
  rw [List.append_assoc] at supply
  obtain ⟨t, bytes', hd, supply', moved, -⟩ := descend_supply (q := []) supply (pathTo_length_le s.eng _)
    (sh.follow_pathTo sh.nytIn).1 (by simp [nyt])
  obtain ⟨u, bytes'', hl, supply'', moved', -⟩ := readLiteral_supply (v := []) supply'
  rw [moved.status] at moved'
  have moved'' := moved.trans moved'
  have same : u.eng.contains v = s.eng.contains v := by
    unfold Engine.contains Engine.leafOf; rw [moved''.sameTree.lookup]
  refine ⟨u, bytes'', ?_, supply'', moved''⟩
  rw [execDec_reached hf hw hd, List.nil_append, decodeAt_literal (by rw [moved.nodes, nyt]) hl, same]

/-! What is left of the supply -/

theorem Engine.rcnt_of_buffered {e : Engine} {bits : List Bool} (h : e.buffered = bits) : e.rcnt = bits.length := by
  rw [← h, Engine.buffered, lowBits_length]

/-- Fewer than 8 bits to come are in the buffer: no byte of the source is needed for them (41_bitstream R165). -/
theorem Supply.fetched {s : State} {bytes : List Byte} {rest : List SrcAnswer} {more : List Bool} {last : Byte}
    (h : Supply s bytes rest more last) (hm : more.length < 8) :
    bytes = [] ∧ s.eng.buffered = more ∧ s.ports.source = rest := by
  have len := congrArg List.length h.bits
  rw [List.length_append, wireBits_length] at len
  obtain rfl : bytes = [] := List.eq_nil_of_length_eq_zero (by omega)
  exact ⟨rfl, by simpa [wireBits] using h.bits, h.source⟩

/-- A used-up supply fixes the reader and the source. -/
theorem Supply.usedUp {s t : State} {bytes : List Byte} {rest : List SrcAnswer} {last : Byte} (h : Supply t bytes rest [] last)
    (moved : ReaderMoved s.ports.status s t) (heof : s.eng.srcEof = false) :
    t = { s with
      eng := { s.eng with rbuf := last, rcnt := 0 }
      ports := { s.ports with source := rest } } := by
  obtain ⟨rfl, empty, source⟩ := h.fetched (Nat.zero_lt_succ 7)
  have cnt := Engine.rcnt_of_buffered empty
  obtain ⟨rbuf, rcnt, srcEof, source', rfl⟩ := moved
  obtain rfl : srcEof = s.eng.srcEof := h.srcEof.trans heof.symm
  obtain rfl : rbuf = last := h.last
  obtain rfl : rcnt = 0 := cnt
  obtain rfl : source' = rest := source
  rfl

/-! A byte decoded -/

theorem ReaderMoved.swaplog {st : PortStatus} {s t : State} (h : ReaderMoved st s t) : t.eng.swaplog = s.eng.swaplog := by
  obtain ⟨_, _, _, _, rfl⟩ := h; rfl

/-- The last lines of `DEC`, in a `t` with the tree and the log of `s`: the update they run is that of `s` (43_decoder R194). -/
theorem execDec_decoded {b : Byte} {q : List Bool} {len : Nat} {lit : Bool} {s t : State} {e : Engine}
    (hx : execDec s = finishDecode b q len lit t) (same : SameTree s.eng t.eng) (swaplog : t.eng.swaplog = s.eng.swaplog)
    (he : s.eng.updateTree b = .done e) :
    ∃ f, execDec s = .next (respond .ok b len lit (t.withEng f)) ∧ SameTree e f ∧ SameSwapLog e f ∧
      HoldsPath q t.eng f ∧ SameWriter t.eng f ∧ SameReader t.eng f ∧ f.fault = t.eng.fault := by
  have path := recordPath_holdsPath t.eng q
  have start : SameTree s.eng (t.eng.recordPath q) := same.trans ⟨rfl, rfl, rfl, rfl, rfl⟩
  obtain ⟨f, hu, tree, log⟩ := start.updateTree swaplog he
  obtain ⟨⟨plen, cells⟩, ⟨wbuf, wcnt, closed⟩, ⟨rbuf, rcnt, srcEof⟩, fault, -⟩ := (TreeMoved.of_updateTree hu).frame
  refine ⟨f, ?_, tree, log, ⟨plen.trans path.pathlen, fun i => ?_⟩, ⟨wbuf, wcnt, closed⟩, ⟨rbuf, rcnt, srcEof⟩, fault⟩
  · rw [hx, finishDecode, updateTree_done (s := t.withEng (t.eng.recordPath q)) hu, settle_ok]
    rfl
  · exact (congrArg (Vector.get · i) cells).trans (path.cells i)

/-- `DEC` on a supply that begins with a byte's codeword: it ends as a decoded byte does, whether its leaf or its literal was read
(43_decoder R190 to R193). -/
theorem execDec_codeword_supply {s : State} {bytes : List Byte} {rest : List SrcAnswer} {more : List Bool} {last b : Byte}
    (sh : TreeShape s.eng) (hf : s.eng.fault = none) (hw : (s.eng.node ROOT).weight ≠ wmax s.width)
    (supply : Supply s bytes rest (s.eng.codeword b ++ more) last) :
    ∃ t bytes', execDec s =
        finishDecode b (s.eng.pathTo (s.eng.codeNode b)) (s.eng.codeword b).length (s.eng.leafOf b).isNone t ∧
      Supply t bytes' rest more last ∧ ReaderMoved s.ports.status s t := by
  cases hb : s.eng.leafOf b with
  | some h =>
    have node : s.eng.codeNode b = h := by rw [Engine.codeNode, hb]; rfl
    have word : s.eng.codeword b = s.eng.pathTo h := by simp [Engine.codeword, Engine.escape, Engine.contains, node, hb]
    rw [word] at supply
    rw [node, word]
    exact execDec_leaf_supply sh hf hw hb supply
  | none =>
    have node : s.eng.codeNode b = s.eng.nyth := by rw [Engine.codeNode, hb]; rfl
    have new : s.eng.contains b = false := by simp [Engine.contains, hb]
    have word : s.eng.codeword b = s.eng.pathTo s.eng.nyth ++ msbBits b := by
      simp [Engine.codeword, Engine.escape, node, new]
    rw [word] at supply
    rw [node, word, List.length_append, msbBits_length]
    obtain ⟨t, bytes', hx, left, moved⟩ := execDec_literal_supply sh hf hw supply
    exact ⟨t, bytes', hx.trans (if_neg (by simp [new])), left, moved⟩

/-- Settles O49: the bits supplied lead to the byte, what is left of them is in the buffer, and the update is that of the tree
before the command. -/
theorem decInvertsEnc : Obligations.DecInvertsEnc := by
  intro b s e bytes rest more sh hf hw hcnt heof hsrc hbits hmore he
  obtain ⟨t, bytes', hx, left, moved⟩ := execDec_codeword_supply sh hf hw ⟨hcnt, heof, hsrc, hbits, rfl⟩
  obtain ⟨-, buffered, source⟩ := left.fetched hmore
  obtain ⟨f, hdone, tree, log, path, writer, reader, fault⟩ := execDec_decoded hx moved.sameTree moved.swaplog he
  have still : f.buffered = more := by rw [Engine.buffered, reader.rbuf, reader.rcnt]; exact buffered
  have eof : f.srcEof = false := reader.srcEof.trans left.srcEof
  obtain ⟨_, _, _, source', rfl⟩ := moved
  obtain rfl : source' = rest := source
  exact ⟨_, hdone, rfl, rfl, still, eof, ⟨tree.nodes, tree.nyth, tree.nsym, tree.keylast, tree.lookup⟩,
    ⟨log.swapcnt, log.swaplog⟩, ⟨path.pathlen, path.cells⟩, ⟨writer.wbuf, writer.wcnt, writer.closed⟩, fault.trans hf, rfl⟩

/-- Settles O50: the literal is read whole, and the raise that follows adds FAULT and LASTRSP to what the reader has moved. -/
theorem decRefusesDuplicateLiteral : Obligations.DecRefusesDuplicateLiteral := by
  intro v s bytes rest more h sh hf hw hcnt heof hsrc hbits hmore hv
  obtain ⟨t, bytes', hx, left, moved⟩ := execDec_literal_supply sh hf hw ⟨hcnt, heof, hsrc, hbits, rfl⟩
  obtain ⟨-, buffered, source⟩ := left.fetched hmore
  have old : s.eng.contains v = true := by simp [Engine.contains, hv]
  rw [old, if_pos rfl] at hx
  obtain ⟨_, _, _, _, rfl⟩ := moved
  exact ⟨_, hx, rfl, responseWord_bare (.fault .duplit), rfl, buffered, source, ⟨rfl, rfl, rfl, rfl, rfl⟩, ⟨rfl, rfl⟩,
    ⟨rfl, rfl⟩, ⟨rfl, rfl, rfl⟩⟩

/-! Bits that run out inside the attempt -/

/-- Settles O53: the supply is used up inside the attempt, the source answers `End`, and a byte fetched or a 1 bit makes that a
truncation. -/
theorem decReportsTruncation : Obligations.DecReportsTruncation := by
  intro s bytes tail done missing sh hf hw hcnt heof hsrc htail hdone hattempt hmissing hcut
  obtain ⟨t, bytes', left, moved, hend, -⟩ :=
    execDec_unfinished hf hw ⟨hcnt, heof, hsrc, hdone, rfl⟩ (sh.unfinished hattempt hmissing)
  have hx := hend _ (readBit_supply_eof left htail).1
  have cut : ¬ (done.length = s.eng.rcnt ∧ done.all (!·) = true) := by
    rintro ⟨len, zeros⟩
    rcases hcut with fetched | one
    · rw [← hdone, List.length_append, wireBits_length, Engine.buffered, lowBits_length] at len
      have := List.length_pos_of_ne_nil fetched
      omega
    · simpa using List.all_eq_true.1 zeros true one
  have word : responseWord (.fault .trunc) 0#8 0 false = 0xA#32 := responseWord_bare (.fault .trunc)
  rw [endOfInput, if_neg cut, left.usedUp moved heof] at hx
  refine ⟨_, hx, rfl, ?_, rfl⟩
  rw [← word]
  rfl

/-- Settles O54: the supply is used up inside the attempt, and the read that meets the failure ends the command. -/
theorem decReportsSourceFailure : Obligations.DecReportsSourceFailure := by
  intro s bytes rest done missing sh hf hw hcnt heof hsrc hdone hattempt hmissing
  obtain ⟨t, bytes', left, moved, -, hraise, -⟩ :=
    execDec_unfinished hf hw ⟨hcnt, heof, hsrc, hdone, rfl⟩ (sh.unfinished hattempt hmissing)
  have hx := hraise _ _ (readBit_supply_err left).1
  have word : responseWord (.fault .srcIo) 0#8 0 false = 8#32 := responseWord_bare (.fault .srcIo)
  rw [left.usedUp moved heof] at hx
  refine ⟨_, hx, rfl, ?_, rfl⟩
  rw [← word]
  rfl

/-! Bits from the buffer alone -/

/-- The state with the last `k` bits of its buffer left to read. -/
def State.withBits (s : State) (k : Nat) : State := s.withEng { s.eng with rcnt := k }

theorem withBits_self {s : State} {bits : List Bool} (h : s.eng.buffered = bits) : s.withBits bits.length = s := by
  rw [State.withBits, ← Engine.rcnt_of_buffered h]
  rfl

/-- A buffer with `x` at its front holds `x` above the bits behind it. -/
theorem buffered_cons {s : State} {x : Bool} {bits : List Bool} (h : s.eng.buffered = x :: bits) :
    s.eng.rbuf.getLsbD bits.length = x ∧ (s.withBits bits.length).eng.buffered = bits := by
  rw [Engine.buffered, Engine.rcnt_of_buffered h, List.length_cons, lowBits_succ] at h
  exact List.cons.inj h

theorem withBits_buffered {s : State} {p bits : List Bool} (h : s.eng.buffered = p ++ bits) :
    (s.withBits bits.length).eng.buffered = bits := by
  induction p generalizing s with
  | nil =>
    rw [List.nil_append] at h
    rw [withBits_self h, h]
  | cons x p ih => exact ih (s := s.withBits (p ++ bits).length) (buffered_cons h).2

/-- A buffered bit is read with no look at the source nor at `SRC_EOF` (41_bitstream R165). -/
theorem readBit_cons {s : State} {x : Bool} {bits : List Bool} (h : s.eng.buffered = x :: bits) :
    readBit s = .ok (some x) (s.withBits bits.length) := by
  have len := Engine.rcnt_of_buffered h
  rw [List.length_cons] at len
  rw [readBit_buffered (by omega), serveBit, len, Nat.add_sub_cancel, (buffered_cons h).1]
  rfl

@[simp] theorem withBits_node (s : State) (k : Nat) (n : Handle) : (s.withBits k).eng.node n = s.eng.node n := rfl

/-- How much of the buffer is left to read does not change where bits lead. -/
theorem withBits_follow (s : State) (k : Nat) (n : Handle) (bits : List Bool) :
    (s.withBits k).eng.follow n bits = s.eng.follow n bits := by
  induction bits generalizing n with
  | nil => rfl
  | cons x bits ih =>
    simp only [Engine.follow, withBits_node]
    split
    · exact ih _
    all_goals rfl

/-- The descent over buffered bits goes on where they lead (43_decoder R190). -/
theorem descend_buffered {s : State} {p bits q : List Bool} {k : Nat} {n m : Handle} (h : s.eng.buffered = p ++ bits)
    (hf : s.eng.follow n p = some m) :
    descend (k + p.length) n q s = descend k m (q ++ p) (s.withBits bits.length) := by
  induction p generalizing n q s with
  | nil =>
    obtain rfl := Option.some.inj hf
    rw [List.nil_append] at h
    rw [withBits_self h, List.append_nil, List.length_nil, Nat.add_zero]
  | cons x p ih =>
    unfold Engine.follow at hf
    split at hf
    · rename_i l r kind
      have hf' : (s.withBits (p ++ bits).length).eng.follow (if x then r else l) p = some m :=
        (withBits_follow s _ _ p).trans hf
      rw [List.cons_append] at h
      rw [List.length_cons, ← Nat.add_assoc, descend, kind]
      simp only [readBit_cons h, andThen_ok]
      rw [ih (buffered_cons h).2 hf', List.append_assoc]
      rfl
    all_goals cases hf

theorem descend_stops {k : Nat} {n : Handle} {q : List Bool} {s : State} (h : ∀ l r, (s.eng.node n).kind ≠ .internal l r) :
    descend k n q s = .ok (.reached n q) s := by
  cases k with
  | zero => rfl
  | succ k =>
    rw [descend]
    split
    · rename_i l r kind; exact absurd kind (h l r)
    all_goals rfl

/-- `DEC` goes on at the node with no child that buffered bits lead to (43_decoder R190). -/
theorem execDec_buffered {s : State} {p left : List Bool} {n : Handle} (hf : s.eng.fault = none)
    (hw : (s.eng.node ROOT).weight ≠ wmax s.width) (h : s.eng.buffered = p ++ left) (len : p.length ≤ pathMax)
    (leads : s.eng.follow ROOT p = some n) (kind : ∀ l r, (s.eng.node n).kind ≠ .internal l r) :
    execDec s = decodeAt s.eng.rcnt n p (s.withBits left.length) := by
  refine execDec_reached hf hw ?_
  rw [← Nat.sub_add_cancel len, descend_buffered h leads, descend_stops (by simpa using kind), List.nil_append]

/-- A literal goes on after the buffered bits (43_decoder R192). -/
theorem readLiteral_buffered {s : State} {p v : List Bool} {k : Nat} (h : s.eng.buffered = p) :
    readLiteral (k + p.length) v s = readLiteral k (v ++ p) (s.withBits 0) := by
  induction p generalizing v s with
  | nil => rw [show s.withBits 0 = s from withBits_self h, List.append_nil, List.length_nil, Nat.add_zero]
  | cons x p ih =>
    rw [List.length_cons, ← Nat.add_assoc, readLiteral]
    simp only [readBit_cons h, andThen_ok]
    rw [ih (buffered_cons h).2, List.append_assoc]
    rfl

/-- The state after the end of input is met: `SRC_EOF` is latched, and the source is asked only where it was not (41_bitstream
R165, R166). -/
def State.atEnd (s : State) : State :=
  { s with
    eng := { s.eng with rcnt := 0, srcEof := true }
    ports := { s.ports with source := if s.eng.srcEof then s.ports.source else s.ports.source.tail } }

/-- With the buffer empty and the source exhausted, `ReadBit` meets the end of input (41_bitstream R165, R166). -/
theorem readBit_atEnd {s : State} (h : s.eng.srcEof = true ∨ s.SourceAtEnd) :
    readBit (s.withBits 0) = .ok none s.atEnd := by
  cases he : s.eng.srcEof with
  | true =>
    rw [readBit_latched (s := s.withBits 0) rfl he, State.atEnd, he, if_pos rfl, ← he]
    rfl
  | false =>
    have supply : Supply (s.withBits 0) [] s.ports.source [] s.eng.rbuf := ⟨Nat.zero_le 7, he, rfl, rfl, rfl⟩
    rw [(readBit_supply_eof supply (h.resolve_left (by simp [he]))).1, State.atEnd, he]
    rfl

/-- `DEC` with buffered bits that end inside the attempt, and the source exhausted, meets the end of input (43_decoder R196). -/
theorem execDec_drained {s : State} (hf : s.eng.fault = none) (hw : (s.eng.node ROOT).weight ≠ wmax s.width)
    (h : s.eng.srcEof = true ∨ s.SourceAtEnd) (hu : s.eng.Unfinished s.eng.buffered) :
    execDec s = endOfInput s.eng.rcnt s.eng.buffered s.atEnd := by
  generalize hbits : s.eng.buffered = bits at hu
  cases hu with
  | @inPath _ m l r len leads kind =>
    obtain ⟨k, hk⟩ : ∃ k, pathMax = k + 1 + bits.length := ⟨pathMax - bits.length - 1, by omega⟩
    have ended : descend pathMax ROOT [] s = .ok (.ended bits) s.atEnd := by
      rw [hk, descend_buffered (bits := []) (by rw [hbits, List.append_nil]) leads, List.length_nil, descend, withBits_node,
        kind]
      simp only [readBit_atEnd h, andThen_ok, List.nil_append]
    rw [execDec_clear hf hw, ended, settle_ok]
  | @inLiteral path literal n len leads kind short =>
    obtain ⟨k, hk⟩ : ∃ k, 8 = k + 1 + literal.length := ⟨8 - literal.length - 1, by omega⟩
    have ended : readLiteral 8 [] (s.withBits literal.length) = .ok { bits := literal, complete := false } s.atEnd := by
      have hend : readBit ((s.withBits literal.length).withBits 0) = .ok none s.atEnd := readBit_atEnd h
      rw [hk, readLiteral_buffered (withBits_buffered hbits), readLiteral, hend]
      rfl
    rw [execDec_buffered hf hw hbits len leads (by simp [kind]), decodeAt, withBits_node, if_pos kind, ended, settle_ok,
      if_neg Bool.false_ne_true]

/-- Settles O51: the attempt is unfinished before its first bit, and the end is met with no bit consumed. -/
theorem decReportsEndOfStream : Obligations.DecReportsEndOfStream := by
  intro s l r hf hw hroot hcnt hend
  have empty : s.eng.buffered = [] := by rw [Engine.buffered, hcnt, lowBits_zero]
  have unfinished : s.eng.Unfinished s.eng.buffered := by
    rw [empty]
    rcases hroot with hk | hk
    · exact .inPath (by decide) rfl hk
    · exact .inLiteral (path := []) (literal := []) (by decide) rfl hk (by decide)
  have word : responseWord .eos 0#8 0 false = 1#32 := responseWord_bare .eos
  have hx := execDec_drained hf hw hend unfinished
  rw [empty, hcnt, endOfInput, if_pos ⟨rfl, rfl⟩] at hx
  have regs : s.atEnd.eng = { s.eng with srcEof := true } := by rw [State.atEnd, ← hcnt]
  refine ⟨_, hx, rfl, ?_, rfl, rfl⟩
  rw [← word]
  exact congrArg (fun e : Engine => { e with lastrsp := responseWord .eos 0#8 0 false }) regs

/-! Padding -/

/-- The root is an internal node, or it is the NYT: a symbol leaf is below it (40_tree R121). -/
theorem TreeShape.root_not_leaf {e : Engine} (sh : TreeShape e) (b : Byte) : (e.node ROOT).kind ≠ .leaf b := by
  intro leaf
  by_cases hn : e.nyth = ROOT
  · rw [(sh.nyt ROOT).2 hn.symm] at leaf
    cases leaf
  · obtain ⟨-, -, l, r, kind⟩ := sh.aboveIn (sh.root_above sh.nytIn hn)
    rw [kind] at leaf
    cases leaf

/-- Bits lead through internal nodes all the way, or some of them lead to a node with no child. -/
theorem TreeShape.follow_or_stops {e : Engine} (sh : TreeShape e) {n : Handle} (hn : e.InTree n) (bits : List Bool) :
    (∃ m l r, e.follow n bits = some m ∧ (e.node m).kind = .internal l r) ∨
    ∃ p left m, bits = p ++ left ∧ e.follow n p = some m ∧ ((e.node m).kind = .nyt ∨ ∃ b, (e.node m).kind = .leaf b) := by
  induction bits generalizing n with
  | nil =>
    cases kind : (e.node n).kind with
    | free => exact absurd kind hn
    | internal l r => exact .inl ⟨n, l, r, rfl, kind⟩
    | leaf b => exact .inr ⟨[], [], n, rfl, rfl, .inr ⟨b, kind⟩⟩
    | nyt => exact .inr ⟨[], [], n, rfl, rfl, .inl kind⟩
  | cons x bits ih =>
    cases kind : (e.node n).kind with
    | free => exact absurd kind hn
    | leaf b => exact .inr ⟨[], x :: bits, n, rfl, rfl, .inr ⟨b, kind⟩⟩
    | nyt => exact .inr ⟨[], x :: bits, n, rfl, rfl, .inl kind⟩
    | internal l r =>
      obtain ⟨-, left_in, right_in, -⟩ := sh.children n l r kind
      have child : e.InTree (if x then r else l) := by cases x <;> assumption
      have down : ∀ p, e.follow n (x :: p) = e.follow (if x then r else l) p := fun p => by rw [Engine.follow, kind]
      rcases ih child with ⟨m, l', r', leads, kind'⟩ | ⟨p, left, m, rfl, leads, kind'⟩
      · exact .inl ⟨m, l', r', (down _).trans leads, kind'⟩
      · exact .inr ⟨x :: p, left, m, rfl, (down _).trans leads, kind'⟩

/-- Fewer than 8 bits end inside an attempt, or begin with the path to a symbol leaf: they hold no whole literal (43_decoder
R192, R199). -/
theorem TreeShape.unfinished_or_leaf {e : Engine} (sh : TreeShape e) {bits : List Bool} (h : bits.length < 8) :
    e.Unfinished bits ∨ ∃ p left n b, bits = p ++ left ∧ p ≠ [] ∧ e.follow ROOT p = some n ∧ (e.node n).kind = .leaf b := by
  rcases sh.follow_or_stops sh.rootIn bits with ⟨m, l, r, leads, kind⟩ | ⟨p, left, n, rfl, leads, kind | ⟨b, kind⟩⟩
  · exact .inl (.inPath (h.trans (by decide)) leads kind)
  · rw [List.length_append] at h
    exact .inl (.inLiteral (show p.length ≤ 256 by omega) leads kind (by omega))
  · refine .inr ⟨p, left, n, b, rfl, ?_, leads, kind⟩
    rintro rfl
    obtain rfl := Option.some.inj leads
    exact sh.root_not_leaf b kind

/-- Settles O52: at most 7 zeros either end inside the attempt, with all of them consumed and no 1 among them, or lead to a
symbol leaf below the root, whose update runs to its end. -/
theorem paddingNeverLooksTruncated : Obligations.PaddingNeverLooksTruncated := by
  intro s inv hf hw hbits hend
  have len : s.eng.buffered.length = s.eng.rcnt := lowBits_length _ _
  have range := inv.regs.rcnt
  rcases inv.shape.unfinished_or_leaf (bits := s.eng.buffered) (by omega) with
    unfinished | ⟨p, left, n, b, parts, nonempty, leads, kind⟩
  · have zeros : s.eng.buffered.all (!·) = true := by rw [hbits]; simp
    have hx := execDec_drained hf hw hend unfinished
    rw [endOfInput, if_pos ⟨len, zeros⟩, len] at hx
    exact ⟨_, hx, rfl, .inr ⟨rfl, rfl, rfl, hf, ⟨rfl, rfl, rfl, rfl, rfl⟩, ⟨rfl, rfl⟩, ⟨rfl, rfl⟩⟩⟩
  · have sum : p.length + left.length = s.eng.rcnt := by rw [← len, parts, List.length_append]
    have short : p.length ≤ 256 := by omega
    obtain ⟨e, he⟩ := updateTreeNeverEndsInInternalFault s.eng b inv.shape inv.weights
    have hx := execDec_buffered hf hw parts short leads (by simp [kind])
    rw [decodeAt_leaf (s := s.withBits left.length) kind] at hx
    obtain ⟨f, hdone, -, -, -, -, ⟨-, cnt, -⟩, -⟩ := execDec_decoded hx ⟨rfl, rfl, rfl, rfl, rfl⟩ rfl he
    obtain ⟨code, -⟩ := responseWord_fields .ok b p.length false
    refine ⟨_, hdone, rfl, .inl ⟨code, ?_⟩⟩
    have cnt : f.rcnt = left.length := cnt
    have := List.length_pos_of_ne_nil nonempty
    show f.rcnt < s.eng.rcnt
    omega

end Sys2Proof.Machine
end

section
/-! The queries (44_query): the commands that answer from the tree (R210 to R212), what each region of the query space reads (R214
to R227), and the path a host computes from the LINKS words (R213). -/

namespace Sys2Proof.Machine

open Sys2Proof.Config

/-! The query commands -/

theorem execContains_clear {s : State} (hf : s.eng.fault = none) (b : Byte) :
    execContains b s = .next (respond .ok (BitVec.setWidth 8 (BitVec.ofBool (s.eng.contains b))) 0 false s) :=
  prologue_clear hf _

theorem execPathsym_leaf {s : State} (hf : s.eng.fault = none) {b : Byte} {h : Handle} (hb : s.eng.leafOf b = some h) :
    execPathsym b s = .next (answerPath (s.eng.pathTo h) s) := by
  rw [execPathsym, prologue_clear hf, hb]

theorem execPathsym_absent {s : State} (hf : s.eng.fault = none) {b : Byte} (hb : s.eng.leafOf b = none) :
    execPathsym b s = .next (reject .errNosym s) := by
  rw [execPathsym, prologue_clear hf, hb]

theorem execPathnyt_clear {s : State} (hf : s.eng.fault = none) :
    execPathnyt s = .next (answerPath (s.eng.pathTo s.eng.nyth) s) :=
  prologue_clear hf _

/-- The response of `CONTAINS`: its answer is bit 4, the lowest bit of `DATA` (30_encoding R97). -/
theorem responseWord_answer (x : Bool) :
    responseWord .ok (BitVec.setWidth 8 (BitVec.ofBool x)) 0 false = if x then 0x10#32 else 0#32 := by
  cases x <;> decide

/-- The response of a path command: `LEN` alone, from bit 12 up (30_encoding R97). -/
theorem responseWord_length_toNat {n : Nat} (h : n < 512) : (responseWord .ok 0#8 n false).toNat = n * 4096 := by
  unfold responseWord
  rw [BitVec.toNat_append, BitVec.toNat_append, BitVec.toNat_append, BitVec.toNat_append]
  simp [Code.bits, Nat.shiftLeft_eq]
  omega

/-- Settles O22: the refusal of a faulted engine is out of the way, and the answer is the VALID bit. -/
theorem containsReportsMembership : Obligations.ContainsReportsMembership := by
  intro b s hf
  refine (execContains_clear hf b).trans ?_
  rw [respond, responseWord_answer]
  rfl

/-- What a path command does (44_query R211, R212). -/
theorem answerPath_records (s : State) (h : Handle) :
    let t := answerPath (s.eng.pathTo h) s
    HoldsPath (s.eng.pathTo h) s.eng t.eng ∧
      t.eng.lastrsp.toNat = (s.eng.pathTo h).length * 4096 ∧ Answered s t ∧
      t.eng = { s.eng with pathlen := t.eng.pathlen, path := t.eng.path, lastrsp := t.eng.lastrsp } ∧
      t.ports = { s.ports with responses := t.ports.responses } := by
  obtain ⟨pathlen, cells⟩ := recordPath_holdsPath s.eng (s.eng.pathTo h)
  have fits : (s.eng.pathTo h).length < 512 := (pathTo_length_le s.eng h).trans_lt (by decide)
  exact ⟨⟨pathlen, cells⟩, responseWord_length_toNat fits, rfl, rfl, rfl⟩

/-- Settles O23: both path commands end in `answerPath`, and a byte with no leaf is refused before anything is recorded. -/
theorem pathCommandsRecordThePath : Obligations.PathCommandsRecordThePath := by
  intro s hf
  refine ⟨fun b h hb => ?_, ?_, fun b hb => ?_⟩
  · exact ⟨_, execPathsym_leaf hf hb, answerPath_records s h⟩
  · exact ⟨_, execPathnyt_clear hf, answerPath_records s s.eng.nyth⟩
  · have word : responseWord .errNosym 0#8 0 false = 5#32 := responseWord_bare .errNosym
    refine (execPathsym_absent hf hb).trans ?_
    rw [reject, respond, word]
    rfl

/-! The regions of the query space (44_query R214) -/

theorem qread_node (s : State) {a : QAddr} {h : Handle} {f : Nat} (hf : f < 4) (ha : a.toNat = 4 * h.val + f) :
    qread s a = nodeWord (s.eng.node h) f := by
  have hh : h.val < 513 := h.isLt
  have handle : (4 * h.val + f) / 4 = h.val := by omega
  have field : (4 * h.val + f) % 4 = f := by omega
  unfold qread
  rw [dif_pos (by omega)]
  simp only [ha, handle, field]

theorem qread_lookup (s : State) {a : QAddr} {b : Byte} (ha : a.toNat = 0x1000 + b.toNat) :
    qread s a = lookupWord (s.eng.leafOf b) := by
  have hb : b.toNat < 256 := b.isLt
  unfold qread
  rw [dif_neg (by omega), dif_pos (by omega)]
  simp only [ha, Nat.add_sub_cancel_left]
  rfl

theorem qread_path (s : State) {a : QAddr} {j : Fin 8} (ha : a.toNat = 0x1100 + j.val) :
    qread s a = pathWord s.eng.path j.val := by
  unfold qread
  rw [dif_neg (by omega), dif_neg (by omega), if_pos (by omega), ha, Nat.add_sub_cancel_left]

theorem qread_swaplog (s : State) {a : QAddr} {i : Fin swaplogN} (ha : a.toNat = 0x1200 + i.val) :
    qread s a = swapWord (s.eng.swaplog.get i) := by
  have hi : i.val < 512 := i.isLt
  unfold qread
  rw [dif_neg (by omega), dif_neg (by omega), if_neg (by omega), dif_pos (by omega)]
  simp only [ha, Nat.add_sub_cancel_left]
  rfl

theorem qread_register (s : State) {a : QAddr} {k : Nat} (ha : a.toNat = 0x1400 + k) : qread s a = registerWord s k := by
  unfold qread
  rw [dif_neg (by omega), dif_neg (by omega), if_neg (by omega), dif_neg (by omega), if_pos (by omega), ha,
    Nat.add_sub_cancel_left]

/-- The addresses of no region read 0 (44_query R227). -/
theorem qread_gap (s : State) {a : QAddr}
    (h : (0x0804 ≤ a.toNat ∧ a.toNat ≤ 0x0FFF) ∨ (0x1108 ≤ a.toNat ∧ a.toNat ≤ 0x11FF) ∨ 0x140A ≤ a.toNat) :
    qread s a = 0#32 := by
  by_cases below : a.toNat < 0x1400
  · unfold qread
    rw [dif_neg (by omega), dif_neg (by omega), if_neg (by omega), dif_neg (by omega), if_neg (by omega)]
  · obtain ⟨k, hk⟩ : ∃ k, a.toNat = 0x1400 + (k + 10) := ⟨a.toNat - 0x140A, by omega⟩
    exact qread_register s hk

/-! The fields of the words -/

/-- The fields of a word put together from three, the lowest one first. -/
theorem three_fields {a b c : Nat} (x : BitVec a) (y : BitVec b) (z : BitVec c) :
    (x ++ y ++ z).extractLsb' 0 c = z ∧ (x ++ y ++ z).extractLsb' c b = y ∧ (x ++ y ++ z).extractLsb' (c + b) a = x := by
  refine ⟨extract_append_low _ _, ?_, ?_⟩
  · rw [BitVec.extractLsb'_append_eq_of_le le_rfl, Nat.sub_self, extract_append_low]
  · rw [BitVec.extractLsb'_append_eq_of_le (Nat.le_add_right c b), Nat.add_sub_cancel_left, extract_append_high]

/-- The fields of a word put together from four, the lowest one first. -/
theorem four_fields {a b c d : Nat} (w : BitVec a) (x : BitVec b) (y : BitVec c) (z : BitVec d) :
    (w ++ x ++ y ++ z).extractLsb' 0 d = z ∧ (w ++ x ++ y ++ z).extractLsb' d c = y ∧
    (w ++ x ++ y ++ z).extractLsb' (d + c) b = x ∧ (w ++ x ++ y ++ z).extractLsb' (d + (c + b)) a = w := by
  obtain ⟨hz, hy, -⟩ := three_fields (w ++ x) y z
  obtain ⟨-, hx, hw⟩ := three_fields w x y
  refine ⟨hz, hy, ?_, ?_⟩
  · rw [BitVec.extractLsb'_append_eq_of_le (Nat.le_add_right d c), Nat.add_sub_cancel_left, hx]
  · rw [BitVec.extractLsb'_append_eq_of_le (Nat.le_add_right d _), Nat.add_sub_cancel_left, hw]

/-- A field of one bit is that bit. -/
theorem getLsbD_of_extract {n i : Nat} {w : BitVec n} {p : Bool} (h : w.extractLsb' i 1 = BitVec.ofBool p) :
    w.getLsbD i = p := by
  simpa using congrArg (BitVec.getLsbD · 0) h

theorem kindWord_fields (nd : Node) :
    (nodeWord nd 1).extractLsb' 30 2 = kindBits nd.kind ∧ (nodeWord nd 1).extractLsb' 18 12 = 0#12 ∧
    (nodeWord nd 1).extractLsb' 10 8 = nd.sym ∧ (nodeWord nd 1).extractLsb' 0 10 = BitVec.ofNat 10 nd.key := by
  obtain ⟨key, sym, zeros, kind⟩ := four_fields (kindBits nd.kind) 0#12 nd.sym (BitVec.ofNat 10 nd.key)
  exact ⟨kind, zeros, sym, key⟩

theorem linksWord_fields (nd : Node) :
    (nodeWord nd 2).extractLsb' 30 2 = 0#2 ∧ (nodeWord nd 2).extractLsb' 20 10 = linkBits nd.parent ∧
    (nodeWord nd 2).extractLsb' 10 10 = linkBits nd.left ∧ (nodeWord nd 2).extractLsb' 0 10 = linkBits nd.right := by
  obtain ⟨right, left, parent, zeros⟩ := four_fields 0#2 (linkBits nd.parent) (linkBits nd.left) (linkBits nd.right)
  exact ⟨zeros, parent, left, right⟩

theorem lookupWord_fields (l : Link) :
    (lookupWord l).getLsbD 31 = l.isSome ∧ (lookupWord l).extractLsb' 10 21 = 0#21 ∧
    (lookupWord l).extractLsb' 0 10 = linkBits l := by
  obtain ⟨handle, zeros, valid⟩ := three_fields (BitVec.ofBool l.isSome) 0#21 (linkBits l)
  exact ⟨getLsbD_of_extract valid, zeros, handle⟩

theorem swapWord_fields (x : SwapEntry) :
    (swapWord x).extractLsb' 26 6 = 0#6 ∧ (swapWord x).extractLsb' 16 10 = linkBits x.n ∧
    (swapWord x).extractLsb' 10 6 = 0#6 ∧ (swapWord x).extractLsb' 0 10 = linkBits x.m := by
  obtain ⟨m, between, n, top⟩ := four_fields 0#6 (linkBits x.n) 0#6 (linkBits x.m)
  exact ⟨top, n, between, m⟩

theorem statusWord_fields (e : Engine) :
    (statusWord e).extractLsb' 0 4 = faultBits e.fault ∧ (statusWord e).getLsbD 4 = e.closed ∧
    (statusWord e).getLsbD 5 = e.srcEof ∧ (statusWord e).extractLsb' 6 26 = 0#26 := by
  obtain ⟨fault, closed, srcEof, zeros⟩ :=
    four_fields 0#26 (BitVec.ofBool e.srcEof) (BitVec.ofBool e.closed) (faultBits e.fault)
  exact ⟨fault, getLsbD_of_extract closed, getLsbD_of_extract srcEof, zeros⟩

theorem treeWord_fields (e : Engine) :
    (treeWord e).extractLsb' 0 10 = 0#10 ∧ (treeWord e).extractLsb' 10 10 = BitVec.ofNat 10 e.nyth.val ∧
    (treeWord e).extractLsb' 20 9 = BitVec.ofNat 9 e.nsym ∧ (treeWord e).extractLsb' 29 3 = 0#3 :=
  four_fields 0#3 (BitVec.ofNat 9 e.nsym) (linkBits (some e.nyth)) (linkBits (some ROOT))

theorem writerWord_fields (e : Engine) :
    (writerWord e).extractLsb' 0 8 = e.wbuf ∧ (writerWord e).extractLsb' 8 3 = BitVec.ofNat 3 e.wcnt ∧
    (writerWord e).extractLsb' 11 21 = 0#21 :=
  three_fields 0#21 (BitVec.ofNat 3 e.wcnt) e.wbuf

theorem readerWord_fields (e : Engine) :
    (readerWord e).extractLsb' 0 8 = e.rbuf ∧ (readerWord e).extractLsb' 8 4 = BitVec.ofNat 4 e.rcnt ∧
    (readerWord e).extractLsb' 12 20 = 0#20 :=
  three_fields 0#20 (BitVec.ofNat 4 e.rcnt) e.rbuf

/-- The first path cell of a word is its most significant bit (44_query R220). -/
theorem pathWord_getLsbD (cells : Vector Bool pathMax) (j : Fin 8) (k : Fin 32) :
    (pathWord cells j.val).getLsbD (31 - k.val) =
      cells.get ⟨32 * j.val + k.val, by have := j.isLt; have := k.isLt; show 32 * j.val + k.val < 256; omega⟩ := by
  have hj := j.isLt
  have hk := k.isLt
  have length : ((cells.toList.drop (32 * j.val)).take 32).length = 32 := by
    rw [List.length_take, List.length_drop, Vector.length_toList]
    show min 32 (256 - 32 * j.val) = 32
    omega
  have position : 32 - 1 - (31 - k.val) = k.val := by omega
  have below : 31 - k.val < 32 := by omega
  have cell : 32 * j.val + k.val < 256 := by omega
  rw [pathWord, BitVec.getLsbD_setWidth, BitVec.getLsbD_ofBoolListBE, length, position]
  simp [below, cell, Vector.get_eq_getElem]

/-- Settles O24: each of the four words is read at its own address of the slot. -/
theorem queryReadsNodeWords : Obligations.QueryReadsNodeWords := by
  intro s h
  have hh : h.val < 513 := h.isLt
  have word : ∀ f < 4, qread s (BitVec.ofNat 14 (4 * h.val + f)) = nodeWord (s.eng.node h) f := fun f hf =>
    qread_node s hf (Nat.mod_eq_of_lt (by omega))
  rw [word 1 (by decide), word 2 (by decide), word 3 (by decide)]
  exact ⟨word 0 (by decide), kindWord_fields _, linksWord_fields _, rfl⟩

/-- Settles O25: a region at a time, and a NIL handle reads 0x3FF. -/
theorem queryReadsLookupPathAndSwapLog : Obligations.QueryReadsLookupPathAndSwapLog := by
  refine ⟨fun s b => ?_, fun s j k => ?_, fun s i => ?_⟩
  · have hb : b.toNat < 256 := b.isLt
    rw [qread_lookup s (b := b) (Nat.mod_eq_of_lt (by omega))]
    exact lookupWord_fields _
  · rw [qread_path s (j := j) (Nat.mod_eq_of_lt (by omega)), pathWord_getLsbD]
  · have hi : i.val < 512 := i.isLt
    rw [qread_swaplog s (i := i) (Nat.mod_eq_of_lt (by omega))]
    exact swapWord_fields _

/-- Settles O26: the gaps read 0, and each register word is read at its own address. -/
theorem queryReadsRegisterWords : Obligations.QueryReadsRegisterWords := by
  intro s
  refine ⟨fun a => qread_gap s, ?_, ?_, qread_register s (k := 2) rfl, qread_register s (k := 3) rfl,
    qread_register s (k := 4) rfl, ?_, ?_, qread_register s (k := 7) rfl,
    qread_register s (k := 8) rfl, qread_register s (k := 9) rfl⟩
  · rw [qread_register s (k := 0) rfl]; exact statusWord_fields s.eng
  · rw [qread_register s (k := 1) rfl]; exact treeWord_fields s.eng
  · rw [qread_register s (k := 5) rfl]; exact writerWord_fields s.eng
  · rw [qread_register s (k := 6) rfl]; exact readerWord_fields s.eng

/-! The path the host computes (44_query R213) -/

theorem linkBits_some_toNat (h : Handle) : (linkBits (some h)).toNat = h.val :=
  Nat.mod_eq_of_lt (h.isLt.trans (by decide))

/-- A handle field reads 0x3FF exactly when it is NIL, and else names one slot (10_state R23). -/
theorem linkBits_injective : Function.Injective linkBits := by
  intro a b h
  have nil : (linkBits none).toNat = 0x3FF := rfl
  have range : ∀ x : Handle, x.val < 513 := fun x => x.isLt
  have numbers := congrArg BitVec.toNat h
  rcases a with _ | a <;> rcases b with _ | b
  · rfl
  · rw [nil, linkBits_some_toNat] at numbers; have := range b; omega
  · rw [nil, linkBits_some_toNat] at numbers; have := range a; omega
  · rw [linkBits_some_toNat, linkBits_some_toNat] at numbers
    rw [Fin.ext numbers]

theorem linkBits_beq (a b : Link) : (linkBits a == linkBits b) = (a == b) := by
  rw [Bool.eq_iff_iff, beq_iff_eq, beq_iff_eq, linkBits_injective.eq_iff]

theorem linksAddr_toNat (h : Handle) : (linksAddr (linkBits (some h))).toNat = 4 * h.val + 2 := by
  have hh : h.val < 513 := h.isLt
  rw [linksAddr, BitVec.toNat_add, BitVec.toNat_mul, BitVec.toNat_setWidth, linkBits_some_toNat]
  simp only [BitVec.toNat_ofNat]
  omega

/-- The host's climb takes the turns that `PathTo` takes: each link of the one is a link of the other. -/
theorem hostPathUp_eq_pathUp (s : State) (k : Nat) (h : Handle) (acc : List Bool) :
    hostPathUp s k (linkBits (some h)) acc = s.eng.pathUp k h acc := by
  induction k generalizing h acc with
  | zero => rfl
  | succ k ih =>
    obtain ⟨-, parent, -, -⟩ := linksWord_fields (s.eng.node h)
    have links : ∀ x : Handle, qread s (linksAddr (linkBits (some x))) = nodeWord (s.eng.node x) 2 := fun x =>
      qread_node s (by decide) (linksAddr_toNat x)
    rw [hostPathUp, Engine.pathUp, links, parent]
    cases hp : (s.eng.node h).parent with
    | none => rfl
    | some p =>
      obtain ⟨-, -, -, right⟩ := linksWord_fields (s.eng.node p)
      have notNil : linkBits (some p) ≠ 0x3FF#10 := linkBits_injective.ne (a₂ := none) (by simp)
      simp only [notNil, if_false, links, right, linkBits_beq, ih]

/-- Settles O28: both climb at most 256 links. -/
theorem hostComputesPaths : Obligations.HostComputesPaths :=
  fun s h => hostPathUp_eq_pathUp s pathMax h []

end Sys2Proof.Machine
end

section
/-! The control commands (45_control): what `NOP` (R230) and `INIT` (R231) leave, in every state. Neither runs the prologue, so a
recorded fault refuses neither. -/

namespace Sys2Proof.Machine

/-- The bare response `OK` is the word 0 (30_encoding R97). -/
theorem respond_ok_bare (s : State) : respond .ok 0#8 0 false s = complete 0#32 s := by
  have word : responseWord .ok 0#8 0 false = 0#32 := responseWord_bare .ok
  rw [respond, word]

/-- Settles O20: the command is its response. -/
theorem nopOnlyResponds : Obligations.NopOnlyResponds := fun s =>
  congrArg Host.Outcome.next (respond_ok_bare s)

/-- Settles O21: the response is given from the reset registers and the ports as they were. -/
theorem initRestoresRegisters : Obligations.InitRestoresRegisters := by
  intro s
  -- LASTRSP resets to the word of the response (10_state R40), so giving it leaves the reset registers.
  have lastrsp : { Engine.reset with lastrsp := 0#32 } = Engine.reset := rfl
  have ended : complete 0#32 (resetState s) = { s with
      eng := Engine.reset
      ports := { s.ports with responses := s.ports.responses ++ [0#32] } } := by
    rw [complete, resetState, State.withEng, lastrsp]
  exact congrArg Host.Outcome.next ((respond_ok_bare (resetState s)).trans ended)

end Sys2Proof.Machine
end

section
/-! The exceptions (60_exceptions): what a legal word on an idle port runs (R241), what an error (R243) and a fault (R244, R250)
leave, what a recorded fault refuses (R241) and what ends it (R255), and the engine that has nothing to do or waits (R262). -/

namespace Sys2Proof.Machine

/-! Bare responses -/

/-- A refusal gives its code as the whole response word and does nothing else (R243). -/
theorem reject_eq_complete (code : Code) (s : State) :
    reject code s = complete (BitVec.setWidth 32 code.bits) s := by
  rw [reject, respond, responseWord_bare]

/-- The code of a response is the one it was given with (30_encoding R97). -/
@[simp] theorem respond_code (code : Code) (data : Byte) (len : Nat) (lit : Bool) (s : State) :
    (respond code data len lit s).code = code.bits := by
  rw [State.code, respond_lastrsp]
  exact (responseWord_fields code data len lit).1

@[simp] theorem reject_code (code : Code) (s : State) : (reject code s).code = code.bits := respond_code ..

@[simp] theorem raise_code (c : FaultCode) (s : State) : (raise c s).code = c.bits := respond_code ..

/-- The fault codes are those from 0x8 on (30_encoding R98). -/
theorem fault_code_ge (c : FaultCode) : 0x8#4 ≤ c.bits := by cases c <;> decide

/-! The step with a command word -/

theorem runCommand_ok {w : Word} {i : Instr} (h : decode w = .ok i) (s : State) : runCommand w s = exec i s := by
  unfold runCommand; rw [h]

/-- Only its own word decodes to a command (30_encoding R94). -/
theorem runCommand_encode (i : Instr) (s : State) : runCommand (encode i) s = exec i s :=
  runCommand_ok ((decodeExactlyInvertsEncode _ _).2 rfl) s

/-- While a command is in flight an offered word waits (20_memory R62, R76). -/
theorem hostAction_command_waits {s : State} (h : s.ports.status ≠ .idle) (w : Word) (t : State) :
    hostAction (.command w) s t = .next s := if_neg h

/-- Settles O9: an idle port runs the word, and the word is a command's. -/
theorem stepRunsTheDecodedCommand : Obligations.StepRunsTheDecodedCommand := by
  intro s w i rest idle hh hd
  rw [step_cons hh, hostAction_command_idle idle, runCommand_ok hd]
  rfl

/-- Settles O11: an empty list ends the step at once, and a word offered to a waiting engine is not taken. -/
theorem idleAndWaitingEnginesKeepAllState : Obligations.IdleAndWaitingEnginesKeepAllState := by
  refine ⟨fun s hh => ?_, fun s w rest waiting hh => ?_⟩
  · unfold step; rw [hh]
  · rw [step_cons hh, hostAction_command_waits waiting]

/-! How a command ends, by its status code -/

/-- How a command that started in `s` ends (R240, R243, R244), with the range of its code: refused with
nothing changed; with a fault recorded; with `OK` or `EOS`; or in a wait, with no response given (20_memory R67, R69). -/
inductive EndsBy (s : State) : State → Prop where
  | rejects (code : Code) (low : code.bits < 0x8#4 := by decide) : EndsBy s (reject code s)
  | raises (c : FaultCode) (u : State) : EndsBy s (raise c u)
  | succeeds (code : Code) (data : Byte) (len : Nat) (lit : Bool) (u : State)
      (low : code.bits < 0x2#4 := by decide) : EndsBy s (respond code data len lit u)
  | waits {t : State} (responses : t.ports.responses = s.ports.responses) : EndsBy s t

theorem execUpd_endsBy (b : Byte) (s : State) : ∃ t, execUpd b s = .next t ∧ EndsBy s t := by
  rcases execUpd_cases b s with h | h | ⟨e, h, -⟩ | ⟨e, h, -⟩
  · exact ⟨_, h, .rejects _⟩
  · exact ⟨_, h, .raises _ _⟩
  · exact ⟨_, h, .succeeds _ _ _ _ _⟩
  · exact ⟨_, h, .raises _ _⟩

theorem execClose_endsBy (s : State) : ∃ t, execClose s = .next t ∧ EndsBy s t := by
  rcases execClose_cases s with h | h | ⟨d, len, t, h, -⟩ | ⟨t, h, -⟩ | ⟨t, h, hm⟩
  · exact ⟨_, h, .rejects _⟩
  · exact ⟨_, h, .rejects _⟩
  · exact ⟨_, h, .succeeds _ _ _ _ _⟩
  · exact ⟨_, h, .raises _ _⟩
  · exact ⟨_, h, .waits hm.responses⟩

theorem execEnc_endsBy (b : Byte) (s : State) : ∃ t, execEnc b s = .next t ∧ EndsBy s t := by
  rcases execEnc_cases b s with h | h | h | ⟨t, h, -⟩ | ⟨t, h, -, hm⟩ | ⟨t, e, -, -, -, -, ⟨-, h⟩ | ⟨-, h⟩⟩
  · exact ⟨_, h, .rejects _⟩
  · exact ⟨_, h, .rejects _⟩
  · exact ⟨_, h, .raises _ _⟩
  · exact ⟨_, h, .raises _ _⟩
  · exact ⟨_, h, .waits hm.responses⟩
  · exact ⟨_, h, .succeeds _ _ _ _ _⟩
  · exact ⟨_, h, .raises _ _⟩

theorem execDec_endsBy (s : State) : ∃ t, execDec s = .next t ∧ EndsBy s t := by
  rcases execDec_cases s with h | h | ⟨t, h, hm, -⟩ | ⟨c, t, h, -⟩ | ⟨len, t, h, -⟩ |
    ⟨t, sym, q, len, lit, e, -, -, -, -, -, ⟨-, h⟩ | ⟨-, h⟩⟩
  · exact ⟨_, h, .rejects _⟩
  · exact ⟨_, h, .raises _ _⟩
  · exact ⟨_, h, .waits hm.responses⟩
  · exact ⟨_, h, .raises _ _⟩
  · exact ⟨_, h, .succeeds _ _ _ _ _⟩
  · exact ⟨_, h, .succeeds _ _ _ _ _⟩
  · exact ⟨_, h, .raises _ _⟩

/-- Every command ends in one of these ways (R240). -/
theorem exec_endsBy (i : Instr) (s : State) : ∃ t, exec i s = .next t ∧ EndsBy s t := by
  cases i with
  | nop => exact ⟨_, rfl, .succeeds _ _ _ _ _⟩
  | init => exact ⟨_, rfl, .succeeds _ _ _ _ _⟩
  | enc b => exact execEnc_endsBy b s
  | dec => exact execDec_endsBy s
  | close => exact execClose_endsBy s
  | upd b => exact execUpd_endsBy b s
  | contains b =>
    rcases execContains_cases b s with h | ⟨d, h⟩
    · exact ⟨_, h, .rejects _⟩
    · exact ⟨_, h, .succeeds _ _ _ _ _⟩
  | pathsym b =>
    rcases execPathsym_cases b s with h | h | ⟨n, h⟩
    · exact ⟨_, h, .rejects _⟩
    · exact ⟨_, h, .rejects _⟩
    · exact ⟨_, h, .succeeds _ _ _ _ _⟩
  | pathnyt =>
    rcases execPathnyt_cases s with h | h
    · exact ⟨_, h, .rejects _⟩
    · exact ⟨_, h, .succeeds _ _ _ _ _⟩

/-- So does every word; one that is no command is refused (30_encoding R95). -/
theorem runCommand_endsBy (w : Word) (s : State) : ∃ t, runCommand w s = .next t ∧ EndsBy s t := by
  rcases hd : decode w with e | i
  · exact ⟨_, runCommand_error hd s, .rejects _⟩
  · rw [runCommand_ok hd]; exact exec_endsBy i s

/-- A wait leaves the response port as it was, an answer does not (20_memory R77). -/
theorem not_answered_of_responses_eq {s t : State} (h : t.ports.responses = s.ports.responses) : ¬ Answered s t := by
  intro ha
  rw [Answered, h] at ha
  simp at ha

/-- An answer with an error code is a refusal, which changes nothing (R243). -/
theorem EndsBy.reject_of_error {s t : State} (h : EndsBy s t) (ha : Answered s t) (low : 0x2#4 ≤ t.code)
    (high : t.code < 0x8#4) : ∃ code, t = reject code s := by
  cases h with
  | rejects code _ => exact ⟨code, rfl⟩
  | raises c u => rw [raise_code] at high; exact absurd (fault_code_ge c) (BitVec.not_le.2 high)
  | succeeds code data len lit u ok => rw [respond_code] at low; exact absurd low (BitVec.not_le.2 ok)
  | waits responses => exact absurd ha (not_answered_of_responses_eq responses)

/-- An answer with a fault code is a fault raised (R244). -/
theorem EndsBy.raise_of_fault {s t : State} (h : EndsBy s t) (ha : Answered s t) (high : 0x8#4 ≤ t.code) :
    ∃ c u, t = raise c u := by
  cases h with
  | rejects code low => rw [reject_code] at high; exact absurd high (BitVec.not_le.2 low)
  | raises c u => exact ⟨c, u, rfl⟩
  | succeeds code data len lit u ok =>
    rw [respond_code] at high; exact absurd high (BitVec.not_le.2 (BitVec.lt_trans ok (by decide)))
  | waits responses => exact absurd ha (not_answered_of_responses_eq responses)

/-- Settles O14: the answer is a refusal, and that is its code given as the whole response word. -/
theorem errorResponsesChangeNothing : Obligations.ErrorResponsesChangeNothing := by
  intro w s t hx ha error
  obtain ⟨t', hx', ends⟩ := runCommand_endsBy w s
  cases hx'.symm.trans hx
  have range : 0x2#4 ≤ t.code ∧ t.code < 0x8#4 := by rcases error with h | h | h | h <;> rw [h] <;> decide
  obtain ⟨code, rfl⟩ := ends.reject_of_error ha range.1 range.2
  rw [reject_code, reject_eq_complete]
  exact ⟨rfl, rfl, rfl⟩

/-- Settles O15: the answer is a fault raised, which records the code it returns. -/
theorem faultResponsesAreRecorded : Obligations.FaultResponsesAreRecorded := by
  intro i s t hx ha high
  obtain ⟨t', hx', ends⟩ := exec_endsBy i s
  cases hx'.symm.trans hx
  obtain ⟨c, u, rfl⟩ := ends.raise_of_fault ha high
  exact ⟨c, rfl, responseWord_bare (.fault c)⟩

/-! A full root -/

/-- Settles O18: the root's weight is looked at right after the prologue, by `ENC` after CLOSED, and the raise writes FAULT and
its response only. -/
theorem fullRootRaisesOverflow : Obligations.FullRootRaisesOverflow := by
  intro s i hf hw hi
  have raised : exec i s = .next (raise .wovf s) := by
    rcases hi with ⟨b, rfl⟩ | rfl | ⟨hc, b, rfl⟩
    · exact (prologue_clear hf _).trans (checkRoom_full hw _)
    · exact (prologue_clear hf _).trans (checkRoom_full hw _)
    · exact (prologue_clear hf _).trans ((if_neg (by simp [hc])).trans (checkRoom_full hw _))
  have word : responseWord (.fault .wovf) 0#8 0 false = 0xC#32 := responseWord_bare (.fault .wovf)
  rw [raised, raise, respond, word]
  rfl

/-! A recorded fault -/

/-- Every command but `NOP` and `INIT` runs the prologue, which refuses it (R241). -/
theorem exec_faulted {i : Instr} {s : State} {c : FaultCode} (hf : s.eng.fault = some c) (hn : i ≠ .nop) (hi : i ≠ .init) :
    exec i s = .next (reject .errFaulted s) := by
  cases i with
  | nop => exact absurd rfl hn
  | init => exact absurd rfl hi
  | enc | dec | close | upd | contains | pathsym | pathnyt => exact prologue_faulted hf _

/-- Settles O16: the prologue's refusal gives the code 0x3 and does nothing else. -/
theorem faultedEngineRefusesCommands : Obligations.FaultedEngineRefusesCommands := by
  intro i s c hf hn hi
  rw [exec_faulted hf hn hi, reject_eq_complete]
  rfl

/-- On a faulted engine a command other than `INIT` leaves every register but LASTRSP (R255). -/
theorem exec_faulted_eng {i : Instr} {s t : State} {c : FaultCode} (hi : i ≠ .init) (hf : s.eng.fault = some c)
    (h : exec i s = .next t) : t.eng = { s.eng with lastrsp := t.eng.lastrsp } := by
  by_cases hn : i = .nop
  · subst hn; cases h; rfl
  · rw [exec_faulted hf hn hi] at h; cases h; rfl

/-- On a faulted engine a word other than `INIT`'s, legal or not, leaves every register but LASTRSP (R242, R255). -/
theorem runCommand_faulted_eng {w : Word} {s t : State} {c : FaultCode} (hw : w ≠ encode .init) (hf : s.eng.fault = some c)
    (h : runCommand w s = .next t) : t.eng = { s.eng with lastrsp := t.eng.lastrsp } := by
  rcases hd : decode w with e | i
  · rw [runCommand_error hd] at h; cases h; rfl
  · rw [runCommand_ok hd] at h
    refine exec_faulted_eng (fun hi => hw ?_) hf h
    subst hi
    exact ((decodeExactlyInvertsEncode _ _).1 hd).symm

/-- A query read leaves the registers alone (20_memory R64, R76). -/
@[simp] theorem hostQuery_eng (a : QAddr) (s : State) : (hostQuery a s).eng = s.eng := by
  unfold hostQuery; split <;> rfl

/-- On a faulted engine whatever the host does but reset and an accepted `INIT` leaves every register but LASTRSP (R255). -/
theorem hostAction_faulted_eng {act : HostAction} {s u t : State} {c : FaultCode} (eng : u.eng = s.eng)
    (hf : s.eng.fault = some c) (hr : act ≠ .reset) (hd : ∀ w, act ≠ .resetDuring w)
    (hi : ¬ (act = .command (encode .init) ∧ s.ports.status = .idle)) (h : hostAction act s u = .next t) :
    t.eng = { s.eng with lastrsp := t.eng.lastrsp } := by
  cases act with
  | command w =>
    by_cases idle : s.ports.status = .idle
    · rw [hostAction_command_idle idle] at h
      rw [← eng] at hf ⊢
      exact runCommand_faulted_eng (fun hw => hi ⟨hw ▸ rfl, idle⟩) hf h
    · rw [hostAction_command_waits idle] at h; cases h; rfl
  | query a => cases h; rw [hostQuery_eng, eng]
  | queryInFlight | attachSource | attachSink => cases h; exact eng ▸ rfl
  | reset => exact absurd rfl hr
  | resetDuring w => exact absurd rfl (hd w)

/-- A reset while a word is presented leaves the reset registers, whatever the command did (70_reset_and_hazards R271). -/
theorem hostAction_resetDuring_eng (w : Word) (s u : State) :
    ∃ t, hostAction (.resetDuring w) s u = .next t ∧ t.eng = Engine.reset := by
  by_cases idle : s.ports.status = .idle
  · obtain ⟨t, hx, -⟩ := runCommand_endsBy w u
    have ended : resetInFlight w u = .next (resetInput { t with ports := { t.ports with responses := u.ports.responses } }) := by
      unfold resetInFlight; rw [hx]
    exact ⟨_, (if_pos idle).trans ended, rfl⟩
  · exact ⟨_, if_neg idle, rfl⟩

/-- Settles O17: a faulted engine refuses or ignores what is offered to it; the ways out put every register at its reset value. -/
theorem faultIsStickyUntilInitOrReset : Obligations.FaultIsStickyUntilInitOrReset := by
  refine ⟨fun i s t c => exec_faulted_eng, fun s t c act rest hh hf hr hd hi h => ?_, fun s act rest hh out => ?_⟩
  · rw [step_cons hh] at h
    exact hostAction_faulted_eng (takeAction_eng s rest) hf hr hd hi h
  · rw [step_cons hh]
    rcases out with rfl | ⟨w, rfl⟩ | ⟨rfl, idle⟩
    · exact ⟨_, rfl, rfl⟩
    · exact hostAction_resetDuring_eng w s _
    · rw [hostAction_command_idle idle, runCommand_encode]
      exact ⟨_, initRestoresRegisters _, rfl⟩

end Sys2Proof.Machine
end

section
/-! Reset (70_reset_and_hazards): what the reset input leaves between commands (R270, R272), and what it leaves of a command in
flight (R271). -/

namespace Sys2Proof.Machine

/-! Between commands -/

/-- The reset input touches the registers and the status of the command port (R270, R272). -/
theorem hostAction_reset (s t : State) : hostAction .reset s t =
    .next { t with eng := Engine.reset, ports := { t.ports with status := .idle } } := rfl

/-- Settles O7: the reset input is the whole step, and it names the fields it touches. -/
theorem resetInputRestoresRegisters : Obligations.ResetInputRestoresRegisters := by
  intro s rest hh
  rw [step_cons hh, hostAction_reset]
  exact ⟨_, rfl, rfl, rfl, rfl⟩

/-! During a command -/

theorem hostAction_resetDuring_idle {s : State} (h : s.ports.status = .idle) (w : Word) (t : State) :
    hostAction (.resetDuring w) s t = resetInFlight w t := if_pos h

/-- The command runs as far as its ports go; then its response is withheld and the engine is reset (R271). -/
theorem resetInFlight_of_runCommand {w : Word} {s u : State} (h : runCommand w s = .next u) : resetInFlight w s =
    .next { u with
      eng := Engine.reset
      ports := { u.ports with responses := s.ports.responses, status := .idle } } := by
  unfold resetInFlight; rw [h]; rfl

/-- Settles O8: every word ends in a next state, and the reset keeps of it what the agents gave and took. -/
theorem resetInFlightAbandonsCommand : Obligations.ResetInFlightAbandonsCommand := by
  intro s w rest idle hh
  obtain ⟨u, ran, -⟩ := runCommand_endsBy w (s.takeAction rest)
  rw [step_cons hh, hostAction_resetDuring_idle idle, resetInFlight_of_runCommand ran]
  exact ⟨_, u, ran, rfl, rfl, rfl, takeAction_responses s rest, rfl, rfl, rfl⟩

end Sys2Proof.Machine
end
